-- ==== Sys2Proof/Word.lean ====
section
/-! DEFINITION. The widths the spec names: bytes, nibbles, 32-bit words, 64-bit counters (00_scope.md R9, 10_state.md R26). -/

namespace Sys2Proof

/-- A byte: 8 bits (R9). -/
abbrev Byte := BitVec 8

/-- A nibble: 4 bits (R9). -/
abbrev Nibble := BitVec 4

/-- A 4-byte word of a block as the bits it holds (R130, R131). -/
abbrev Word32 := BitVec 32

/-- A learner counter or a write counter: `CTR_W` = 64 bits, unsigned (R26, R35). -/
abbrev Counter := BitVec 64

/-- The 8-bit command word `cmd[7:0]` (R70). -/
abbrev CommandWord := BitVec 8

end Sys2Proof
end

