-- ==== Sys2Proof/Syntax.lean ====
section
/-! DEFINITION. The eleven commands, one constructor per row of spec/opcode_table.json (R72 to R74, R76). No row
leaves a bit of the command word free, so no constructor has an operand: the request record and `wc` are the other
inputs of the transaction (R70, R75). -/

namespace Sys2Proof

/-- A legal command (R76). -/
inductive Instr where
  /-- COMPRESS.NONE, command word 0x00 (R250) -/
  | compressNone
  /-- COMPRESS.FPC, command word 0x01 (R251) -/
  | compressFpc
  /-- COMPRESS.BDI, command word 0x02 (R252) -/
  | compressBdi
  /-- COMPRESS.DFPC, command word 0x03 (R253, R254) -/
  | compressDfpc
  /-- ENCODE, command word 0x20 (R228) -/
  | encode
  /-- COUNT.RAW.1, command word 0x41 (R220) -/
  | countRaw1
  /-- COUNT.RAW.2, command word 0x42 (R220) -/
  | countRaw2
  /-- COUNT.RAW.3, command word 0x43 (R220) -/
  | countRaw3
  /-- COUNT.CELLS.1, command word 0x45 (R220) -/
  | countCells1
  /-- COUNT.CELLS.2, command word 0x46 (R220) -/
  | countCells2
  /-- COUNT.CELLS.3, command word 0x47 (R220) -/
  | countCells3
  deriving DecidableEq, Repr

end Sys2Proof
end

