-- ==== Sys2Proof/WellFormed.lean ====
section
/-! DEFINITION. Well-formed command words: the three checks a word must pass to be legal (R76). A term of `Instr`
has no operand field, so there is nothing a term itself could break; what can be ill formed is the word. -/

namespace Sys2Proof

/-- The field `op` = `cmd[7:5]` (R70). -/
def opField (w : CommandWord) : BitVec 3 := w.extractLsb' 5 3

/-- The field `arg` = `cmd[4:0]` (R70). -/
def argField (w : CommandWord) : BitVec 5 := w.extractLsb' 0 5

/-- The field `mode` = `cmd[1:0]` of COMPRESS (R72). -/
def modeField (w : CommandWord) : BitVec 2 := w.extractLsb' 0 2

/-- The must-be-zero field `cmd[4:2]` of COMPRESS (R72). -/
def compressZeroField (w : CommandWord) : BitVec 3 := w.extractLsb' 2 3

/-- The field `levels` = `cmd[1:0]` of COUNT (R74). -/
def levelsField (w : CommandWord) : BitVec 2 := w.extractLsb' 0 2

/-- The field `cc` = `cmd[2]` of COUNT (R74). -/
def ccField (w : CommandWord) : BitVec 1 := w.extractLsb' 2 1

/-- The must-be-zero field `cmd[4:3]` of COUNT (R74). -/
def countZeroField (w : CommandWord) : BitVec 2 := w.extractLsb' 3 2

/-- `op` is one of the three operations, not 3 to 7 (R70, R76). -/
def opAssigned (w : CommandWord) : Bool := decide ((opField w).toNat ≤ 2)

/-- Every must-be-zero field of the word's operation is 0 (R72 to R74, R76). -/
def zeroFieldsClear (w : CommandWord) : Bool :=
  match (opField w).toNat with
  | 0 => compressZeroField w == 0#3
  | 1 => argField w == 0#5
  | 2 => countZeroField w == 0#2
  | _ => true

/-- `levels` of a COUNT is not the reserved value 0 (R74, R76). -/
def levelsAssigned (w : CommandWord) : Bool :=
  (opField w).toNat != 2 || levelsField w != 0#2

/-- A command word is well formed iff it passes the three checks of R76. -/
def wordWellFormed (w : CommandWord) : Bool := opAssigned w && zeroFieldsClear w && levelsAssigned w

/-- The eleven legal command words, as R76 lists them. -/
def legalWords : List CommandWord :=
  [0x00, 0x01, 0x02, 0x03, 0x20, 0x41, 0x42, 0x43, 0x45, 0x46, 0x47]

end Sys2Proof
end

