-- ==== Sys2Proof/Decode.lean ====
section
/-! DEFINITION. Decoding a command word, total on all 256 words and rejecting by name (R70 to R77), and after it the
encoder written from the same tables. -/

namespace Sys2Proof

/-- Why a command word is illegal (R76). Every one of them raises `Fault(IllegalCommand)` (R275). -/
inductive DecodeError where
  /-- `op` is 3 to 7 -/
  | reservedOp
  /-- a must-be-zero field is not zero -/
  | mustBeZero
  /-- `levels` of a COUNT is 0 -/
  | reservedLevels
  deriving DecidableEq, Repr

/-- COMPRESS (R72): bits 4:2 must be 0, bits 1:0 select the mode. -/
def decodeCompress (w : CommandWord) : Except DecodeError Instr :=
  if compressZeroField w != 0#3 then .error .mustBeZero
  else match (modeField w).toNat with
    | 0 => .ok .compressNone
    | 1 => .ok .compressFpc
    | 2 => .ok .compressBdi
    | _ => .ok .compressDfpc

/-- ENCODE (R73): `arg` must be 0. -/
def decodeEncode (w : CommandWord) : Except DecodeError Instr :=
  if argField w != 0#5 then .error .mustBeZero else .ok .encode

/-- COUNT (R74): bits 4:3 must be 0, bit 2 is `cc`, bits 1:0 are `levels`, of which 0 is reserved. -/
def decodeCount (w : CommandWord) : Except DecodeError Instr :=
  if countZeroField w != 0#2 then .error .mustBeZero
  else match (ccField w).toNat, (levelsField w).toNat with
    | _, 0 => .error .reservedLevels
    | 0, 1 => .ok .countRaw1
    | 0, 2 => .ok .countRaw2
    | 0, _ => .ok .countRaw3
    | _, 1 => .ok .countCells1
    | _, 2 => .ok .countCells2
    | _, _ => .ok .countCells3

/-- `decode(cmd)`: total, by the field `op` (R70, R77). -/
def decode (w : CommandWord) : Except DecodeError Instr :=
  match (opField w).toNat with
  | 0 => decodeCompress w
  | 1 => decodeEncode w
  | 2 => decodeCount w
  | _ => .error .reservedOp

/-- The command word of a command (R72 to R74). -/
def encode : Instr → CommandWord
  | .compressNone => 0x00
  | .compressFpc => 0x01
  | .compressBdi => 0x02
  | .compressDfpc => 0x03
  | .encode => 0x20
  | .countRaw1 => 0x41
  | .countRaw2 => 0x42
  | .countRaw3 => 0x43
  | .countCells1 => 0x45
  | .countCells2 => 0x46
  | .countCells3 => 0x47

/-- A row of the decode table: `cmd AND mask = match`, with `levels != 0` where the row asks it (R77). -/
structure DecodeRow where
  mask : CommandWord
  value : CommandWord
  levelsNonZero : Bool
  deriving DecidableEq, Repr

/-- The match and mask rows of R77. -/
def decodeRows : List DecodeRow :=
  [⟨0xFF, 0x00, false⟩, ⟨0xFF, 0x01, false⟩, ⟨0xFF, 0x02, false⟩, ⟨0xFF, 0x03, false⟩,
   ⟨0xFF, 0x20, false⟩, ⟨0xFC, 0x40, true⟩, ⟨0xFC, 0x44, true⟩]

/-- A word is taken by a row of R77. -/
def DecodeRow.takes (r : DecodeRow) (w : CommandWord) : Bool :=
  (w &&& r.mask == r.value) && (!r.levelsNonZero || levelsField w != 0#2)

/-- The instruction the decoder reads from a table word of `nbits` bits (bit 0 is the least significant bit of the
one command word). A value that does not fit the 8-bit command word is no command. -/
def decodeTableWord (nbits w : Nat) : Option Instr :=
  if w % 2 ^ nbits < 2 ^ 8 then (decode (BitVec.ofNat 8 (w % 2 ^ nbits))).toOption else none

end Sys2Proof
end

