-- ==== Sys2Proof/Config.lean ====
section
/-! DEFINITION. The fixed parameters of R6, and the configuration: the knobs of R7 and R34 and the named parameters of R8
(what each stands for is in Sys2Proof/Machine/Params.lean). -/

namespace Sys2Proof.Config

/-- `BLOCK`: length of `rawBytes` in bytes (R6). -/
def block : Nat := 64

/-- `CB_CAP`: capacity of `compressedBytes` in bytes (R6). -/
def cbCap : Nat := 72

/-- `SYM_MAX`: capacity of the symbol and nibble-count scratch arrays (R6). -/
def symMax : Nat := 35

/-- `PT_MAX`: most entries of the Pattern Table, and size of the top-k selection (R6). -/
def ptMax : Nat := 4

/-- `TERNARY_MAX`: largest compressed length the ternary encoder accepts, in bytes (R6). -/
def ternaryMax : Nat := 48

/-- `BIT_BUDGET`: clamp of every COUNT result, in bits (R6). -/
def bitBudget : Nat := 512

/-- `EXCLUDED`: group values never extracted as learned patterns (R6, R170). -/
def excluded : List (BitVec 8) := [3, 15, 51, 240]

end Sys2Proof.Config

namespace Sys2Proof

/-- How a configuration fixes one named parameter (R8, U2), as plain data (log 13). -/
inductive ParamChoice where
  /-- the default that the spec decides -/
  | decided
  /-- an implementation's own function, by a number; nothing is known of it but what R132 asks of `fpcSymbol`
  and the range of the savings (log 21) -/
  | other (n : Nat)
  deriving DecidableEq, Repr

/-- The stored configuration `CFG`: the knobs of R7 and R34, and the named parameters of R8, each with its default. -/
structure Knobs where
  /-- `CFG.HORIZON`, in writes, unsigned 64-bit. The spec leaves its value open (R7). -/
  horizon : Counter
  /-- `CFG.THR_NUM`, a positive integer (R7). No width is given (log 17). -/
  thrNum : Nat := 2
  /-- `CFG.THR_DEN`, a positive integer (R7). No width is given (log 17). -/
  thrDen : Nat := 5
  /-- which `deltaRange` (R8, R113) -/
  deltaRange : ParamChoice := .decided
  /-- which `fpcSymbol` (R8, R132) -/
  fpcSymbol : ParamChoice := .decided
  /-- which `savingsFPC` (R8, R165) -/
  savingsFPC : ParamChoice := .decided
  /-- which `savingsBDI` (R8, R166) -/
  savingsBDI : ParamChoice := .decided
  /-- which `savingsSample` (R8, R171) -/
  savingsSample : ParamChoice := .decided
  deriving DecidableEq, Repr

/-- A symbol of the nibble stream with its nibble count: the low `nibbles` nibbles of `value` are emitted (R93, R94). -/
structure Symbol where
  value : Nat
  nibbles : Nat
  deriving DecidableEq, Repr

/-- The seven rungs of the FPC ladder, in priority order (R131). -/
inductive FpcRung where
  /-- rung 1: the word is 0 -/
  | zero
  /-- rung 2: magnitude at most 0xFF -/
  | smallByte
  /-- rung 3: magnitude at most 0xFFFF -/
  | smallHalf
  /-- rung 4: low 16 bits are 0 -/
  | lowHalfZero
  /-- rung 5: both halves at most 0xFF in magnitude -/
  | smallHalves
  /-- rung 6: all four bytes equal -/
  | equalBytes
  /-- rung 7: none of the above -/
  | raw
  deriving DecidableEq, Repr

/-- The functions that a configuration's named parameters stand for (R8). -/
structure Params where
  /-- `deltaRange(d)`: the largest magnitude of a `d`-byte delta (R113). -/
  deltaRange : Nat → Nat
  /-- `fpcSymbol(u, r)`: the symbol of word `u` classified at rung `r` (R132). -/
  fpcSymbol : Word32 → FpcRung → Symbol
  /-- `savingsFPC(s, hits)`, in nibbles (R165). DESIGN CHOICE: a natural number, never below 0 (log 21). -/
  savingsFPC : Fin 3 → Nat → Nat
  /-- `savingsBDI(m, hits)`, in nibbles (R166). DESIGN CHOICE: a natural number, never below 0 (log 21). -/
  savingsBDI : Fin 8 → Nat → Nat
  /-- `savingsSample(S, g, v, P)`, in nibbles (R171). DESIGN CHOICE: a natural number, never below 0 (log 21). -/
  savingsSample : Vector Counter 128 → Nat → BitVec 8 → Nat → Nat

/-! The functions of an implementation that has others than the spec's defaults, by number. They have no body, so that a
claim about every configuration holds whatever they are (U2, log 13). -/

/-- Another `deltaRange` (R113). -/
opaque Config.otherDeltaRange : Nat → Nat → Nat

/-- The value of another `fpcSymbol`, whose nibble count R132 fixes. -/
opaque Config.otherFpcValue : Nat → Word32 → FpcRung → Nat

/-- Another `savingsFPC` (R165). DESIGN CHOICE: its estimate is a natural number; unsafe, it excludes one below 0 or a
fraction (log 21). -/
opaque Config.otherSavingsFPC : Nat → Fin 3 → Nat → Nat

/-- Another `savingsBDI` (R166). DESIGN CHOICE: its estimate is a natural number; unsafe, as above (log 21). -/
opaque Config.otherSavingsBDI : Nat → Fin 8 → Nat → Nat

/-- Another `savingsSample` (R171). DESIGN CHOICE: its estimate is a natural number; unsafe, as above (log 21). -/
opaque Config.otherSavingsSample : Nat → Vector Counter 128 → Nat → BitVec 8 → Nat → Nat

end Sys2Proof
end

