-- ==== Sys2Proof/Machine/State.lean ====
section
/-! DEFINITION. The state of the machine as plain data: the engine state `E`, the configuration, the request record
in hand, the write counter presented, the RESULT handed back, and the host actions still to come (10_state.md). -/

namespace Sys2Proof.Machine

/-- A buffer of bytes by offset, in canonical form: offsets strictly rising and no entry equal to what an unlisted
offset reads as (`Memory.wf` in Ops.lean). -/
abbrev Memory := List Host.Cell

/-- A Payload Buffer (R21). -/
structure Payload where
  /-- `len(P.rawBytes)`; 64 in a well-formed record (R21, R23; log 9). -/
  rawLen : Nat
  /-- `P.rawBytes`: the raw space, offsets 0 to 63 (R21, R50). -/
  rawBytes : Memory
  /-- `P.isCompressed`: the compressed view is valid (R21). -/
  isCompressed : Bool
  /-- `P.compressedBytes`: the compressed space, offsets 0 to 71 (R21, R50). -/
  compressedBytes : Memory
  /-- `P.compressedLength`: count of valid bytes in `compressedBytes`, 7 bits (R21; log 10). -/
  compressedLength : BitVec 7
  /-- `P.isHalfTerminated`: the last compressed byte uses only its upper nibble (R21). -/
  isHalfTerminated : Bool
  deriving DecidableEq, Repr

/-- A Write Request: the payload being written and the one at the target address (R20). -/
structure Request where
  new : Payload
  old : Payload
  deriving DecidableEq, Repr

/-- An entry of the Pattern Table: the don't-care mask and the number of its 0xF nibbles (R29). -/
structure PatternEntry where
  dcMask : Word32
  count : Nat
  deriving DecidableEq, Repr

/-- The engine state `E` (R25 to R32). -/
structure Engine where
  /-- `E.fpcHits[0..2]` (R26). -/
  fpcHits : Vector Counter 3
  /-- `E.bdiHits[0..7]` (R27). -/
  bdiHits : Vector Counter 8
  /-- `E.S[0..127]` (R28). -/
  samples : Vector Counter 128
  /-- `E.table`; `E.tableLen` is its length (R29; log 15). -/
  table : List PatternEntry
  /-- `E.fpcEnable[0..2]` (R30). -/
  fpcEnable : Vector Bool 3
  /-- `E.bdiEnable[0..7]` (R30). -/
  bdiEnable : Vector Bool 8
  /-- `E.extracted` (R31). -/
  extracted : Bool
  /-- `E.FAULT` (R32). -/
  fault : Bool
  /-- `E.FAULT_CODE`, 3 bits (R32, R270). -/
  faultCode : BitVec 3
  deriving DecidableEq, Repr

/-- A fault code that a command can raise (R270; code 0 is None, codes 5 to 7 are reserved). -/
inductive FaultCode where
  /-- the command word is not one of the eleven legal words (R275) -/
  | illegalCommand
  /-- the request record fails the well-formed check (R273) -/
  | badRequest
  /-- a unit operation is asked for a size or step outside its contract (R274) -/
  | badSize
  /-- a unit operation would exceed a scratch or buffer capacity (R274) -/
  | capacity
  deriving DecidableEq, Repr

/-- The value a command hands back (R33). -/
inductive Result where
  /-- COMPRESS: 1 bit, `shrunk` -/
  | compress (shrunk : Bool)
  /-- ENCODE: 2 bits, `newDone` (bit 1) and `oldDone` (bit 0) -/
  | encode (done : BitVec 2)
  /-- COUNT: 10 bits, 0 to 512 -/
  | count (bits : BitVec 10)
  deriving DecidableEq, Repr

/-- What the host does next (20_memory.md R59, 70_reset_and_hazards.md R290, R301; log 1). -/
inductive HostAction where
  /-- present a command word and the write counter with the record in hand (R70) -/
  | command (word : CommandWord) (wc : Counter)
  /-- put a request record, well formed or not, in hand (R20, R301) -/
  | lend (request : Request)
  /-- reset the engine between commands (R290) -/
  | reset
  deriving DecidableEq, Repr

/-- The machine: the spec's engine state, configuration, request record, write counter and RESULT, and the model's
own list of host actions still to come. -/
structure State where
  /-- `E` (R25). -/
  engine : Engine
  /-- `CFG` with the named parameters (R8, R34). -/
  cfg : Knobs
  /-- the request record in hand (R20). -/
  request : Request
  /-- the write counter presented with the command (R35). -/
  wc : Counter
  /-- the RESULT of the last command, none if it faulted or was refused (R33; log 4). -/
  result : Option Result
  /-- the host actions still to come: the model's own field (log 1). -/
  host : List HostAction
  deriving DecidableEq, Repr

/-- Why the machine stops. The spec's own faults are not here: `raise Fault(code)` writes `E.FAULT` and the engine
goes on refusing commands (R271, R272), so it is a next state. -/
inductive Fault where
  /-- An access to `rawBytes` outside offsets 0 to 63, which R11 leaves undefined. Raised by `memReadRaw`; no step
  reaches it. Safe: the model stops where the spec says nothing. -/
  | rawOutOfRange
  /-- An access to `compressedBytes` outside offsets 0 to 71, which R11 leaves undefined. Raised by
  `memReadCompressed` and `memWriteCompressed`; no step reaches it. Safe: the model stops where the spec says
  nothing. -/
  | compressedOutOfRange
  deriving DecidableEq, Repr

/-- Why the machine gives an instruction no meaning. -/
inductive Refusal where
  /-- An instruction that has no meaning yet, by its mnemonic. Raised by `exec` alone; no arm of this model raises
  it. Safe: nothing can be proved of what such an instruction does. -/
  | notModelled (mnemonic : String)
  deriving DecidableEq, Repr

/-- The engine state after reset (R40). -/
def Engine.reset : Engine where
  fpcHits := Vector.replicate 3 0
  bdiHits := Vector.replicate 8 0
  samples := Vector.replicate 128 0
  table := []
  fpcEnable := Vector.replicate 3 false
  bdiEnable := Vector.replicate 8 false
  extracted := false
  fault := false
  faultCode := 0

/-- A fresh payload: 64 raw bytes, no compressed view (R23, R294). The spec gives its bytes and its length field no
value: DESIGN CHOICE zero (log 6). Unsafe: a claim about this record is a claim about one record only. -/
def Payload.fresh : Payload where
  rawLen := 64
  rawBytes := []
  isCompressed := false
  compressedBytes := []
  compressedLength := 0
  isHalfTerminated := false

/-- The configuration that `State.reset` carries: the default threshold factor 2/5 (R7, R34) and the decided defaults of
the named parameters (R8). The spec leaves `HORIZON` open: DESIGN CHOICE 0 (log 5). Unsafe: a claim about a run from
`State.reset` holds for this horizon. -/
def defaultKnobs : Knobs where
  horizon := 0

/-- The machine right after construction with a configuration and reset (R290, R294): the engine as R40 says, a
fresh request in hand, no RESULT. `wc` is an input and has no reset value: DESIGN CHOICE 0 (log 7). -/
def State.constructed (cfg : Knobs) : State where
  engine := Engine.reset
  cfg := cfg
  request := { new := Payload.fresh, old := Payload.fresh }
  wc := 0
  result := none
  host := []

/-- The machine right after reset, with the default configuration. -/
def State.reset : State := State.constructed defaultKnobs

end Sys2Proof.Machine
end

