-- ==== Sys2Proof/Machine/Ops.lean ====
section
/-! DEFINITION. The named operations over memory and engine state: reading and writing a buffer byte, the two memory
primitives of R11, the saturating counter increment, raising a fault (the block's exception entry, R271), refusing a
command (R272) and reset (the only way out of a fault, R290). -/

namespace Sys2Proof.Machine

/-- What a byte that no entry lists reads as. The spec gives buffer bytes no reset value: DESIGN CHOICE 0x00 (log 8).
Unsafe: a byte the host never wrote reads as a definite value. -/
def unlistedByte : Byte := 0

/-- Read one byte of a buffer. -/
def Memory.read : Memory → Nat → Byte
  | [], _ => unlistedByte
  | (b, v) :: m, a => if a = b then v else Memory.read m a

/-- Write one byte of a buffer, keeping the canonical form. -/
def Memory.write : Memory → Nat → Byte → Memory
  | [], a, v => if v = unlistedByte then [] else [(a, v)]
  | (b, w) :: m, a, v =>
    if a < b then (if v = unlistedByte then (b, w) :: m else (a, v) :: (b, w) :: m)
    else if a = b then (if v = unlistedByte then m else (a, v) :: m)
    else (b, w) :: Memory.write m a v

/-- Write a run of bytes from an offset, lowest offset first (R95). -/
def Memory.writeBytes : Memory → Nat → List Byte → Memory
  | m, _, [] => m
  | m, a, v :: vs => Memory.writeBytes (Memory.write m a v) (a + 1) vs

/-- Read a run of bytes from an offset, lowest offset first (R11). -/
def Memory.readBytes (m : Memory) (off n : Nat) : List Byte :=
  (List.range n).map fun i => Memory.read m (off + i)

/-- The canonical form: offsets strictly rising, no entry equal to what an unlisted offset reads as. -/
def Memory.wf : Memory → Bool
  | [] => true
  | [(_, v)] => v != unlistedByte
  | (a, v) :: (b, w) :: m => v != unlistedByte && decide (a < b) && Memory.wf ((b, w) :: m)

/-- Every entry lies below an offset: the buffer's space (R50). -/
def Memory.below (m : Memory) (bound : Nat) : Bool := m.all fun c => decide (c.1 < bound)

/-- Both buffers of a payload in canonical form and within their spaces (R50). -/
def Payload.buffersWf (p : Payload) : Bool :=
  Memory.wf p.rawBytes && Memory.below p.rawBytes Config.block &&
  Memory.wf p.compressedBytes && Memory.below p.compressedBytes Config.cbCap

/-- All four buffers of a request in canonical form and within their spaces (R50). -/
def Request.buffersWf (r : Request) : Bool := r.new.buffersWf && r.old.buffersWf

/-- How a unit operation ends early: it raises a fault of the spec (R12), or it makes an access that no rule defines
(R11). -/
inductive Abort where
  | raise (code : FaultCode)
  | outside (fault : Fault)
  deriving DecidableEq, Repr

/-- `MemRead(P, off, n)` of the raw space, defined only for `off + n <= BLOCK` (R11). -/
def memReadRaw (p : Payload) (off n : Nat) : Except Abort (List Byte) :=
  if off + n ≤ Config.block then .ok (Memory.readBytes p.rawBytes off n)
  else .error (.outside .rawOutOfRange)

/-- The read of `compressedBytes` that COUNT and ENCODE make (R222, R231), defined only within `CB_CAP` (R50).
DEDUCED: R229 writes it `MemRead`, which R11 gives the raw space alone; R231 says which bytes are read (log 11). -/
def memReadCompressed (p : Payload) (off n : Nat) : Except Abort (List Byte) :=
  if off + n ≤ Config.cbCap then .ok (Memory.readBytes p.compressedBytes off n)
  else .error (.outside .compressedOutOfRange)

/-- `MemWrite(P, off, n, bytes)`: writes `compressedBytes`, defined only for `off + n <= CB_CAP` (R11). -/
def memWriteCompressed (p : Payload) (off : Nat) (bytes : List Byte) : Except Abort Payload :=
  if off + bytes.length ≤ Config.cbCap then
    .ok { p with compressedBytes := Memory.writeBytes p.compressedBytes off bytes }
  else .error (.outside .compressedOutOfRange)

/-- `satinc(c) = min(c + 1, 2^64 - 1)` (R26, R161). -/
def satinc (c : Counter) : Counter := if c = BitVec.allOnes 64 then c else c + 1

/-- The number of a fault code in `E.FAULT_CODE` (R270). -/
def FaultCode.number : FaultCode → BitVec 3
  | .illegalCommand => 1
  | .badRequest => 2
  | .badSize => 3
  | .capacity => 4

/-- `raise Fault(code)` (R271): the command's writes are discarded (the state given is the one before the command),
the two fault fields are written, and no RESULT is produced. There is no handler, vector or saved state (R282). -/
def raiseFault (code : FaultCode) (s : State) : State :=
  { s with
    engine := { s.engine with fault := true, faultCode := code.number }
    result := none }

/-- A refused command (R272): nothing is read, nothing is written, no RESULT. -/
def refuse (s : State) : State := { s with result := none }

/-- Reset between commands (R290): every field of `E` at its reset value, no RESULT; the configuration and the
request record are not touched (R292). It is the only return from a fault (R282). -/
def resetEngine (s : State) : State := { s with engine := Engine.reset, result := none }

end Sys2Proof.Machine
end

