-- ==== Sys2Proof/Machine/Operands.lean ====
section
/-! DEFINITION. The operands of a command and the views the rules take of them: the well-formed check of the request
record (R23), the nibbles of a value and of a word (R9), the bits and cells of a byte (R56, R224), and the stream of a
payload (R222). -/

namespace Sys2Proof.Machine

/-- `nib(v, j) = v[4j+3:4j]` (R9). -/
def nib (v j : Nat) : Nibble := BitVec.ofNat 4 (v >>> (4 * j))

/-- `popcount(v)` of an 8-bit group value (R9). -/
def popcount (v : BitVec 8) : Nat := (List.range 8).countP fun j => v.getLsbD j

/-- `abs(x - b)` of two unsigned words, over the integers (R113). -/
def distance (x b : Nat) : Nat := ((x : Int) - (b : Int)).natAbs

/-- The bits of a byte, most significant first (R56). -/
def byteBits (b : Byte) : List Bool :=
  [b.getLsbD 7, b.getLsbD 6, b.getLsbD 5, b.getLsbD 4, b.getLsbD 3, b.getLsbD 2, b.getLsbD 1, b.getLsbD 0]

/-- The byte whose eight bits, most significant first, start at index `i` of a bit stream; bits past the end are 0
(R56, R233). -/
def byteOfBits (bits : List Bool) (i : Nat) : Byte :=
  (List.range 8).foldl (fun acc k => (acc <<< 1) ||| (BitVec.ofBool (bits.getD (i + k) false)).zeroExtend 8) 0#8

/-- `len(P.rawBytes) = BLOCK`, `P.compressedLength <= CB_CAP`, and `P.isHalfTerminated = 1` implies
`P.isCompressed = 1 and P.compressedLength >= 1` (R23). -/
def Payload.wellFormed (p : Payload) : Bool :=
  decide (p.rawLen = Config.block) && decide (p.compressedLength.toNat ≤ Config.cbCap) &&
  (!p.isHalfTerminated || (p.isCompressed && decide (1 ≤ p.compressedLength.toNat)))

/-- `wellFormed(request)`: both payloads (R23). -/
def Request.wellFormed (r : Request) : Bool := r.new.wellFormed && r.old.wellFormed

/-- `stream(P)`: the valid compressed bytes if `P.isCompressed = 1`, else the 64 raw bytes (R222). -/
def stream (p : Payload) : Except Abort (List Byte) :=
  if p.isCompressed then memReadCompressed p 0 p.compressedLength.toNat
  else memReadRaw p 0 Config.block

end Sys2Proof.Machine
end

