-- ==== Sys2Proof/Machine/Command.lean ====
section
/-! DEFINITION. What every command shares: the order of its checks (R276) and the discarding of a faulting command's
writes (R271). -/

namespace Sys2Proof.Machine

/-- How a command's operation ends: its writes take effect, or it raises a fault and they are discarded (R271), or it
makes an access no rule defines. -/
def settle (s : State) : Except Abort State → Host.Outcome State Fault Refusal
  | .ok t => .next t
  | .error (.raise code) => .next (raiseFault code s)
  | .error (.outside f) => .fault f

/-- A command (R276): refused while `E.FAULT = 1` (R272), `BadRequest` on an ill-formed record (R273), then its
operation. -/
def command (operation : State → Except Abort State) (s : State) : Host.Outcome State Fault Refusal :=
  if s.engine.fault then .next (refuse s)
  else if s.request.wellFormed then settle s (operation s)
  else .next (raiseFault .badRequest s)

end Sys2Proof.Machine
end

