-- ==== Sys2Proof/Machine/Flags.lean ====
section
/-! DEFINITION. The two flags of a payload's compressed view and who writes them (R38, R98, R99). There are no
arithmetic condition codes (R38). -/

namespace Sys2Proof.Machine

/-- The flags after wordsToBytes has emitted `total` nibbles: always compressed, half-terminated iff `total` is odd
(R98). -/
def Payload.markCompressed (p : Payload) (total : Nat) : Payload :=
  { p with isCompressed := true, isHalfTerminated := decide (total % 2 = 1) }

/-- `reject(P)`: both flags cleared, bytes and length left as they were (R99). -/
def reject (p : Payload) : Payload := { p with isCompressed := false, isHalfTerminated := false }

end Sys2Proof.Machine
end

