-- ==== Sys2Proof/Machine/Packer.lean ====
section
/-! DEFINITION. The word packer (40_word_packer.md): bytesToWords and wordsToBytes. -/

namespace Sys2Proof.Machine

/-- The unsigned value of bytes in little-endian order: the byte at the lowest offset is the least significant
(R53). -/
def littleEndian : List Byte → Nat
  | [] => 0
  | b :: bs => b.toNat + 256 * littleEndian bs

/-- The words of a byte sequence in groups of `step` bytes, `count` of them (R90). -/
def groupWords (step : Nat) : Nat → List Byte → List Nat
  | 0, _ => []
  | count + 1, bs => littleEndian (bs.take step) :: groupWords step count (bs.drop step)

/-- `bytesToWords(P, size, step)` (R90): little-endian words of `rawBytes[0 .. size)`, or `BadSize`. -/
def bytesToWords (p : Payload) (size step : Nat) : Except Abort (List Nat) :=
  if ¬(step = 2 ∨ step = 4 ∨ step = 8) ∨ Config.block < size ∨ size % step ≠ 0 then .error (.raise .badSize)
  else do
    let bytes ← memReadRaw p 0 size
    return groupWords step (size / step) bytes

/-- The nibbles a symbol contributes: its low `nibbles` nibbles, most significant first (R94). -/
def symbolNibbles (y : Symbol) : List Nibble := (List.range y.nibbles).reverse.map fun j => nib y.value j

/-- `nibbleStream`: the nibbles of the symbols in order (R94). -/
def nibbleStream (symbols : List Symbol) : List Nibble := symbols.flatMap symbolNibbles

/-- Two nibbles to a byte, the earlier in bits 7:4; the low nibble of an odd last byte is 0 (R95). -/
def packNibbles : List Nibble → List Byte
  | [] => []
  | [hi] => [hi ++ 0#4]
  | hi :: lo :: rest => (hi ++ lo) :: packNibbles rest

/-- `wordsToBytes(P, wordCount, byteBudget, symbols, nibbleCounts)` (R93 to R98), with `wordCount` the number of
symbols (log 16): `Capacity`, or the packed nibble stream from offset 0, the length as the two steps of R93 leave it,
and the flags. -/
def wordsToBytes (p : Payload) (byteBudget : Nat) (symbols : List Symbol) : Except Abort Payload :=
  if Config.symMax < symbols.length then .error (.raise .capacity)
  else if symbols.any fun y => decide (8 < y.nibbles) || decide (2 ^ 32 ≤ y.value) then .error (.raise .capacity)
  else
    let nibbles := nibbleStream symbols
    let emitted := (nibbles.length + 1) / 2
    if Config.block < emitted then .error (.raise .capacity)
    else do
      let written ← memWriteCompressed p 0 (packNibbles nibbles)
      let budgeted := { written with compressedLength := BitVec.ofNat 7 byteBudget }
      let corrected :=
        if emitted ≠ byteBudget then { budgeted with compressedLength := BitVec.ofNat 7 emitted } else budgeted
      return corrected.markCompressed nibbles.length

end Sys2Proof.Machine
end

