-- ==== Sys2Proof/Machine/Classifiers.lean ====
section
/-! DEFINITION. The pattern classifiers (41_classifiers.md): the two predicates, the multi-base delta search and the
same-value case. -/

namespace Sys2Proof.Machine

/-- A codec's plan: a size in bytes and, if accepted, the symbols (R112, R133). -/
structure Plan where
  size : Nat
  symbols : Option (List Symbol)
  deriving DecidableEq, Repr

/-- A rejected plan reports the raw size and has no symbols (R115, R133). -/
def Plan.rejected (rawSize : Nat) : Plan := { size := rawSize, symbols := none }

/-- `allZero(words)` (R110). -/
def allZero (words : List Nat) : Bool := words.all fun w => w == 0

/-- `allEqual(words)`: every word equals `words[0]`; true on the empty sequence (R111). -/
def allEqual : List Nat → Bool
  | [] => true
  | w :: ws => ws.all fun x => x == w

/-- `literal(v, w)`: a `w`-byte value as symbols, an 8-byte value as its high then its low half (R116). -/
def literal (v w : Nat) : List Symbol :=
  if w = 8 then [⟨(v >>> 32) % 2 ^ 32, 8⟩, ⟨v % 2 ^ 32, 8⟩] else [⟨v, 2 * w⟩]

/-- The scan of R112 and R114 over words, given base 0 and base 1 if one has been chosen: the base each word is
assigned to, and base 1 at the end; none if some word is a misfit. -/
def assignBases (range base0 : Nat) : Option Nat → List Nat → Option (List Nat × Option Nat)
  | base1, [] => some ([], base1)
  | base1, x :: xs =>
    if distance x base0 ≤ range then (assignBases range base0 base1 xs).map fun r => (base0 :: r.1, r.2)
    else match base1 with
      | none => (assignBases range base0 (some x) xs).map fun r => (x :: r.1, r.2)
      | some b =>
        if distance x b ≤ range then (assignBases range base0 (some b) xs).map fun r => (b :: r.1, r.2)
        else none

/-- The delta symbol of a word against its base: the signed difference modulo `2^(8d)`, `2d` nibbles (R117). -/
def deltaSymbol (d x base : Nat) : Symbol :=
  ⟨(((x : Int) - (base : Int)) % (2 ^ (8 * d) : Int)).toNat, 2 * d⟩

/-- `multiBaseCompress(words, d, w)` (R112 to R117). No rule covers the empty sequence, which has no `words[0]`:
DESIGN CHOICE rejected (log 20). -/
def multiBaseCompress (k : Params) (words : List Nat) (d w : Nat) : Plan :=
  let rawSize := words.length * w
  match words with
  | [] => Plan.rejected rawSize
  | base0 :: _ =>
    match assignBases (k.deltaRange d) base0 none words with
    | none => Plan.rejected rawSize
    | some (assigned, base1) =>
      let size := d * words.length + w * (1 + base1.toList.length)
      if rawSize ≤ size then Plan.rejected rawSize
      else
        { size := size
          symbols := some (literal base0 w ++ base1.toList.flatMap (fun b => literal b w) ++
            List.zipWith (deltaSymbol d) words assigned) }

/-- `sameValue(words, w)` (R118). No rule covers the empty sequence: DESIGN CHOICE rejected (log 20). -/
def sameValue (words : List Nat) (w : Nat) : Plan :=
  match words with
  | [] => Plan.rejected 0
  | v :: _ => if allEqual words then { size := w, symbols := some (literal v w) } else Plan.rejected (words.length * w)

end Sys2Proof.Machine
end

