-- ==== Sys2Proof/Machine/Params.lean ====
section
/-! DEFINITION. The named parameters (R8): the default of each, and the functions a configuration stands for, which its
commands run with (log 13). -/

namespace Sys2Proof.Machine

/-- `deltaRange(d) = 2^(8d-1) - 1` (R113). -/
def deltaRangeDefault (d : Nat) : Nat := 2 ^ (8 * d - 1) - 1

/-- `fpcCost(r)` in nibbles (R131). -/
def fpcCost : FpcRung → Nat
  | .zero => 1
  | .smallByte => 3
  | .smallHalf => 5
  | .lowHalfZero => 5
  | .smallHalves => 5
  | .equalBytes => 3
  | .raw => 8

/-- `fpcSymbol(u, r)`, the table of R132: a prefix nibble `rung - 1` and the kept data, or the whole word. -/
def fpcSymbolDefault (u : Word32) (r : FpcRung) : Symbol :=
  match r with
  | .zero => ⟨0x0, 1⟩
  | .smallByte => ⟨0x100 + (u.extractLsb' 0 8).toNat, 3⟩
  | .smallHalf => ⟨0x20000 + (u.extractLsb' 0 16).toNat, 5⟩
  | .lowHalfZero => ⟨0x30000 + (u.extractLsb' 16 16).toNat, 5⟩
  | .smallHalves => ⟨0x40000 + (u.extractLsb' 16 8).toNat * 0x100 + (u.extractLsb' 0 8).toNat, 5⟩
  | .equalBytes => ⟨0x500 + (u.extractLsb' 0 8).toNat, 3⟩
  | .raw => ⟨u.toNat, 8⟩

/-- `savingsFPC(s, hits)`: 7, 5 and 3 nibbles per hit (R165). -/
def savingsFPCDefault (s : Fin 3) (hits : Nat) : Nat := hits * (#v[7, 5, 3])[s]

/-- The nominal size in bytes of each BDI slot's method (R166). -/
def bdiNominal : Vector Nat 8 := #v[16, 24, 40, 20, 36, 64, 34, 8]

/-- `savingsBDI(m, hits) = hits * 2 * (64 - nominal_m)` (R166). -/
def savingsBDIDefault (m : Fin 8) (hits : Nat) : Nat := hits * 2 * (64 - bdiNominal[m])

/-- The least sample count over the unmarked nibbles of word `g`, the `m` of R171. Every nibble marked is no candidate
(R170), so the list is not empty where a rule asks: DESIGN CHOICE 0 there (log 20). -/
def leastUnmarked (samples : Vector Counter 128) (g : Nat) (v : BitVec 8) : Nat :=
  (((List.range 8).filter fun j => !v.getLsbD j).map fun j => (samples.toList.getD (8 * g + j) 0).toNat).min?.getD 0

/-- `savingsSample(S, g, v, P) = (7 - c) * m * (16 div P)` (R171). -/
def savingsSampleDefault (samples : Vector Counter 128) (g : Nat) (v : BitVec 8) (period : Nat) : Nat :=
  (7 - popcount v) * leastUnmarked samples g v * (16 / period)

/-- Another `fpcSymbol`: its nibble count is the rung's cost, whatever its contents (R132, U2). Its value lies within its
nibbles, the only part of a value that is emitted (R94; log 13). -/
def otherFpcSymbol (n : Nat) (u : Word32) (r : FpcRung) : Symbol :=
  ⟨Config.otherFpcValue n u r % 16 ^ fpcCost r, fpcCost r⟩

/-- The parameters at their decided defaults (R8). -/
def defaultParams : Params where
  deltaRange := deltaRangeDefault
  fpcSymbol := fpcSymbolDefault
  savingsFPC := savingsFPCDefault
  savingsBDI := savingsBDIDefault
  savingsSample := savingsSampleDefault

end Sys2Proof.Machine

namespace Sys2Proof

/-- The function a choice names: the default, or an implementation's own. -/
def ParamChoice.pick {α : Type} (default : α) (own : Nat → α) : ParamChoice → α
  | .decided => default
  | .other n => own n

/-- The functions a configuration runs its commands with (R8). -/
def Knobs.params (cfg : Knobs) : Params where
  deltaRange := cfg.deltaRange.pick Machine.deltaRangeDefault Config.otherDeltaRange
  fpcSymbol := cfg.fpcSymbol.pick Machine.fpcSymbolDefault Machine.otherFpcSymbol
  savingsFPC := cfg.savingsFPC.pick Machine.savingsFPCDefault Config.otherSavingsFPC
  savingsBDI := cfg.savingsBDI.pick Machine.savingsBDIDefault Config.otherSavingsBDI
  savingsSample := cfg.savingsSample.pick Machine.savingsSampleDefault Config.otherSavingsSample

end Sys2Proof
end

