-- ==== Sys2Proof/Machine/StaticCodecs.lean ====
section
/-! DEFINITION. The static codecs (42_static_codecs.md): frequent-pattern compression and base-delta-immediate, each
as a plan and one apply step. -/

namespace Sys2Proof.Machine

/-- `abs(signed_32(u))` (R9, R130). -/
def magnitude32 (u : Word32) : Nat := u.toInt.natAbs

/-- `abs(signed_16(h))` (R9, R130). -/
def magnitude16 (h : BitVec 16) : Nat := h.toInt.natAbs

/-- `u[31:24] = u[23:16] = u[15:8] = u[7:0]` (R131, rung 6). -/
def bytesAgree (u : Word32) : Bool :=
  u.extractLsb' 24 8 == u.extractLsb' 16 8 && u.extractLsb' 16 8 == u.extractLsb' 8 8 &&
  u.extractLsb' 8 8 == u.extractLsb' 0 8

/-- `fpcRung(u)`: the first row of the ladder whose predicate holds (R131). -/
def fpcRung (u : Word32) : FpcRung :=
  if u = 0 then .zero
  else if magnitude32 u ≤ 0xFF then .smallByte
  else if magnitude32 u ≤ 0xFFFF then .smallHalf
  else if u.extractLsb' 0 16 = 0 then .lowHalfZero
  else if magnitude16 (u.extractLsb' 16 16) ≤ 0xFF ∧ magnitude16 (u.extractLsb' 0 16) ≤ 0xFF then .smallHalves
  else if bytesAgree u then .equalBytes
  else .raw

/-- The size and acceptance of a list of FPC symbols: half the nibbles, rounded up; accepted iff below 64 bytes
(R133, R204). -/
def planOfSymbols (symbols : List Symbol) : Plan :=
  let size := ((symbols.map Symbol.nibbles).sum + 1) / 2
  if size < Config.block then { size := size, symbols := some symbols } else Plan.rejected Config.block

/-- The symbol of one word by the fixed ladder (R131, R132). -/
def ladderSymbol (k : Params) (u : Word32) : Symbol := k.fpcSymbol u (fpcRung u)

/-- The block as sixteen 4-byte words (R133). -/
def blockWords32 (p : Payload) : Except Abort (List Word32) := do
  let words ← bytesToWords p Config.block 4
  return words.map (BitVec.ofNat 32)

/-- `staticFPCplan(P)` (R133). -/
def staticFPCplan (k : Params) (p : Payload) : Except Abort Plan := do
  let words ← blockWords32 p
  return planOfSymbols (words.map (ladderSymbol k))

/-- `apply(P, plan)`: reject, or wordsToBytes; whether the plan was accepted (R134, R139, R140, R207). -/
def applyPlan (p : Payload) (plan : Plan) : Except Abort (Payload × Bool) :=
  match plan.symbols with
  | none => .ok (reject p, false)
  | some symbols => do
    let packed ← wordsToBytes p plan.size symbols
    return (packed, true)

/-- `staticFPC(P)` (R134). -/
def staticFPC (k : Params) (p : Payload) : Except Abort (Payload × Bool) := do
  let plan ← staticFPCplan k p
  applyPlan p plan

/-- The kind of a BDI attempt (R136). -/
inductive BdiKind where
  | multiBase (d : Nat)
  | sameValue
  deriving DecidableEq, Repr

/-- A BDI method: its tag, kind, word width and hit-counter slot (R136). -/
structure BdiMethod where
  tag : Nat
  kind : BdiKind
  width : Nat
  slot : Fin 8
  deriving DecidableEq, Repr

/-- The ten methods in try order (R136). -/
def bdiMethods : List BdiMethod :=
  [⟨0, .multiBase 1, 8, 0⟩, ⟨1, .multiBase 2, 8, 1⟩, ⟨2, .multiBase 4, 8, 2⟩, ⟨3, .sameValue, 8, 7⟩,
   ⟨4, .multiBase 1, 4, 3⟩, ⟨5, .multiBase 2, 4, 4⟩, ⟨6, .multiBase 4, 4, 5⟩, ⟨7, .sameValue, 4, 7⟩,
   ⟨8, .multiBase 1, 2, 6⟩, ⟨9, .sameValue, 2, 7⟩]

/-- One attempt of a method on the words of its width (R137). -/
def BdiMethod.attempt (k : Params) (m : BdiMethod) (words : List Nat) : Plan :=
  match m.kind with
  | .multiBase d => multiBaseCompress k words d m.width
  | .sameValue => Sys2Proof.Machine.sameValue words m.width

/-- The best attempt so far: its size, and its method and symbols if any was below 64 (R137). -/
structure Selection where
  best : Nat
  winner : Option (BdiMethod × List Symbol)
  deriving DecidableEq, Repr

/-- No attempt yet: `best <- 64; tag <- none` (R137). -/
def Selection.start : Selection := { best := Config.block, winner := none }

/-- A later attempt replaces the best only when strictly smaller (R119, R137). -/
def Selection.offer (sel : Selection) (m : BdiMethod) (plan : Plan) : Selection :=
  match plan.symbols with
  | some symbols => if plan.size < sel.best then { best := plan.size, winner := some (m, symbols) } else sel
  | none => sel

/-- One turn of the loop of R137: a disabled method is skipped. -/
def bdiTry (k : Params) (p : Payload) (enabled : Vector Bool 8) (sel : Selection) (m : BdiMethod) :
    Except Abort Selection :=
  if enabled[m.slot] then do
    let words ← bytesToWords p Config.block m.width
    return sel.offer m (m.attempt k words)
  else .ok sel

/-- `bdiSelect(P, enabled)` (R137). -/
def bdiSelect (k : Params) (p : Payload) (enabled : Vector Bool 8) : Except Abort Selection :=
  bdiMethods.foldlM (bdiTry k p enabled) Selection.start

/-- The plan of a selection: the 1-nibble tag before the method's symbols, the tag not counted in the size (R138). -/
def Selection.plan (sel : Selection) : Plan :=
  match sel.winner with
  | none => Plan.rejected Config.block
  | some (m, symbols) => { size := sel.best, symbols := some (⟨m.tag, 1⟩ :: symbols) }

/-- `bdiPlan(P, enabled)` (R138). -/
def bdiPlan (k : Params) (p : Payload) (enabled : Vector Bool 8) : Except Abort Plan := do
  let sel ← bdiSelect k p enabled
  return sel.plan

/-- Every slot enabled: the static codec (R137). -/
def allSlots : Vector Bool 8 := Vector.replicate 8 true

/-- `staticBDI(P)` (R139). -/
def staticBDI (k : Params) (p : Payload) : Except Abort (Payload × Bool) := do
  let plan ← bdiPlan k p allSlots
  applyPlan p plan

/-- The smaller of an FPC and a BDI plan, FPC on a tie (R140, R206). -/
def smallerPlan (f b : Plan) : Plan := if f.size ≤ b.size then f else b

/-- `staticBest(P)` (R140). -/
def staticBest (k : Params) (p : Payload) : Except Abort (Payload × Bool) := do
  let f ← staticFPCplan k p
  let b ← bdiPlan k p allSlots
  applyPlan p (smallerPlan f b)

end Sys2Proof.Machine
end

