-- ==== Sys2Proof/Machine/Learner.lean ====
section
/-! DEFINITION. The pattern learner (43_pattern_learner.md): the three collectors and the one-time extraction. -/

namespace Sys2Proof.Machine

/-- `fpcSlot(r)`: the cost class of a rung, none for rung 7 (R160). -/
def fpcSlot : FpcRung → Option (Fin 3)
  | .zero => some 0
  | .smallByte => some 1
  | .equalBytes => some 1
  | .smallHalf => some 2
  | .lowHalfZero => some 2
  | .smallHalves => some 2
  | .raw => none

/-- One word counted by identifyFPC (R161). -/
def countFpcWord (hits : Vector Counter 3) (u : Word32) : Vector Counter 3 :=
  match fpcSlot (fpcRung u) with
  | some s => hits.set s (satinc hits[s])
  | none => hits

/-- `identifyFPC(E, P)` (R161). -/
def identifyFPC (e : Engine) (p : Payload) : Except Abort Engine := do
  let words ← blockWords32 p
  return { e with fpcHits := words.foldl countFpcWord e.fpcHits }

/-- `identifyBDI(E, P)`: counts the winner of the static selection (R162). -/
def identifyBDI (k : Params) (e : Engine) (p : Payload) : Except Abort Engine := do
  let sel ← bdiSelect k p allSlots
  match sel.winner with
  | some (m, _) => return { e with bdiHits := e.bdiHits.set m.slot (satinc e.bdiHits[m.slot]) }
  | none => return e

/-- `sample(E, P)`: nibble `j` of word `i` counts at position `8i + j` when it is zero (R163). -/
def sample (e : Engine) (p : Payload) : Except Abort Engine := do
  let words ← bytesToWords p Config.block 4
  return { e with
    samples := Vector.ofFn fun i : Fin 128 =>
      if nib (words.getD (i.val / 8) 0) (i.val % 8) = 0 then satinc e.samples[i] else e.samples[i] }

/-- What a ranked candidate stands for (R164). -/
inductive CandidateKind where
  /-- FPC slot `s` -/
  | fpc (s : Fin 3)
  /-- BDI slot `m` -/
  | bdi (m : Fin 8)
  /-- the group value `v` of a sample-derived pattern -/
  | sample (v : BitVec 8)
  deriving DecidableEq, Repr

/-- A candidate with its estimated savings in nibbles (R164). DESIGN CHOICE: a natural number (log 21). -/
structure Candidate where
  savings : Nat
  kind : CandidateKind
  deriving DecidableEq, Repr

/-- Step 1: the structural candidates, FPC slots 0 to 2 then BDI slots 0 to 7 (R165, R166, R173). -/
def structuralCandidates (k : Params) (e : Engine) : List Candidate :=
  (List.finRange 3).map (fun s => ⟨k.savingsFPC s e.fpcHits[s].toNat, .fpc s⟩) ++
  (List.finRange 8).map (fun m => ⟨k.savingsBDI m e.bdiHits[m].toNat, .bdi m⟩)

/-- The 128 sample counters as numbers. -/
def sampleCounts (e : Engine) : List Nat := e.samples.toList.map BitVec.toNat

/-- The least and the greatest of the sample counters (R167). -/
def sampleBounds (e : Engine) : Nat × Nat :=
  ((sampleCounts e).min?.getD 0, (sampleCounts e).max?.getD 0)

/-- Step 2: position `p` is marked iff `THR_DEN * (E.S[p] - lo) < THR_NUM * (hi - lo)` (R167). -/
def marked (cfg : Knobs) (e : Engine) (p : Nat) : Bool :=
  decide (cfg.thrDen * ((sampleCounts e).getD p 0 - (sampleBounds e).1) <
    cfg.thrNum * ((sampleBounds e).2 - (sampleBounds e).1))

/-- Step 3: the eight flags of word `g` as a group value, nibble `j` at bit `j` (R168). -/
def groupValue (cfg : Knobs) (e : Engine) (g : Nat) : BitVec 8 :=
  BitVec.ofNat 8 ((List.range 8).map fun j => if marked cfg e (8 * g + j) then 2 ^ j else 0).sum

/-- The sixteen group values (R168). -/
def groupValues (cfg : Knobs) (e : Engine) : List (BitVec 8) := (List.range 16).map (groupValue cfg e)

/-- The first `h` groups equal the next `h`, position by position (R169). -/
def halvesAgree (groups : List (BitVec 8)) (h : Nat) : Bool :=
  (List.range h).all fun i => groups.getD i 0 == groups.getD (i + h) 0

/-- The halving loop of R169 over the half-lengths still to be tried: `2h` at the first that fails, else 1. -/
def halvingLoop (groups : List (BitVec 8)) : List Nat → Nat
  | [] => 1
  | h :: hs => if halvesAgree groups h then halvingLoop groups hs else 2 * h

/-- `pattern_num` (R169). -/
def patternNum (groups : List (BitVec 8)) : Nat := halvingLoop groups [8, 4, 2, 1]

/-- A group value that never becomes a candidate: 0x00, 0xFF, or one of `EXCLUDED` (R170). -/
def neverCandidate (v : BitVec 8) : Bool := v == 0x00 || v == 0xFF || Config.excluded.contains v

/-- Step 4: the sample candidates of the groups still to be looked at, given the values already recorded (R170,
R171). -/
def sampleCandidates (k : Params) (e : Engine) (groups : List (BitVec 8)) (period : Nat) :
    List (BitVec 8) → List Nat → List Candidate
  | _, [] => []
  | seen, g :: gs =>
    let v := groups.getD g 0
    if neverCandidate v || seen.contains v then sampleCandidates k e groups period seen gs
    else ⟨k.savingsSample e.samples g v period, .sample v⟩ ::
      sampleCandidates k e groups period (seen ++ [v]) gs

/-- All candidates in insertion order (R164, R173). -/
def candidates (cfg : Knobs) (e : Engine) : List Candidate :=
  let groups := groupValues cfg e
  structuralCandidates cfg.params e ++
    sampleCandidates cfg.params e groups (patternNum groups) [] (List.range (patternNum groups))

/-- Place a later candidate into a ranking: after every candidate of at least its savings (R173). -/
def insertRanked (c : Candidate) : List Candidate → List Candidate
  | [] => [c]
  | d :: ds => if d.savings < c.savings then c :: d :: ds else d :: insertRanked c ds

/-- Savings descending, insertion order among equals (R173). -/
def rank (cs : List Candidate) : List Candidate := cs.foldl (fun acc c => insertRanked c acc) []

/-- Step 5: the kept four, in rank order (R173). -/
def keptFour (cfg : Knobs) (e : Engine) : List Candidate :=
  (rank (candidates cfg e)).take Config.ptMax

/-- `dcMask(v)`: nibble `j` is 0xF where bit `j` of `v` is 1 (R172). -/
def dcMask (v : BitVec 8) : Word32 :=
  BitVec.ofNat 32 ((List.range 8).map fun j => if v.getLsbD j then 0xF * 2 ^ (4 * j) else 0).sum

/-- The table entry of a kept candidate, if it is sample-derived (R174). -/
def Candidate.entry (c : Candidate) : Option PatternEntry :=
  match c.kind with
  | .sample v => some ⟨dcMask v, popcount v⟩
  | _ => none

/-- `extractPattern(E)` (R164): the table and the enable flags from the kept four (R174), the hit counters cleared
and the window closed (R175). -/
def extractPattern (cfg : Knobs) (e : Engine) : Engine :=
  let kept := keptFour cfg e
  { e with
    table := kept.filterMap Candidate.entry
    fpcEnable := Vector.ofFn fun s : Fin 3 => (kept.map Candidate.kind).contains (.fpc s)
    bdiEnable := Vector.ofFn fun m : Fin 8 => (kept.map Candidate.kind).contains (.bdi m)
    fpcHits := Vector.replicate 3 0
    bdiHits := Vector.replicate 8 0
    extracted := true }

end Sys2Proof.Machine
end

