-- ==== Sys2Proof/Machine/DynamicCodecs.lean ====
section
/-! DEFINITION. The dynamic codecs (44_dynamic_codecs.md): the variants that use the learned Pattern Table and the
learned enable flags. -/

namespace Sys2Proof.Machine

/-- Entry `t` matches word `u`: every nibble at a position not marked in the mask is zero (R201). -/
def PatternEntry.takes (t : PatternEntry) (u : Word32) : Bool := u &&& ~~~t.dcMask == 0

/-- The first entry that takes the word, with its index, counting from `i` (R201). -/
def firstMatch (u : Word32) : Nat → List PatternEntry → Option (Nat × PatternEntry)
  | _, [] => none
  | i, t :: ts => if t.takes u then some (i, t) else firstMatch u (i + 1) ts

/-- `compact(u, D)`: the marked nibbles of `u`, from nibble 7 down to nibble 0 (R202). -/
def compact (u mask : Word32) : Nat :=
  [7, 6, 5, 4, 3, 2, 1, 0].foldl
    (fun acc j => if nib mask.toNat j = 0xF then acc * 16 + (nib u.toNat j).toNat else acc) 0

/-- The symbol of a word matched by entry `i` (R202). -/
def tableSymbol (i : Nat) (t : PatternEntry) (u : Word32) : Symbol :=
  ⟨((8 + i) <<< (4 * t.count)) ||| compact u t.dcMask, 1 + t.count⟩

/-- The symbol of one word: the first matching entry if the word is not zero, else the fixed ladder, ungated (R201,
R203). -/
def dynamicSymbol (k : Params) (table : List PatternEntry) (u : Word32) : Symbol :=
  if u = 0 then ladderSymbol k u
  else match firstMatch u 0 table with
    | some (i, t) => tableSymbol i t u
    | none => ladderSymbol k u

/-- The plan of an all-zero block: the single nibble 0 (R200, R205). -/
def zeroBlockPlan : Plan := { size := 1, symbols := some [⟨0, 1⟩] }

/-- `dynFPCplan(E, P)` (R204). -/
def dynFPCplan (k : Params) (e : Engine) (p : Payload) : Except Abort Plan := do
  let words ← blockWords32 p
  if allZero (words.map BitVec.toNat) then return zeroBlockPlan
  else return planOfSymbols (words.map (dynamicSymbol k e.table))

/-- `dynBDIplan(E, P)` (R205). -/
def dynBDIplan (k : Params) (e : Engine) (p : Payload) : Except Abort Plan := do
  let words ← bytesToWords p Config.block 8
  if allZero words then return zeroBlockPlan
  else bdiPlan k p e.bdiEnable

/-- `dynamicCompress(E, P)` (R206). -/
def dynamicCompress (k : Params) (e : Engine) (p : Payload) : Except Abort (Payload × Bool) := do
  let f ← dynFPCplan k e p
  let b ← dynBDIplan k e p
  applyPlan p (smallerPlan f b)

end Sys2Proof.Machine
end

