-- ==== Sys2Proof/Machine/Compress.lean ====
section
/-! DEFINITION. COMPRESS and the DFPC dispatcher (46_compress_command.md). -/

namespace Sys2Proof.Machine

/-- A codec on both payloads, the old one first; RESULT is the new payload's (R251, R254). -/
def compressBoth (codec : Payload → Except Abort (Payload × Bool)) (s : State) : Except Abort State := do
  let (oldPayload, _) ← codec s.request.old
  let (newPayload, shrunk) ← codec s.request.new
  return { s with
    request := { new := newPayload, old := oldPayload }
    result := some (.compress shrunk) }

/-- COMPRESS.NONE, command word 0x00 (R250). -/
def execCompressNone (s : State) : Host.Outcome State Fault Refusal :=
  command (fun s => .ok { s with result := some (.compress false) }) s

/-- COMPRESS.FPC, command word 0x01 (R251). -/
def execCompressFpc (s : State) : Host.Outcome State Fault Refusal :=
  command (fun s => compressBoth (staticFPC s.cfg.params) s) s

/-- COMPRESS.BDI, command word 0x02 (R252). -/
def execCompressBdi (s : State) : Host.Outcome State Fault Refusal :=
  command (fun s => compressBoth (staticBDI s.cfg.params) s) s

/-- The mode decision: training iff `E.extracted = 0 and wc < CFG.HORIZON` (R253). -/
def inTraining (s : State) : Bool := !s.engine.extracted && decide (s.wc < s.cfg.horizon)

/-- The training path: the collectors on the new payload, then the smaller static encoding of each payload (R254). -/
def dfpcTraining (s : State) : Except Abort State := do
  let e1 ← identifyFPC s.engine s.request.new
  let e2 ← identifyBDI s.cfg.params e1 s.request.new
  let e3 ← sample e2 s.request.new
  compressBoth (staticBest s.cfg.params) { s with engine := e3 }

/-- The engine with its table extracted, once (R254). -/
def extractOnce (cfg : Knobs) (e : Engine) : Engine :=
  if e.extracted then e else extractPattern cfg e

/-- The steady-state path: extraction if it has not run, then the dynamic codecs (R254). -/
def dfpcSteady (s : State) : Except Abort State :=
  let e := extractOnce s.cfg s.engine
  compressBoth (dynamicCompress s.cfg.params e) { s with engine := e }

/-- COMPRESS.DFPC, command word 0x03 (R253, R254). -/
def execCompressDfpc (s : State) : Host.Outcome State Fault Refusal :=
  command (fun s => if inTraining s then dfpcTraining s else dfpcSteady s) s

end Sys2Proof.Machine
end

