-- ==== Sys2Proof/Machine/WriteChange.lean ====
section
/-! DEFINITION. The write-change engine (45_write_change.md): COUNT and ENCODE. -/

namespace Sys2Proof.Machine

/-- `cellLevels`: 1, 2 or 3 bits per cell (R74). -/
inductive CellLevels where
  | one
  | two
  | three
  deriving DecidableEq, Repr

/-- The cells of a byte as bit ranges `[hi:lo]`, from the most significant (R224). -/
def cells : CellLevels → List (Nat × Nat)
  | .one => [(7, 7), (6, 6), (5, 5), (4, 4), (3, 3), (2, 2), (1, 1), (0, 0)]
  | .two => [(7, 6), (5, 4), (3, 2), (1, 0)]
  | .three => [(7, 5), (4, 2), (1, 0)]

/-- The cost of one cell: its width if its bits differ, else 0 (R224, R225). -/
def cellCost (a b : Byte) (cell : Nat × Nat) : Nat :=
  if a.extractLsb cell.1 cell.2 ≠ b.extractLsb cell.1 cell.2 then cell.1 - cell.2 + 1 else 0

/-- The cost of one byte present in both streams (R221, R225). -/
def byteCost (c : CellLevels) (a b : Byte) : Nat := ((cells c).map (cellCost a b)).sum

/-- The cost of the two streams: a byte absent on one side costs 8 (R221, R226). -/
def streamCost (c : CellLevels) : List Byte → List Byte → Nat
  | [], bs => 8 * bs.length
  | as, [] => 8 * as.length
  | a :: as, b :: bs => byteCost c a b + streamCost c as bs

/-- `countChanges(request, cellLevels, countCellChanges)` (R221 to R227). With `cc` = 0 the old payload is not read
(R223). -/
def countChanges (r : Request) (c : CellLevels) (cc : Bool) : Except Abort Nat := do
  let dn ← stream r.new
  if cc then do
    let dold ← stream r.old
    return min (streamCost c dn dold) Config.bitBudget
  else return min (8 * dn.length) Config.bitBudget

/-- The COUNT command (R220): RESULT and nothing else. -/
def count (c : CellLevels) (cc : Bool) : State → Host.Outcome State Fault Refusal :=
  command fun s => do
    let bits ← countChanges s.request c cc
    return { s with result := some (.count (BitVec.ofNat 10 bits)) }

/-- COUNT.RAW.1, command word 0x41 (R220, R223). -/
def execCountRaw1 (s : State) : Host.Outcome State Fault Refusal := count .one false s

/-- COUNT.RAW.2, command word 0x42 (R220, R223). -/
def execCountRaw2 (s : State) : Host.Outcome State Fault Refusal := count .two false s

/-- COUNT.RAW.3, command word 0x43 (R220, R223). -/
def execCountRaw3 (s : State) : Host.Outcome State Fault Refusal := count .three false s

/-- COUNT.CELLS.1, command word 0x45 (R220, R221). -/
def execCountCells1 (s : State) : Host.Outcome State Fault Refusal := count .one true s

/-- COUNT.CELLS.2, command word 0x46 (R220, R221). -/
def execCountCells2 (s : State) : Host.Outcome State Fault Refusal := count .two true s

/-- COUNT.CELLS.3, command word 0x47 (R220, R221). -/
def execCountCells3 (s : State) : Host.Outcome State Fault Refusal := count .three true s

/-- The 3-bit code of a 2-bit cell, first bit first: 00 to 000, 01 to 001, 10 to 110, 11 to 111 (R81, R232). -/
def ternaryCode : Bool → Bool → List Bool
  | false, false => [false, false, false]
  | false, true => [false, false, true]
  | true, false => [true, true, false]
  | true, true => [true, true, true]

/-- The remap of a bit stream, cell by cell (R232). The stream is a whole number of cells (R231). -/
def ternaryBits : List Bool → List Bool
  | a :: b :: rest => ternaryCode a b ++ ternaryBits rest
  | _ => []

/-- `inBits`: the bits of `length` bytes, less the unused low nibble of a half-terminated last byte (R231). -/
def ternaryInBits (p : Payload) : Nat :=
  8 * p.compressedLength.toNat - (if p.isHalfTerminated then 4 else 0)

/-- The bytes of a bit stream, first bit in bit 7, the last byte padded with 0 bits at the bottom (R233). -/
def packBits (bits : List Bool) : List Byte :=
  (List.range ((bits.length + 7) / 8)).map fun j => byteOfBits bits (8 * j)

/-- `ternaryEncode(P)` (R229 to R233): the payload, and whether it was remapped. All input bits are read before any
output byte is written (R233). -/
def ternaryEncode (p : Payload) : Except Abort (Payload × Bool) :=
  if p.isCompressed = false ∨ Config.ternaryMax < p.compressedLength.toNat then .ok (p, false)
  else do
    let bytes ← memReadCompressed p 0 p.compressedLength.toNat
    let input := (bytes.flatMap byteBits).take (ternaryInBits p)
    let output := packBits (ternaryBits input)
    let written ← memWriteCompressed p 0 output
    return ({ written with compressedLength := BitVec.ofNat 7 output.length }, true)

/-- ENCODE's RESULT, `2 * n + o` (R228). -/
def encodeResult (n o : Bool) : BitVec 2 := BitVec.ofBool n ++ BitVec.ofBool o

/-- ENCODE, command word 0x20 (R228): the new payload, then the old. -/
def execEncode (s : State) : Host.Outcome State Fault Refusal :=
  command (fun s => do
    let (newPayload, n) ← ternaryEncode s.request.new
    let (oldPayload, o) ← ternaryEncode s.request.old
    return { s with
      request := { new := newPayload, old := oldPayload }
      result := some (.encode (encodeResult n o)) }) s

end Sys2Proof.Machine
end

