-- ==== Sys2Proof/Machine/Dispatch.lean ====
section
/-! DEFINITION. The meaning of each command, one arm per constructor of `Instr`. -/

namespace Sys2Proof.Machine

def exec (i : Instr) (s : State) : Host.Outcome State Fault Refusal :=
  match i with
  | .compressNone => Sys2Proof.Machine.execCompressNone s
  | .compressFpc => Sys2Proof.Machine.execCompressFpc s
  | .compressBdi => Sys2Proof.Machine.execCompressBdi s
  | .compressDfpc => Sys2Proof.Machine.execCompressDfpc s
  | .encode => Sys2Proof.Machine.execEncode s
  | .countRaw1 => Sys2Proof.Machine.execCountRaw1 s
  | .countRaw2 => Sys2Proof.Machine.execCountRaw2 s
  | .countRaw3 => Sys2Proof.Machine.execCountRaw3 s
  | .countCells1 => Sys2Proof.Machine.execCountCells1 s
  | .countCells2 => Sys2Proof.Machine.execCountCells2 s
  | .countCells3 => Sys2Proof.Machine.execCountCells3 s

end Sys2Proof.Machine
end

