-- ==== Sys2Proof/Machine/Port.lean ====
section
/-! DEFINITION. The host's side of a step: what each host action does, and how a command word is presented (R70,
R276, R290, R301). -/

namespace Sys2Proof.Machine

/-- A presented command word: refused while `E.FAULT = 1`, before decoding (R272), then decoded, an illegal word
raising `IllegalCommand` (R275), a legal one running its command. -/
def runWord (word : CommandWord) (s : State) : Host.Outcome State Fault Refusal :=
  if s.engine.fault then .next (refuse s)
  else match decode word with
    | .ok i => exec i s
    | .error _ => .next (raiseFault .illegalCommand s)

/-- A record put in hand between commands: the one it replaces, and the RESULT handed back with it, are the host's
(R20, R33, R301; log 3). -/
def lendRequest (r : Request) (s : State) : State := { s with request := r, result := none }

/-- One host action on a state from whose list it has been taken. -/
def runAction (a : HostAction) (s : State) : Host.Outcome State Fault Refusal :=
  match a with
  | .command word wc => runWord word { s with wc := wc }
  | .lend r => .next (lendRequest r s)
  | .reset => .next (resetEngine s)

/-- The command action that presents a table word of `nbits` bits with the write counter the state holds. -/
def wordAction (s : State) (nbits w : Nat) : HostAction := .command (BitVec.ofNat 8 (w % 2 ^ nbits)) s.wc

end Sys2Proof.Machine
end

