-- ==== Sys2Proof/Machine/Step.lean ====
section
/-! DEFINITION. One step of the machine: one host action, run to completion (R59), or nothing where the host presents
nothing (log 2). -/

namespace Sys2Proof.Machine

/-- One step: the next host action, taken from the list. With none left the engine does nothing: it has no activity
of its own (R59, R280, R303; log 2). -/
def step (s : State) : Host.Outcome State Fault Refusal :=
  match s.host with
  | [] => .next s
  | a :: rest => runAction a { s with host := rest }

/-- The state with a command word presented next, before any other host action, with the write counter the state
holds. It stands for the host's presenting the word (log 1). -/
def State.withFetchWord (s : State) (nbits w : Nat) : State :=
  { s with host := wordAction s nbits w :: s.host }

end Sys2Proof.Machine
end

