-- ==== Sys2Proof/Safety.lean ====
section
/-! DEFINITION. The words the claims are stated in: when a command runs its operation, what a payload's raw words and
stored nibbles and bits are, what a codec leaves behind, and the invariants of the engine and of the buffers. -/

namespace Sys2Proof.Machine

/-! ### Runs -/

/-- A step goes on: it answers a next state. -/
def Continues (o : Host.Outcome State Fault Refusal) : Prop := ∃ t, o = .next t

/-- A command runs its operation: the engine has no fault (R272) and the record is well formed (R273). -/
def Ready (s : State) : Prop := s.engine.fault = false ∧ s.request.wellFormed = true

/-- The four buffers of the record in hand are in canonical form and within their spaces (R50). -/
def Canonical (s : State) : Prop := s.request.buffersWf = true

/-! ### Reading a payload -/

/-- Raw word `i` at a granularity of `w` bytes, by the sum of R53. -/
def rawWord (p : Payload) (w i : Nat) : Nat :=
  ((List.range w).map fun j => (Memory.read p.rawBytes (i * w + j)).toNat * 256 ^ j).sum

/-- The block at a granularity of `w` bytes. -/
def rawWords (p : Payload) (w : Nat) : List Nat := (List.range (64 / w)).map (rawWord p w)

/-- 4-byte word `i` of the block as its 32 bits. -/
def rawWord32 (p : Payload) (i : Nat) : Word32 := BitVec.ofNat 32 (rawWord p 4 i)

/-- Nibble `j` of the compressed space: the high nibble of byte `j / 2` if `j` is even, else the low one (R55). -/
def storedNibble (p : Payload) (j : Nat) : Nibble :=
  if j % 2 = 0 then (Memory.read p.compressedBytes (j / 2)).extractLsb' 4 4
  else (Memory.read p.compressedBytes (j / 2)).extractLsb' 0 4

/-- Bit `b` of the compressed space, most significant bit of a byte first (R56). -/
def storedBit (p : Payload) (b : Nat) : Bool := (Memory.read p.compressedBytes (b / 8)).getLsbD (7 - b % 8)

/-- Byte `i` of the stream that COUNT sees, none past its end (R222). -/
def streamByte (p : Payload) (i : Nat) : Option Byte :=
  if p.isCompressed then
    if i < p.compressedLength.toNat then some (Memory.read p.compressedBytes i) else none
  else if i < 64 then some (Memory.read p.rawBytes i) else none

/-- The length of the stream that COUNT sees (R222). -/
def streamLength (p : Payload) : Nat := if p.isCompressed then p.compressedLength.toNat else 64

/-! ### What a codec leaves behind, with named parameters `k` (R8) -/

/-- `p'` is `p` with a nibble stream packed into its compressed view (R94, R95, R96, R98, R100). -/
structure Packed (p p' : Payload) (nibbles : List Nibble) : Prop where
  rawLen : p'.rawLen = p.rawLen
  rawBytes : p'.rawBytes = p.rawBytes
  isCompressed : p'.isCompressed = true
  length : p'.compressedLength.toNat = (nibbles.length + 1) / 2
  half : p'.isHalfTerminated = decide (nibbles.length % 2 = 1)
  stored : ∀ j (h : j < nibbles.length), storedNibble p' j = nibbles[j]
  pad : nibbles.length % 2 = 1 → storedNibble p' nibbles.length = 0
  rest : ∀ a, (nibbles.length + 1) / 2 ≤ a → Memory.read p'.compressedBytes a = Memory.read p.compressedBytes a

/-- `p'` is `p` with both flags cleared and nothing else changed (R99). -/
def Rejected (p p' : Payload) : Prop := p' = { p with isCompressed := false, isHalfTerminated := false }

/-- The number of a rung in the ladder (R131). -/
def rungNumber : FpcRung → Nat
  | .zero => 1
  | .smallByte => 2
  | .smallHalf => 3
  | .lowHalfZero => 4
  | .smallHalves => 5
  | .equalBytes => 6
  | .raw => 7

/-- The nibbles of a word that its symbol keeps, in stream order: none; the low byte; the low half; the high half; the
low byte of each half, the high half first; the repeated byte; the whole word (R132). -/
def keptNibbles : FpcRung → List Nat
  | .zero => []
  | .smallByte => [1, 0]
  | .smallHalf => [3, 2, 1, 0]
  | .lowHalfZero => [7, 6, 5, 4]
  | .smallHalves => [5, 4, 1, 0]
  | .equalBytes => [1, 0]
  | .raw => [7, 6, 5, 4, 3, 2, 1, 0]

/-- The static FPC stream of a block: the ladder symbol of each of its sixteen words (R132, R133). -/
def fpcNibbles (k : Params) (p : Payload) : List Nibble :=
  nibbleStream ((List.range 16).map fun i => ladderSymbol k (rawWord32 p i))

/-- Half the sum of the sixteen ladder costs, rounded up (R133). -/
def fpcSize (p : Payload) : Nat := (((List.range 16).map fun i => fpcCost (fpcRung (rawWord32 p i))).sum + 1) / 2

/-- What static FPC makes of a payload (R134). -/
def FpcCoded (k : Params) (p p' : Payload) : Prop :=
  if fpcSize p < 64 then Packed p p' (fpcNibbles k p) else Rejected p p'

/-- A `w`-byte value as symbols, an 8-byte value as its high then its low half (R116). -/
def literalSymbols (v w : Nat) : List Symbol :=
  if w = 8 then [⟨v / 2 ^ 32 % 2 ^ 32, 8⟩, ⟨v % 2 ^ 32, 8⟩] else [⟨v, 2 * w⟩]

/-- The delta of a word against a base, modulo `2^(8d)`, in `2d` nibbles (R117). -/
def deltaOf (d x base : Nat) : Symbol := ⟨(x + (2 ^ (8 * d) - base % 2 ^ (8 * d))) % 2 ^ (8 * d), 2 * d⟩

/-- An attempt that would make a size: accepted below the raw size, else rejected at the raw size (R115). -/
def acceptedBelow (rawSize size : Nat) (symbols : List Symbol) : Plan :=
  if size < rawSize then ⟨size, some symbols⟩ else ⟨rawSize, none⟩

/-- The size a BDI method reports for a block (R137). -/
def bdiSize (k : Params) (p : Payload) (m : BdiMethod) : Nat := (m.attempt k (rawWords p m.width)).size

/-- The best size over the enabled methods, 64 if none is smaller (R137). -/
def bdiBest (k : Params) (p : Payload) (enabled : Vector Bool 8) : Nat :=
  ((bdiMethods.filter fun m => enabled[m.slot]).map (bdiSize k p)).foldl min 64

/-- Method `m` wins the selection: enabled, below 64 bytes, smallest, and the earliest of that size (R119, R137). -/
structure BdiWinner (k : Params) (p : Payload) (enabled : Vector Bool 8) (m : BdiMethod) : Prop where
  listed : m ∈ bdiMethods
  active : enabled[m.slot] = true
  accepted : bdiSize k p m < 64
  smallest : ∀ m' ∈ bdiMethods, enabled[m'.slot] = true → bdiSize k p m ≤ bdiSize k p m'
  earliest : ∀ m' ∈ bdiMethods, enabled[m'.slot] = true → m'.tag < m.tag → bdiSize k p m < bdiSize k p m'

/-- What BDI over the enabled slots makes of a payload: the winner's tag nibble and symbols, or a rejection (R138,
R139). -/
def BdiCoded (k : Params) (enabled : Vector Bool 8) (p p' : Payload) : Prop :=
  (∃ m symbols, BdiWinner k p enabled m ∧ (m.attempt k (rawWords p m.width)).symbols = some symbols ∧
    Packed p p' (BitVec.ofNat 4 m.tag :: nibbleStream symbols)) ∨
  ((∀ m ∈ bdiMethods, enabled[m.slot] = true → 64 ≤ bdiSize k p m) ∧ Rejected p p')

/-- What the static step of DFPC training makes of a payload: the smaller static plan, FPC on a tie (R140). -/
def BestCoded (k : Params) (p p' : Payload) : Prop :=
  if fpcSize p ≤ bdiBest k p allSlots then FpcCoded k p p' else BdiCoded k allSlots p p'

/-- The symbols dynamic FPC gives the sixteen words of a block that is not all zero (R201). -/
def dynamicSymbols (k : Params) (table : List PatternEntry) (p : Payload) : List Symbol :=
  (List.range 16).map fun i => dynamicSymbol k table (rawWord32 p i)

/-- The size of those symbols, at most 64 for a rejected plan (R204). -/
def dynamicSize (k : Params) (table : List PatternEntry) (p : Payload) : Nat :=
  min 64 ((((dynamicSymbols k table p).map Symbol.nibbles).sum + 1) / 2)

/-- What dynamicCompress makes of a payload: the single nibble 0 for a zero block (R200), else the smaller of the two
dynamic plans, FPC on a tie (R206). -/
def DynamicCoded (k : Params) (e : Engine) (p p' : Payload) : Prop :=
  if (List.range 16).all fun i => rawWord32 p i == 0 then Packed p p' [0]
  else if dynamicSize k e.table p ≤ bdiBest k p e.bdiEnable then
    if dynamicSize k e.table p < 64 then Packed p p' (nibbleStream (dynamicSymbols k e.table p)) else Rejected p p'
  else BdiCoded k e.bdiEnable p p'

/-! ### The learner -/

/-- A saturating 64-bit count after `n` more hits, as a number (R26). -/
def saturated (c : Counter) (n : Nat) : Nat := min (c.toNat + n) (2 ^ 64 - 1)

/-- The words of a block that count in FPC slot `s` (R160, R161). -/
def fpcSlotCount (p : Payload) (s : Fin 3) : Nat :=
  (List.range 16).countP fun i => decide (fpcSlot (fpcRung (rawWord32 p i)) = some s)

/-- The groups of one period that become candidates: those whose value is none of 0x00, 0xFF, 3, 15, 51 and 240, and not
the value of an earlier group (R170). -/
def candidateGroups (groups : List (BitVec 8)) (period : Nat) : List Nat :=
  (List.range period).filter fun g =>
    decide (groups.getD g 0 ∉ [0x00#8, 0xFF, 3, 15, 51, 240] ∧ ∀ g' < g, groups.getD g' 0 ≠ groups.getD g 0)

/-- The candidates as R164 to R173 list them: the FPC slots, the BDI slots, then the candidate groups of one period. -/
def listedCandidates (cfg : Knobs) (e : Engine) : List Candidate :=
  let groups := groupValues cfg e
  (List.finRange 3).map (fun s => ⟨cfg.params.savingsFPC s e.fpcHits[s].toNat, .fpc s⟩) ++
  (List.finRange 8).map (fun m => ⟨cfg.params.savingsBDI m e.bdiHits[m].toNat, .bdi m⟩) ++
  (candidateGroups groups (patternNum groups)).map (fun g =>
    ⟨cfg.params.savingsSample e.samples g (groups.getD g 0) (patternNum groups), .sample (groups.getD g 0)⟩)

/-- `m` is the least sample count over the unmarked nibbles of word `g` (R171). -/
def IsLeastUnmarked (samples : Vector Counter 128) (g : Fin 16) (v : BitVec 8) (m : Nat) : Prop :=
  (∃ j : Fin 8, v.getLsbD j = false ∧ m = samples[8 * g.val + j.val].toNat) ∧
  ∀ j : Fin 8, v.getLsbD j = false → m ≤ samples[8 * g.val + j.val].toNat

/-- Candidate `i` ranks before candidate `j`: greater savings, or equal savings and earlier insertion (R173). -/
def RanksBefore (cs : List Candidate) (i j : Nat) : Prop :=
  ∃ (hi : i < cs.length) (hj : j < cs.length),
    cs[j].savings < cs[i].savings ∨ (cs[i].savings = cs[j].savings ∧ i < j)

/-! ### Costs of COUNT -/

/-- The cost of the bits `[hi:lo]` of a byte: their number if they differ (R225). -/
def changedBits (a b : Byte) (hi lo : Nat) : Nat :=
  if a.extractLsb hi lo = b.extractLsb hi lo then 0 else hi - lo + 1

/-- The cost of a changed byte at 1, 2 or 3 bits per cell, cell by cell as R224 cuts it. -/
def cellsCost (levels : CellLevels) (a b : Byte) : Nat :=
  match levels with
  | .one => ((List.range 8).map fun i => changedBits a b i i).sum
  | .two => ((List.range 4).map fun i => changedBits a b (2 * i + 1) (2 * i)).sum
  | .three => changedBits a b 7 5 + changedBits a b 4 2 + changedBits a b 1 0

/-- The cost of index `i` of the two streams: a byte absent on one side costs 8 (R226). -/
def indexCost (levels : CellLevels) (p q : Payload) (i : Nat) : Nat :=
  match streamByte p i, streamByte q i with
  | some a, some b => cellsCost levels a b
  | none, none => 0
  | _, _ => 8

/-! ### ENCODE -/

/-- The ternary encoder applies: compressed, and at most 48 bytes (R230). -/
abbrev Remappable (p : Payload) : Prop := p.isCompressed = true ∧ p.compressedLength.toNat ≤ 48

/-- The number of bits the ternary encoder reads (R231). -/
def remapInBits (p : Payload) : Nat := 8 * p.compressedLength.toNat - (if p.isHalfTerminated then 4 else 0)

/-- `p'` is `p` remapped, bit by bit: the two bits `a b` of input cell `i` become `a a b` from output bit `3i`, the
rest of the last byte is 0, and nothing else changes (R231 to R233). -/
structure Remapped (p p' : Payload) : Prop where
  rawLen : p'.rawLen = p.rawLen
  rawBytes : p'.rawBytes = p.rawBytes
  isCompressed : p'.isCompressed = p.isCompressed
  half : p'.isHalfTerminated = p.isHalfTerminated
  length : p'.compressedLength.toNat = (3 * remapInBits p + 15) / 16
  code : ∀ i < remapInBits p / 2, storedBit p' (3 * i) = storedBit p (2 * i) ∧
    storedBit p' (3 * i + 1) = storedBit p (2 * i) ∧ storedBit p' (3 * i + 2) = storedBit p (2 * i + 1)
  pad : ∀ b, 3 * remapInBits p / 2 ≤ b → b < 8 * p'.compressedLength.toNat → storedBit p' b = false
  rest : ∀ a, p'.compressedLength.toNat ≤ a → Memory.read p'.compressedBytes a = Memory.read p.compressedBytes a

/-! ### Invariants -/

/-- A Pattern Table entry as R29 describes it: each nibble of the mask is 0x0 or 0xF, and the count, 1 to 7, is the
number of 0xF nibbles. -/
structure EntryOk (t : PatternEntry) : Prop where
  nibbles : ∀ j < 8, nib t.dcMask.toNat j = 0x0 ∨ nib t.dcMask.toNat j = 0xF
  count : t.count = (List.range 8).countP fun j => nib t.dcMask.toNat j == 0xF
  low : 1 ≤ t.count
  high : t.count ≤ 7

/-- The Pattern Table as R29 describes it: at most four entries, each of them sound. -/
structure TableOk (table : List PatternEntry) : Prop where
  short : table.length ≤ 4
  entries : ∀ t ∈ table, EntryOk t

/-- The number of enable flags that are set. -/
def flagsSet (e : Engine) : Nat := e.fpcEnable.toList.count true + e.bdiEnable.toList.count true

/-- What holds of the engine state from reset on: the table is sound (R29), there is nothing learned before extraction
(R40) and exactly four table entries and flags after it (R174), the hit counters stay cleared after extraction (R175,
R254), and the fault code is 0 exactly while there is no fault and never a reserved one (R270). -/
structure EngineInv (e : Engine) : Prop where
  table : TableOk e.table
  untrained : e.extracted = false → e.table = [] ∧ flagsSet e = 0
  learned : e.extracted = true → e.table.length + flagsSet e = 4
  closed : e.extracted = true → e.fpcHits = Vector.replicate 3 0 ∧ e.bdiHits = Vector.replicate 8 0
  code : e.faultCode.toNat ≤ 4
  named : e.fault = true ↔ e.faultCode ≠ 0

/-- What holds of the buffers from reset on: those of the record in hand, and of every record the host is still to
lend, are in canonical form and within their spaces (R50). -/
def BuffersInv (s : State) : Prop :=
  Canonical s ∧ ∀ r, HostAction.lend r ∈ s.host → r.buffersWf = true

/-! ### Noninterference -/

/-- Two payloads that no rule can tell apart: everything agrees but the bytes of the compressed view that are not
valid (R52). -/
structure SameToRules (p q : Payload) : Prop where
  rawLen : p.rawLen = q.rawLen
  rawBytes : p.rawBytes = q.rawBytes
  isCompressed : p.isCompressed = q.isCompressed
  length : p.compressedLength = q.compressedLength
  half : p.isHalfTerminated = q.isHalfTerminated
  valid : p.isCompressed = true → ∀ a < p.compressedLength.toNat,
    Memory.read p.compressedBytes a = Memory.read q.compressedBytes a

/-- Two states that differ only in bytes of the compressed views that are not valid. -/
structure StateSameToRules (s t : State) : Prop where
  engine : s.engine = t.engine
  cfg : s.cfg = t.cfg
  new : SameToRules s.request.new t.request.new
  old : SameToRules s.request.old t.request.old
  wc : s.wc = t.wc
  result : s.result = t.result
  host : s.host = t.host

end Sys2Proof.Machine
end

