-- ==== Sys2Proof/Certificates/Slice0/Obligations.lean ====
section
/-! DEFINITION. The statements for the provers, in the words of Sys2Proof/Safety.lean. -/

open Sys2Proof Sys2Proof.Machine

/-! ### Command words (30_encoding.md) -/

/-- A word decodes to a command exactly when it is one of the eleven words R76 lists. -/
def Obligations.LegalWordsAreTheElevenListed : Prop :=
  ∀ w : CommandWord, (∃ i, decode w = .ok i) ↔ w ∈ legalWords

/-- Decoding the word of a command gives the command back, and a word that decodes is the word of its command (R72 to
R74, R77). -/
def Obligations.DecodeAndEncodeAgree : Prop :=
  (∀ i : Instr, decode (encode i) = .ok i) ∧ ∀ (w : CommandWord) (i : Instr), decode w = .ok i → encode i = w

/-- The words R72 to R74 spell out, bit by bit, decode to their commands. -/
def Obligations.WrittenOutWordsDecode : Prop :=
  decode 0b00000000#8 = .ok .compressNone ∧ decode 0b00000011#8 = .ok .compressDfpc ∧
  decode 0b00100000#8 = .ok .encode ∧ decode 0b01000001#8 = .ok .countRaw1 ∧
  decode 0b01000111#8 = .ok .countCells3

/-! ### One step (R59, R271 to R276, R290) -/

/-- A step on a presented legal word is exec of its command, with the action taken from the list and the write counter
presented. That the host's actions stand in a list, and that a counter is recorded with every word, are the model's
choices (log 1, log 18). -/
def Obligations.StepRunsThePresentedCommand : Prop :=
  ∀ (s : State) (w : CommandWord) (wc : Counter) (rest : List HostAction) (i : Instr),
    s.host = .command w wc :: rest → decode w = .ok i → step s = exec i { s with host := rest, wc := wc }

/-- An illegal word on an engine without a fault sets the two fault fields, code 1, gives no RESULT and changes nothing
else of the engine, the configuration or the record (R271, R275). The list of host actions, RESULT held as a field, and
the write counter of an illegal word recorded too are the model's choices (log 1, log 4, log 18). -/
def Obligations.IllegalWordRaisesIllegalCommand : Prop :=
  ∀ (s : State) (w : CommandWord) (wc : Counter) (rest : List HostAction) (e : DecodeError),
    s.host = .command w wc :: rest → s.engine.fault = false → decode w = .error e →
    step s = .next { s with
      host := rest, wc := wc, result := none, engine := { s.engine with fault := true, faultCode := 1 } }

/-- While `E.FAULT` = 1 every word, legal or not, is refused: nothing of the engine or the record changes, the first
code stands, and there is no RESULT (R272). The list of host actions, RESULT held as a field, and the write counter of a
refused word recorded too are the model's choices (log 1, log 4, log 18). -/
def Obligations.FaultedEngineRefusesEveryWord : Prop :=
  ∀ (s : State) (w : CommandWord) (wc : Counter) (rest : List HostAction),
    s.host = .command w wc :: rest → s.engine.fault = true →
    step s = .next { s with host := rest, wc := wc, result := none }

/-- Every command on a record that breaks one of the three conditions of R23, in either payload, raises `BadRequest`,
code 2, and changes nothing else (R271, R273). -/
def Obligations.IllFormedRecordRaisesBadRequest : Prop :=
  ∀ (i : Instr) (s : State) (p : Payload), s.engine.fault = false →
    (p = s.request.new ∨ p = s.request.old) →
    (p.rawLen ≠ 64 ∨ 72 < p.compressedLength.toNat ∨
      (p.isHalfTerminated = true ∧ (p.isCompressed = false ∨ p.compressedLength = 0))) →
    exec i s = .next { s with result := none, engine := { s.engine with fault := true, faultCode := 2 } }

/-- Reset between commands puts every field of the engine at the value R40 lists, leaves the configuration and the
record as they are, and leaves no RESULT (R290, R292). The list of host actions and RESULT held as a field are the
model's choices (log 1, log 4). -/
def Obligations.ResetActionRestoresTheEngine : Prop :=
  ∀ (s : State) (rest : List HostAction), s.host = .reset :: rest →
    ∃ t, step s = .next t ∧ (∀ i : Fin 3, t.engine.fpcHits[i] = 0) ∧ (∀ i : Fin 8, t.engine.bdiHits[i] = 0) ∧
      (∀ i : Fin 128, t.engine.samples[i] = 0) ∧ t.engine.table = [] ∧
      (∀ i : Fin 3, t.engine.fpcEnable[i] = false) ∧ (∀ i : Fin 8, t.engine.bdiEnable[i] = false) ∧
      t.engine.extracted = false ∧ t.engine.fault = false ∧ t.engine.faultCode = 0 ∧
      t = { s with host := rest, result := none, engine := t.engine }

/-- The machine right after construction with any configuration holds the reset values R40 lists, that configuration,
and no RESULT (R40, R290, R294; RESULT held as a field is the model's choice, log 4); the default configuration has the
factor 2/5 and the default of each named parameter (R7, R8, R34; its horizon is log 5, the form of a parameter log 13). -/
def Obligations.ResetStateHoldsTheSpecValues : Prop :=
  (State.reset.cfg.thrNum = 2 ∧ State.reset.cfg.thrDen = 5 ∧ State.reset.cfg.params = defaultParams) ∧
  ∀ cfg : Knobs, (∀ i : Fin 3, (State.constructed cfg).engine.fpcHits[i] = 0) ∧
    (∀ i : Fin 8, (State.constructed cfg).engine.bdiHits[i] = 0) ∧
    (∀ i : Fin 128, (State.constructed cfg).engine.samples[i] = 0) ∧
    (State.constructed cfg).engine.table = [] ∧
    (∀ i : Fin 3, (State.constructed cfg).engine.fpcEnable[i] = false) ∧
    (∀ i : Fin 8, (State.constructed cfg).engine.bdiEnable[i] = false) ∧
    (State.constructed cfg).engine.extracted = false ∧ (State.constructed cfg).engine.fault = false ∧
    (State.constructed cfg).engine.faultCode = 0 ∧ (State.constructed cfg).cfg = cfg ∧
    (State.constructed cfg).result = none

/-- The model's own choice (log 2, log 3): with no host action left a step changes nothing, and a lent record replaces
the one in hand and takes the RESULT with it. -/
def Obligations.HostTurnsWithoutACommand : Prop :=
  (∀ s : State, s.host = [] → step s = .next s) ∧
  ∀ (s : State) (r : Request) (rest : List HostAction), s.host = .lend r :: rest →
    step s = .next { s with host := rest, request := r, result := none }

/-- From every state a step answers a next state: no command ever makes an access outside the buffers of R50, and none
is without a meaning. That a step with no action left goes on (log 2), that lending a record is a step (log 3), and that
a fault of the spec is a next state (log 12) are the model's choices. -/
def Obligations.EveryStepAnswersANextState : Prop := ∀ s : State, Continues (step s)

/-! ### Invariants -/

/-- The engine invariant holds after construction and reset. -/
def Obligations.EngineInvHoldsAfterReset : Prop := ∀ cfg : Knobs, EngineInv (State.constructed cfg).engine

/-- Every step keeps the engine invariant, whatever record the host has put in hand. -/
def Obligations.EveryStepKeepsEngineInv : Prop :=
  ∀ s t : State, EngineInv s.engine → step s = .next t → EngineInv t.engine

/-- The buffer invariant holds after construction and reset: of the model's own fresh record (log 6). -/
def Obligations.BuffersInvHoldsAfterReset : Prop := ∀ cfg : Knobs, BuffersInv (State.constructed cfg)

/-- Every step keeps every buffer within its space (R50) and in the model's canonical form (log 8). -/
def Obligations.EveryStepKeepsBuffersInv : Prop :=
  ∀ s t : State, BuffersInv s → step s = .next t → BuffersInv t

/-- A command hands a well-formed record back well formed (R22, R23). -/
def Obligations.CommandsKeepTheRecordWellFormed : Prop :=
  ∀ (i : Instr) (s t : State), s.request.wellFormed = true → exec i s = .next t → t.request.wellFormed = true

/-- No command writes `rawBytes` of either payload; the only fields it changes of a payload are the four of the
compressed view; COUNT writes nothing in the request (R24). -/
def Obligations.CommandsNeverWriteRawBytes : Prop :=
  ∀ (i : Instr) (s t : State), exec i s = .next t →
    t.request.new.rawLen = s.request.new.rawLen ∧ t.request.new.rawBytes = s.request.new.rawBytes ∧
    t.request.old.rawLen = s.request.old.rawLen ∧ t.request.old.rawBytes = s.request.old.rawBytes ∧
    (i ∈ [Instr.countRaw1, .countRaw2, .countRaw3, .countCells1, .countCells2, .countCells3] →
      t.request = s.request)

/-- No command writes the configuration, the named parameters included (R34, R8), or the write counter, an input (R35).
The host's list of actions and the counter held as a field are the model's own (log 1, log 18), and that no command
changes them is the model's choice. -/
def Obligations.CommandsLeaveConfigurationAndInputs : Prop :=
  ∀ (i : Instr) (s t : State), exec i s = .next t → t.cfg = s.cfg ∧ t.wc = s.wc ∧ t.host = s.host

/-- A command other than COMPRESS.DFPC that runs its operation leaves every field of the engine as it was. -/
def Obligations.OnlyDfpcChangesTheEngine : Prop :=
  ∀ (i : Instr) (s t : State), i ≠ .compressDfpc → Ready s → exec i s = .next t → t.engine = s.engine

/-- A command that raises a fault discards all its writes: only the two fault fields change, and there is no RESULT
(R271). -/
def Obligations.FaultingCommandDiscardsItsWrites : Prop :=
  ∀ (i : Instr) (s t : State), exec i s = .next t → s.engine.fault = false → t.engine.fault = true →
    t = { s with
      result := none, engine := { s.engine with fault := true, faultCode := t.engine.faultCode } } ∧
    1 ≤ t.engine.faultCode.toNat ∧ t.engine.faultCode.toNat ≤ 4

/-- Once faulted, the engine stays exactly as it is, code included, through every step but a reset (R271, R272). -/
def Obligations.FaultOutlastsEveryStepButReset : Prop :=
  ∀ s t : State, s.engine.fault = true → (∀ rest, s.host ≠ .reset :: rest) → step s = .next t → t.engine = s.engine

/-- After extraction no command changes the counters, the table or the enable flags (R29, R175, R254). -/
def Obligations.LearnedStateIsFrozenAfterExtraction : Prop :=
  ∀ (i : Instr) (s t : State), s.engine.extracted = true → exec i s = .next t →
    t.engine = { s.engine with fault := t.engine.fault, faultCode := t.engine.faultCode }

/-- A command hands back a RESULT exactly when the engine is not faulted after it (R33, R271, R272). -/
def Obligations.ResultExactlyWithoutFault : Prop :=
  ∀ (i : Instr) (s t : State), exec i s = .next t → (t.result = none ↔ t.engine.fault = true)

/-! ### COMPRESS (46_compress_command.md) -/

/-- COMPRESS.NONE on a ready engine gives RESULT 0 and changes nothing else (R250). -/
def Obligations.CompressNoneReturnsZero : Prop :=
  ∀ s : State, Ready s → exec .compressNone s = .next { s with result := some (.compress false) }

/-- COMPRESS.FPC codes both payloads by static FPC with the configuration's `fpcSymbol` (log 13), RESULT says whether the
new one was accepted, and nothing else changes (R134, R251). -/
def Obligations.CompressFpcCodesBothPayloads : Prop :=
  ∀ s : State, Ready s → Canonical s → ∃ t, exec .compressFpc s = .next t ∧
    FpcCoded s.cfg.params s.request.old t.request.old ∧
    FpcCoded s.cfg.params s.request.new t.request.new ∧
    t.result = some (.compress (decide (fpcSize s.request.new < 64))) ∧
    t = { s with request := t.request, result := t.result }

/-- COMPRESS.BDI codes both payloads by the winner of the ten methods, RESULT says whether the new one was accepted,
and nothing else changes (R137 to R139, R252), with the configuration's `deltaRange`, by default that of R113 (log 13). -/
def Obligations.CompressBdiCodesBothPayloads : Prop :=
  ∀ s : State, Ready s → Canonical s → ∃ t, exec .compressBdi s = .next t ∧
    BdiCoded s.cfg.params allSlots s.request.old t.request.old ∧
    BdiCoded s.cfg.params allSlots s.request.new t.request.new ∧
    t.result = some (.compress (decide (bdiBest s.cfg.params s.request.new allSlots < 64))) ∧
    t = { s with request := t.request, result := t.result }

/-- An accepted COMPRESS.BDI stores one byte more than the best size, half-terminated, at most 49 bytes (R139), whatever
the configuration's `deltaRange` (log 13). -/
def Obligations.BdiStoresOneByteMoreThanItsSize : Prop :=
  ∀ s t : State, Ready s → exec .compressBdi s = .next t → t.request.new.isCompressed = true →
    t.request.new.compressedLength.toNat = bdiBest s.cfg.params s.request.new allSlots + 1 ∧
    t.request.new.compressedLength.toNat ≤ 49 ∧ t.request.new.isHalfTerminated = true

/-- COMPRESS.DFPC in training codes both payloads by the smaller static encoding and changes of the engine nothing but
the three kinds of counters (R140, R253, R254), with the configuration's named parameters, by default those of R113 and
R132 (log 13). -/
def Obligations.DfpcTrainingCodesBothPayloads : Prop :=
  ∀ s : State, Ready s → Canonical s → s.engine.extracted = false → s.wc.toNat < s.cfg.horizon.toNat →
    ∃ t, exec .compressDfpc s = .next t ∧
      BestCoded s.cfg.params s.request.old t.request.old ∧
      BestCoded s.cfg.params s.request.new t.request.new ∧
      t.result = some (.compress t.request.new.isCompressed) ∧
      t = { s with
        request := t.request, result := t.result
        engine := { s.engine with
          fpcHits := t.engine.fpcHits, bdiHits := t.engine.bdiHits, samples := t.engine.samples } }

/-- COMPRESS.DFPC in training counts the new payload: one FPC hit a word in its slot (R161), one BDI hit in the
winner's slot (R162), one sample at each zero nibble (R163), all saturating (R26). The winner is that of the
configuration's `deltaRange` (log 13). -/
def Obligations.DfpcTrainingCountsTheNewPayload : Prop :=
  ∀ s : State, Ready s → s.engine.extracted = false → s.wc.toNat < s.cfg.horizon.toNat →
    ∃ t, exec .compressDfpc s = .next t ∧
      (∀ i : Fin 3, t.engine.fpcHits[i].toNat = saturated s.engine.fpcHits[i] (fpcSlotCount s.request.new i)) ∧
      (∀ m, BdiWinner s.cfg.params s.request.new allSlots m →
        t.engine.bdiHits[m.slot].toNat = saturated s.engine.bdiHits[m.slot] 1) ∧
      (∀ i : Fin 8, (¬∃ m, BdiWinner s.cfg.params s.request.new allSlots m ∧ m.slot = i) →
        t.engine.bdiHits[i] = s.engine.bdiHits[i]) ∧
      ∀ i : Fin 128, t.engine.samples[i].toNat = saturated s.engine.samples[i]
        (if nib (rawWord s.request.new 4 (i.val / 8)) (i.val % 8) = 0 then 1 else 0)

/-- COMPRESS.DFPC in steady state codes both payloads by the dynamic codecs over the table the command leaves, which is
the engine's own if extraction has run before (R206, R253, R254), with the configuration's named parameters, by default
those of R113 and R132 (log 13). -/
def Obligations.DfpcSteadyCodesBothPayloads : Prop :=
  ∀ s : State, Ready s → Canonical s → (s.engine.extracted = true ∨ s.cfg.horizon.toNat ≤ s.wc.toNat) →
    (s.engine.extracted = true → TableOk s.engine.table) →
    ∃ t, exec .compressDfpc s = .next t ∧
      DynamicCoded s.cfg.params t.engine s.request.old t.request.old ∧
      DynamicCoded s.cfg.params t.engine s.request.new t.request.new ∧
      t.result = some (.compress t.request.new.isCompressed) ∧
      (s.engine.extracted = true → t.engine = s.engine) ∧
      t = { s with request := t.request, result := t.result, engine := t.engine }

/-- The first COMPRESS.DFPC at or past the horizon extracts: the table and the flags are those of the kept four, the hit
counters are cleared, the sample counters stay, and `E.extracted` is set (R174, R175, R254). -/
def Obligations.FirstSteadyWriteExtracts : Prop :=
  ∀ s : State, Ready s → s.engine.extracted = false → s.cfg.horizon.toNat ≤ s.wc.toNat →
    ∃ t, exec .compressDfpc s = .next t ∧ t.engine.extracted = true ∧
      t.engine.table = (keptFour s.cfg s.engine).filterMap Candidate.entry ∧
      (∀ i : Fin 3, t.engine.fpcEnable[i] = true ↔
        ∃ c ∈ keptFour s.cfg s.engine, c.kind = .fpc i) ∧
      (∀ i : Fin 8, t.engine.bdiEnable[i] = true ↔
        ∃ c ∈ keptFour s.cfg s.engine, c.kind = .bdi i) ∧
      (∀ i : Fin 3, t.engine.fpcHits[i] = 0) ∧ (∀ i : Fin 8, t.engine.bdiHits[i] = 0) ∧
      t.engine.samples = s.engine.samples ∧ t.engine.fault = false ∧
      t.engine.faultCode = s.engine.faultCode

/-- After extraction the write counter makes no difference to COMPRESS.DFPC: a counter that goes back does not bring
training back (R255). -/
def Obligations.CounterGoingBackDoesNotRetrain : Prop :=
  ∀ (s t : State) (a b : Counter), s.engine.extracted = true →
    exec .compressDfpc { s with wc := a } = .next t → exec .compressDfpc { s with wc := b } = .next { t with wc := b }

/-- What COMPRESS.DFPC does to the engine depends on nothing of the record but the new payload's raw bytes (R161 to
R163, R176). -/
def Obligations.LearnerSeesOnlyTheNewRawBytes : Prop :=
  ∀ s u : State, Ready s → Ready u → s.engine = u.engine → s.cfg = u.cfg → s.wc = u.wc →
    s.request.new.rawBytes = u.request.new.rawBytes → (s.engine.extracted = true → TableOk s.engine.table) →
    ∃ s' u', exec .compressDfpc s = .next s' ∧ exec .compressDfpc u = .next u' ∧ s'.engine = u'.engine

/-! ### COUNT and ENCODE (45_write_change.md) -/

/-- COUNT.RAW at every level gives eight times the length of the new stream, at most 512, and changes nothing else
(R220, R222, R223). -/
def Obligations.CountRawGivesTheStreamWidth : Prop :=
  ∀ (i : Instr) (s : State), i ∈ [Instr.countRaw1, .countRaw2, .countRaw3] → Ready s →
    exec i s = .next { s with
      result := some (.count (BitVec.ofNat 10 (min (8 * streamLength s.request.new) 512))) }

/-- COUNT.CELLS gives the sum of the changed cells' widths over the longer stream, 8 for an absent byte, at most 512,
and changes nothing else (R220 to R227). -/
def Obligations.CountCellsWeighsChangedCells : Prop :=
  ∀ (i : Instr) (levels : CellLevels) (s : State),
    (i, levels) ∈ [(Instr.countCells1, CellLevels.one), (.countCells2, .two), (.countCells3, .three)] → Ready s →
    exec i s = .next { s with
      result := some (.count (BitVec.ofNat 10 (min
        ((List.range (max (streamLength s.request.new) (streamLength s.request.old))).map
          (indexCost levels s.request.new s.request.old)).sum 512))) }

/-- COUNT.CELLS is at most 512, and 0 exactly when the two streams are the same bytes (R227). -/
def Obligations.CountCellsIsZeroIffStreamsAgree : Prop :=
  ∀ (i : Instr) (s : State), i ∈ [Instr.countCells1, .countCells2, .countCells3] → Ready s →
    ∃ b : BitVec 10, exec i s = .next { s with result := some (.count b) } ∧ b.toNat ≤ 512 ∧
      (b = 0 ↔ ∀ a, streamByte s.request.new a = streamByte s.request.old a)

/-- ENCODE remaps, bit by bit, each payload that is compressed and at most 48 bytes long, leaves the others alone, and
its RESULT says which it remapped (R228 to R233). -/
def Obligations.EncodeRemapsCompressedPayloads : Prop :=
  ∀ s : State, Ready s → Canonical s → ∃ t, exec .encode s = .next t ∧
    (Remappable s.request.new → Remapped s.request.new t.request.new) ∧
    (¬Remappable s.request.new → t.request.new = s.request.new) ∧
    (Remappable s.request.old → Remapped s.request.old t.request.old) ∧
    (¬Remappable s.request.old → t.request.old = s.request.old) ∧
    t.result = some (.encode (BitVec.ofNat 2
      (2 * (if Remappable s.request.new then 1 else 0) + (if Remappable s.request.old then 1 else 0)))) ∧
    t = { s with request := t.request, result := t.result }

/-- The ternary encoder applies exactly to a compressed payload of at most 48 bytes; any other it leaves alone and
reports failure (R230). -/
def Obligations.TernaryEncoderAppliesUpToFortyEightBytes : Prop :=
  ∀ p : Payload,
    (p.isCompressed = true ∧ p.compressedLength.toNat ≤ 48 → ∃ q, ternaryEncode p = .ok (q, true)) ∧
    (p.isCompressed = false ∨ 48 < p.compressedLength.toNat → ternaryEncode p = .ok (p, false))

/-- Every 2-bit cell `a b` of a bit stream becomes the three bits `a a b`, in order, so that 010, 011, 100 and 101 never
occur (R232). -/
def Obligations.TernaryMapDoublesTheFirstBit : Prop :=
  ∀ bits : List Bool, (ternaryBits bits).length = 3 * (bits.length / 2) ∧
    ∀ i < bits.length / 2,
      (ternaryBits bits).getD (3 * i) false = bits.getD (2 * i) false ∧
      (ternaryBits bits).getD (3 * i + 1) false = bits.getD (2 * i) false ∧
      (ternaryBits bits).getD (3 * i + 2) false = bits.getD (2 * i + 1) false

/-- Bytes of a compressed view that are not valid make no difference: of two states that differ in nothing else, every
command makes two states that differ in nothing else, with the same RESULT (R52). -/
def Obligations.InvalidBytesMakeNoDifference : Prop :=
  ∀ (i : Instr) (s u : State), StateSameToRules s u → Canonical s → Canonical u →
    ∃ s' u', exec i s = .next s' ∧ exec i u = .next u' ∧ StateSameToRules s' u'

/-! ### The word packer (40_word_packer.md) -/

/-- Word `i` at a granularity of 2, 4 or 8 bytes is the sum of its bytes times powers of 256, the byte at the lowest
offset least significant (R53). -/
def Obligations.WordsAreLittleEndian : Prop :=
  ∀ (p : Payload) (step : Nat), step = 2 ∨ step = 4 ∨ step = 8 →
    ∃ words, bytesToWords p 64 step = .ok words ∧ words.length = 64 / step ∧
      ∀ i < 64 / step, words.getD i 0 =
        ((List.range step).map fun j => (Memory.read p.rawBytes (i * step + j)).toNat * 256 ^ j).sum

/-- Taking byte `j` of word `k` back out of bytesToWords gives the raw byte at `k * step + j`, for every size that is a
multiple of the step (R92). -/
def Obligations.UnpackInvertsBytesToWords : Prop :=
  ∀ (p : Payload) (size step : Nat), step = 2 ∨ step = 4 ∨ step = 8 → size ≤ 64 → step ∣ size →
    ∃ words, bytesToWords p size step = .ok words ∧ words.length * step = size ∧
      ∀ k j, k < words.length → j < step →
        words.getD k 0 / 256 ^ j % 256 = (Memory.read p.rawBytes (k * step + j)).toNat

/-- The words at a granularity are the pairs of words at half of it, the first in the low half (R54). -/
def Obligations.WideWordsAreNarrowPairs : Prop :=
  ∀ (p : Payload) (w2 w4 w8 : List Nat), bytesToWords p 64 2 = .ok w2 → bytesToWords p 64 4 = .ok w4 →
    bytesToWords p 64 8 = .ok w8 →
    (∀ k < 16, w4.getD k 0 = w2.getD (2 * k) 0 + w2.getD (2 * k + 1) 0 * 2 ^ 16) ∧
    ∀ k < 8, w8.getD k 0 = w4.getD (2 * k) 0 + w4.getD (2 * k + 1) 0 * 2 ^ 32

/-- bytesToWords raises `BadSize` exactly outside its contract (R57, R90, R274). -/
def Obligations.BytesToWordsRaisesBadSize : Prop :=
  ∀ (p : Payload) (size step : Nat),
    bytesToWords p size step = .error (.raise .badSize) ↔
      ¬((step = 2 ∨ step = 4 ∨ step = 8) ∧ size ≤ 64 ∧ step ∣ size)

/-- On at most 35 symbols of at most 8 nibbles and 32 bits that make at most 128 nibbles, wordsToBytes packs the nibble
stream high nibble first, whatever the budget (R93 to R98, R100). -/
def Obligations.PackerWritesTheNibbleStream : Prop :=
  ∀ (p : Payload) (budget : Nat) (symbols : List Symbol), p.buffersWf = true → symbols.length ≤ 35 →
    (∀ y ∈ symbols, y.nibbles ≤ 8 ∧ y.value < 2 ^ 32) → (symbols.map Symbol.nibbles).sum ≤ 128 →
    ∃ q, wordsToBytes p budget symbols = .ok q ∧ Packed p q (nibbleStream symbols)

/-- wordsToBytes always marks the payload compressed, half-terminated exactly for an odd nibble total, whatever the flag
was; with no nibbles the length is 0 and no byte is written (R98). -/
def Obligations.PackerAlwaysMarksCompressed : Prop :=
  ∀ (p q : Payload) (budget : Nat) (symbols : List Symbol), wordsToBytes p budget symbols = .ok q →
    q.isCompressed = true ∧ (q.isHalfTerminated = true ↔ (symbols.map Symbol.nibbles).sum % 2 = 1) ∧
    ((symbols.map Symbol.nibbles).sum = 0 →
      q.compressedLength = 0 ∧ q.isHalfTerminated = false ∧ q.compressedBytes = p.compressedBytes)

/-- wordsToBytes raises `Capacity` exactly on more than 35 symbols, a symbol of more than 8 nibbles or 32 bits, or more
nibbles than fit 64 bytes (R93, R97, R274). -/
def Obligations.PackerRaisesCapacityOutsideItsContract : Prop :=
  ∀ (p : Payload) (budget : Nat) (symbols : List Symbol),
    wordsToBytes p budget symbols = .error (.raise .capacity) ↔
      35 < symbols.length ∨ (∃ y ∈ symbols, 8 < y.nibbles ∨ 2 ^ 32 ≤ y.value) ∨
        64 < ((symbols.map Symbol.nibbles).sum + 1) / 2

/-! ### Classifiers and static codecs (41_classifiers.md, 42_static_codecs.md) -/

/-- A multi-base attempt in full. Base 0 is the first word, base 1 the first word out of its range; if every word is
within range of one of them the size is the formula of R115, accepted only below the raw size, and the symbols are the
literals of the bases and each word's delta against its own base; a misfit rejects at the raw size (R114 to R117). The
default range is that of R113. The same-value attempt in full (R118). -/
def Obligations.MultiBaseSizeFollowsTheTwoBases : Prop :=
  (∀ (k : Params) (x : Nat) (xs : List Nat) (d w : Nat), d = 1 ∨ d = 2 ∨ d = 4 → w = 2 ∨ w = 4 ∨ w = 8 →
    multiBaseCompress k (x :: xs) d w =
      match xs.find? (fun y => decide (k.deltaRange d < distance y x)) with
      | none => acceptedBelow ((xs.length + 1) * w) (d * (xs.length + 1) + w)
          (literalSymbols x w ++ (x :: xs).map fun y => deltaOf d y x)
      | some b =>
        if xs.all (fun y => decide (distance y x ≤ k.deltaRange d) || decide (distance y b ≤ k.deltaRange d))
        then acceptedBelow ((xs.length + 1) * w) (d * (xs.length + 1) + 2 * w)
          (literalSymbols x w ++ literalSymbols b w ++
            (x :: xs).map fun y => deltaOf d y (if distance y x ≤ k.deltaRange d then x else b))
        else ⟨(xs.length + 1) * w, none⟩) ∧
  (defaultParams.deltaRange 1 = 127 ∧ defaultParams.deltaRange 2 = 32767 ∧ defaultParams.deltaRange 4 = 2147483647) ∧
  ∀ (v : Nat) (vs : List Nat) (w : Nat),
    sameValue (v :: vs) w =
      if ∀ y ∈ vs, y = v then ⟨w, some (literalSymbols v w)⟩ else ⟨(vs.length + 1) * w, none⟩

/-- A block of one repeated 8-byte word whose halves differ has best size 8, won by the same-value method on 8-byte
words, tag 3, whatever the configuration's `deltaRange` (R141, log 13). -/
def Obligations.RepeatedWordIsWonBySameValue : Prop :=
  ∀ (k : Params) (p : Payload) (v : Nat), (∀ i < 8, rawWord p 8 i = v) → v % 2 ^ 32 ≠ v / 2 ^ 32 →
    bdiBest k p allSlots = 8 ∧ BdiWinner k p allSlots ⟨3, .sameValue, 8, 7⟩ ∧
    ∀ m ∈ bdiMethods, m.tag ≠ 3 → 16 ≤ bdiSize k p m

/-- A block all of whose words are equal at a granularity is so at the next larger one; whether it is all zero does not
depend on the granularity (R110, R111). -/
def Obligations.WiderWordsStayEqualAndZero : Prop :=
  ∀ p : Payload, (allEqual (rawWords p 2) = true → allEqual (rawWords p 4) = true) ∧
    (allEqual (rawWords p 4) = true → allEqual (rawWords p 8) = true) ∧
    allZero (rawWords p 2) = allZero (rawWords p 4) ∧ allZero (rawWords p 4) = allZero (rawWords p 8)

/-- The ladder, all seven rungs exactly, its signed magnitudes written as ranges of the unsigned word and of its unsigned
halves (R130, R131). -/
def Obligations.LadderByUnsignedRanges : Prop :=
  ∀ u : Word32,
    (fpcRung u = .zero ↔ u.toNat = 0) ∧
    (fpcRung u = .smallByte ↔ u.toNat ≠ 0 ∧ (u.toNat ≤ 0xFF ∨ 0xFFFFFF01 ≤ u.toNat)) ∧
    (fpcRung u = .smallHalf ↔ (0x100 ≤ u.toNat ∧ u.toNat ≤ 0xFFFF) ∨
      (0xFFFF0001 ≤ u.toNat ∧ u.toNat ≤ 0xFFFFFF00)) ∧
    (fpcRung u = .lowHalfZero ↔ u.toNat ≠ 0 ∧ u.toNat % 2 ^ 16 = 0) ∧
    (fpcRung u = .smallHalves ↔ 0x10000 ≤ u.toNat ∧ u.toNat ≤ 0xFFFF0000 ∧ u.toNat % 2 ^ 16 ≠ 0 ∧
      (u.toNat / 2 ^ 16 ≤ 0xFF ∨ 0xFF01 ≤ u.toNat / 2 ^ 16) ∧
      (u.toNat % 2 ^ 16 ≤ 0xFF ∨ 0xFF01 ≤ u.toNat % 2 ^ 16)) ∧
    (fpcRung u = .equalBytes ↔ ∃ b, 1 ≤ b ∧ b ≤ 0xFE ∧ u.toNat = b * 0x01010101) ∧
    (fpcRung u = .raw ↔ 0x10000 ≤ u.toNat ∧ u.toNat ≤ 0xFFFF0000 ∧ u.toNat % 2 ^ 16 ≠ 0 ∧
      ((0x100 ≤ u.toNat / 2 ^ 16 ∧ u.toNat / 2 ^ 16 ≤ 0xFF00) ∨
        (0x100 ≤ u.toNat % 2 ^ 16 ∧ u.toNat % 2 ^ 16 ≤ 0xFF00)) ∧
      ∀ b, u.toNat ≠ b * 0x01010101)

/-- Whatever the configuration's `fpcSymbol`, the symbol of a word has the cost of its rung (R131, R132, U2) and fits the
packer (log 13). By default its nibbles are the rung's number less one and then the word's kept nibbles, but for rung 7,
which is the whole word without a prefix (R132). -/
def Obligations.LadderSymbolHasItsRungsCost : Prop :=
  (∀ (cfg : Knobs) (u : Word32), (ladderSymbol cfg.params u).nibbles = fpcCost (fpcRung u) ∧
    (ladderSymbol cfg.params u).value < 2 ^ 32) ∧
  ∀ u : Word32,
    (fpcRung u ≠ .raw → symbolNibbles (ladderSymbol defaultParams u) =
      BitVec.ofNat 4 (rungNumber (fpcRung u) - 1) :: (keptNibbles (fpcRung u)).map fun j => nib u.toNat j) ∧
    (fpcRung u = .raw → (ladderSymbol defaultParams u).value = u.toNat ∧
      symbolNibbles (ladderSymbol defaultParams u) = (keptNibbles .raw).map fun j => nib u.toNat j) ∧
    (fpcRung u = .equalBytes → ∀ j < 8, nib u.toNat j = nib u.toNat (j % 2))

/-- Static FPC rejects a block exactly when all sixteen words are rung 7, whatever the configuration's `fpcSymbol` (R133,
log 13). -/
def Obligations.FpcRejectsOnlySixteenRawWords : Prop :=
  ∀ (cfg : Knobs) (p : Payload), ∃ plan, staticFPCplan cfg.params p = .ok plan ∧
    (plan.symbols = none ↔ ∀ i < 16, fpcRung (rawWord32 p i) = .raw)

/-! ### The pattern learner (43_pattern_learner.md) -/

/-- With `lo` and `hi` the least and the greatest counter, a position is marked exactly when `THR_DEN` times its counter's
excess over `lo` is below `THR_NUM` times `hi - lo`; so, with a factor above 0 and at most 1, one whose counter is the
greatest is never marked, and one whose counter is the least is marked as soon as some counter is greater (R167). -/
def Obligations.GreatestIsNeverMarkedLeastIs : Prop :=
  (∀ (cfg : Knobs) (e : Engine) (least greatest p : Fin 128),
    (∀ q : Fin 128, e.samples[least].toNat ≤ e.samples[q].toNat ∧ e.samples[q].toNat ≤ e.samples[greatest].toNat) →
    (marked cfg e p.val = true ↔ cfg.thrDen * (e.samples[p].toNat - e.samples[least].toNat) <
      cfg.thrNum * (e.samples[greatest].toNat - e.samples[least].toNat))) ∧
  ∀ (cfg : Knobs) (e : Engine) (p : Fin 128), 0 < cfg.thrNum → cfg.thrNum ≤ cfg.thrDen →
    ((∀ q : Fin 128, e.samples[q].toNat ≤ e.samples[p].toNat) → marked cfg e p.val = false) ∧
    ((∀ q : Fin 128, e.samples[p].toNat ≤ e.samples[q].toNat) →
      (∃ q : Fin 128, e.samples[p].toNat < e.samples[q].toNat) → marked cfg e p.val = true)

/-- `pattern_num` is 16, 8, 4, 2 or 1, the sixteen groups repeat with that period, and the two halves of the period
differ (R169). -/
def Obligations.PatternNumIsTheHalvingPeriod : Prop :=
  ∀ groups : List (BitVec 8), groups.length = 16 →
    patternNum groups ∈ [16, 8, 4, 2, 1] ∧
    (∀ g < 16, groups.getD g 0 = groups.getD (g % patternNum groups) 0) ∧
    (patternNum groups ≠ 1 →
      ∃ i < patternNum groups / 2, groups.getD i 0 ≠ groups.getD (i + patternNum groups / 2) 0)

/-- The kept four are four different candidates in rank order, and every candidate not kept ranks after each of them:
greater savings first, earlier insertion first among equals (R173). The candidates are the eleven slots and then the
groups that R170 does not exclude, bit `j` of group `g` the mark of position `8g + j` (R168), with the savings of the
configuration (log 13; that they are natural numbers, log 21); the default savings are those of R165, R166 and R171. -/
def Obligations.KeptFourRankBeforeTheRest : Prop :=
  (∀ (cfg : Knobs) (e : Engine), (groupValues cfg e).length = 16 ∧
    (∀ g < 16, ∀ j < 8, ((groupValues cfg e).getD g 0).getLsbD j = marked cfg e (8 * g + j)) ∧
    ∃ idx : List Nat, idx.length = 4 ∧
      keptFour cfg e = idx.filterMap (fun i => (listedCandidates cfg e)[i]?) ∧ (keptFour cfg e).length = 4 ∧
      idx.Pairwise (RanksBefore (listedCandidates cfg e)) ∧
      ∀ j < (listedCandidates cfg e).length, j ∉ idx → ∀ i ∈ idx, RanksBefore (listedCandidates cfg e) i j) ∧
  (∀ (s : Fin 3) (m : Fin 8) (hits : Nat), defaultParams.savingsFPC s hits = hits * [7, 5, 3].getD s.val 0 ∧
    defaultParams.savingsBDI m hits = hits * [96, 80, 48, 88, 56, 0, 60, 112].getD m.val 0) ∧
  ∀ (samples : Vector Counter 128) (g : Fin 16) (v : BitVec 8) (period m : Nat), IsLeastUnmarked samples g v m →
    defaultParams.savingsSample samples g.val v period =
      (7 - (List.range 8).countP fun j => v.getLsbD j) * m * (16 / period)

/-- Extraction with no training keeps FPC slots 0, 1, 2 and BDI slot 0 and learns no pattern, whatever the threshold
(R255), of every configuration whose structural savings are 0 at no hits, as the defaults of R165 and R166 are
(log 13). -/
def Obligations.UntrainedExtractionKeepsTheFirstFour : Prop :=
  ∀ (cfg : Knobs) (e : Engine), (∀ i : Fin 3, cfg.params.savingsFPC i 0 = 0) →
    (∀ i : Fin 8, cfg.params.savingsBDI i 0 = 0) → (∀ i : Fin 3, e.fpcHits[i] = 0) → (∀ i : Fin 8, e.bdiHits[i] = 0) →
    (∀ i : Fin 128, e.samples[i] = 0) →
    (extractPattern cfg e).table = [] ∧ (∀ i : Fin 3, (extractPattern cfg e).fpcEnable[i] = true) ∧
    ∀ i : Fin 8, (extractPattern cfg e).bdiEnable[i] = decide (i = 0)

/-- Nibble `j` of `dcMask(v)` is 0xF if bit `j` of `v` is 1, else 0 (R172). -/
def Obligations.DcMaskExpandsEachBit : Prop :=
  ∀ (v : BitVec 8) (j : Fin 8), nib (dcMask v).toNat j.val = if v.getLsbD j.val then 0xF else 0x0

/-! ### The dynamic codecs (44_dynamic_codecs.md) -/

/-- A sound entry takes a word exactly when every nibble at an unmarked position is zero; the first entry that takes a
non-zero word codes it, and the fixed ladder codes a zero word and a word no entry takes (R201, R203), whatever the named
parameters. -/
def Obligations.FirstMatchingEntryCodesTheWord : Prop :=
  (∀ (t : PatternEntry) (u : Word32), EntryOk t →
    (t.takes u = true ↔ ∀ j < 8, nib t.dcMask.toNat j = 0x0 → nib u.toNat j = 0x0)) ∧
  (∀ (k : Params) (table : List PatternEntry) (u : Word32) (i : Nat) (h : i < table.length), u ≠ 0 →
    table[i].takes u = true → (∀ j (hj : j < i), table[j].takes u = false) →
    dynamicSymbol k table u = tableSymbol i table[i] u) ∧
  ∀ (k : Params) (table : List PatternEntry) (u : Word32), (u = 0 ∨ ∀ t ∈ table, t.takes u = false) →
    dynamicSymbol k table u = ladderSymbol k u

/-- The symbol of a word taken by entry `i` of the table: the nibble `8 + i`, then the marked nibbles of the word from
the most significant down, `1 + count` nibbles in all (R202). -/
def Obligations.TableSymbolIsIndexThenMarkedNibbles : Prop :=
  ∀ (i : Nat) (t : PatternEntry) (u : Word32), i < 4 → EntryOk t →
    (tableSymbol i t u).nibbles = 1 + t.count ∧ (tableSymbol i t u).value < 2 ^ 32 ∧
    symbolNibbles (tableSymbol i t u) = BitVec.ofNat 4 (8 + i) ::
      (([7, 6, 5, 4, 3, 2, 1, 0].filter fun j => nib t.dcMask.toNat j == 0xF).map fun j => nib u.toNat j)
end

