-- ==== Sys2Proof/Laws/Memory.lean ====
section
/-! SUPPORT. The laws of buffers: a write is read back and leaves every other byte alone, and every operation keeps the
canonical form and the bound of the space. -/

namespace Sys2Proof.Machine

/-- The canonical form in the terms proofs use: offsets strictly rising, no entry that reads as an unlisted one. -/
theorem memory_wf_iff (m : Memory) :
    Memory.wf m = true ↔ m.Pairwise (fun a b => a.1 < b.1) ∧ ∀ c ∈ m, c.2 ≠ unlistedByte := by
  induction m with
  | nil => simp [Memory.wf]
  | cons a m ih =>
    cases m with
    | nil => simp [Memory.wf]
    | cons b m =>
      rw [Memory.wf, Bool.and_eq_true, Bool.and_eq_true, ih, List.pairwise_cons (a := a)]
      constructor
      · rintro ⟨⟨hv, hlt⟩, hp, hne⟩
        have hlt : a.1 < b.1 := by simpa using hlt
        refine ⟨⟨?_, hp⟩, ?_⟩
        · intro c hc
          rcases List.mem_cons.1 hc with rfl | hc
          · exact hlt
          · exact lt_trans hlt ((List.pairwise_cons.1 hp).1 c hc)
        · intro c hc
          rcases List.mem_cons.1 hc with rfl | hc
          · simpa using hv
          · exact hne c hc
      · rintro ⟨⟨ha, hp⟩, hne⟩
        refine ⟨⟨?_, ?_⟩, hp, fun c hc => hne c (List.mem_cons_of_mem _ hc)⟩
        · simpa using hne a (by simp)
        · simpa using ha b (by simp)

theorem memory_below_iff (m : Memory) (n : Nat) : Memory.below m n = true ↔ ∀ c ∈ m, c.1 < n := by
  simp [Memory.below]

/-- A byte below every entry is not listed. -/
theorem read_of_lt {m : Memory} {a : Nat} (h : ∀ c ∈ m, a < c.1) : Memory.read m a = unlistedByte := by
  induction m with
  | nil => rfl
  | cons c m ih =>
    have hc := h c (by simp)
    have : a ≠ c.1 := by omega
    simp only [Memory.read, if_neg this]
    exact ih fun d hd => h d (List.mem_cons_of_mem _ hd)

theorem mem_write {m : Memory} {a : Nat} {v : Byte} {c : Host.Cell} (h : c ∈ Memory.write m a v) :
    c ∈ m ∨ (c = (a, v) ∧ v ≠ unlistedByte) := by
  induction m with
  | nil =>
    simp only [Memory.write] at h
    split at h <;> simp_all
  | cons d m ih =>
    simp only [Memory.write] at h
    split at h
    · split at h <;> (simp_all; try tauto)
    · split at h
      · split at h <;> (simp_all; try tauto)
      · rcases List.mem_cons.1 h with rfl | h
        · simp
        · rcases ih h with h | h
          · exact .inl (List.mem_cons_of_mem _ h)
          · exact .inr h

/-- A write keeps the canonical form. -/
theorem write_wf {m : Memory} (h : Memory.wf m = true) (a : Nat) (v : Byte) : Memory.wf (Memory.write m a v) = true := by
  rw [memory_wf_iff] at h ⊢
  obtain ⟨hp, hne⟩ := h
  refine ⟨?_, ?_⟩
  · induction m with
    | nil => simp only [Memory.write]; split <;> simp
    | cons c m ih =>
      obtain ⟨hc, hm⟩ := List.pairwise_cons.1 hp
      simp only [Memory.write]
      split
      · next hlt =>
        split
        · exact hp
        · refine List.pairwise_cons.2 ⟨?_, hp⟩
          intro d hd
          rcases List.mem_cons.1 hd with rfl | hd
          · exact hlt
          · exact lt_trans hlt (hc d hd)
      · split
        · next he =>
          subst he
          split
          · exact hm
          · exact List.pairwise_cons.2 ⟨fun d hd => hc d hd, hm⟩
        · next hnlt hneq =>
          refine List.pairwise_cons.2 ⟨?_, ih hm (fun d hd => hne d (List.mem_cons_of_mem _ hd))⟩
          intro d hd
          rcases mem_write hd with hd | ⟨rfl, -⟩
          · exact hc d hd
          · simp only; omega
  · intro c hc
    rcases mem_write hc with hc | ⟨rfl, hv⟩
    · exact hne c hc
    · exact hv

/-- A write below the bound keeps every entry below it. -/
theorem write_below {m : Memory} {n a : Nat} (h : Memory.below m n = true) (ha : a < n) (v : Byte) :
    Memory.below (Memory.write m a v) n = true := by
  rw [memory_below_iff] at h ⊢
  intro c hc
  rcases mem_write hc with hc | ⟨rfl, -⟩
  · exact h c hc
  · exact ha

/-- What a byte reads as after a write, in a canonical buffer. -/
theorem read_write {m : Memory} (h : Memory.wf m = true) (a : Nat) (v : Byte) (b : Nat) :
    Memory.read (Memory.write m a v) b = if b = a then v else Memory.read m b := by
  rw [memory_wf_iff] at h
  obtain ⟨hp, -⟩ := h
  induction m with
  | nil =>
    simp only [Memory.write]
    split <;> simp_all [Memory.read]
  | cons c m ih =>
    obtain ⟨hc, hm⟩ := List.pairwise_cons.1 hp
    simp only [Memory.write]
    split
    · next hlt =>
      split
      · next hv =>
        subst hv
        split
        · next hb =>
          subst hb
          refine read_of_lt fun d hd => ?_
          rcases List.mem_cons.1 hd with rfl | hd
          · exact hlt
          · exact lt_trans hlt (hc d hd)
        · rfl
      · simp only [Memory.read]
    · split
      · next he =>
        subst he
        split
        · next hv =>
          subst hv
          split
          · next hb => subst hb; exact read_of_lt hc
          · next hb => simp only [Memory.read, if_neg hb]
        · simp only [Memory.read]
          split <;> rfl
      · next hnlt hneq =>
        simp only [Memory.read]
        split
        · next hb =>
          have : b ≠ a := by omega
          rw [if_neg this]
        · exact ih hm

theorem writeBytes_wf {m : Memory} (h : Memory.wf m = true) (a : Nat) (vs : List Byte) :
    Memory.wf (Memory.writeBytes m a vs) = true := by
  induction vs generalizing m a with
  | nil => exact h
  | cons v vs ih => exact ih (write_wf h a v) (a + 1)

theorem writeBytes_below {m : Memory} {n a : Nat} {vs : List Byte} (h : Memory.below m n = true)
    (ha : a + vs.length ≤ n) : Memory.below (Memory.writeBytes m a vs) n = true := by
  induction vs generalizing m a with
  | nil => exact h
  | cons v vs ih =>
    simp only [List.length_cons] at ha
    exact ih (write_below h (by omega) v) (by omega)

/-- What a byte reads as after a run of bytes is written, in a canonical buffer. -/
theorem read_writeBytes {m : Memory} (h : Memory.wf m = true) (a : Nat) (vs : List Byte) (b : Nat) :
    Memory.read (Memory.writeBytes m a vs) b =
      if a ≤ b ∧ b < a + vs.length then vs.getD (b - a) 0 else Memory.read m b := by
  induction vs generalizing m a with
  | nil =>
    simp [Memory.writeBytes]
  | cons v vs ih =>
    rw [Memory.writeBytes, ih (write_wf h a v), read_write h]
    simp only [List.length_cons]
    by_cases hba : b = a
    · subst hba
      have h1 : ¬(b + 1 ≤ b ∧ b < b + 1 + vs.length) := by omega
      have h2 : b ≤ b ∧ b < b + (vs.length + 1) := by omega
      rw [if_neg h1, if_pos rfl, if_pos h2]
      simp
    · rw [if_neg hba]
      by_cases hin : a + 1 ≤ b ∧ b < a + 1 + vs.length
      · have h2 : a ≤ b ∧ b < a + (vs.length + 1) := by omega
        rw [if_pos hin, if_pos h2]
        have : b - a = (b - (a + 1)) + 1 := by omega
        rw [this, List.getD_cons_succ]
      · have h2 : ¬(a ≤ b ∧ b < a + (vs.length + 1)) := by omega
        rw [if_neg hin, if_neg h2]

@[simp] theorem readBytes_length (m : Memory) (a n : Nat) : (Memory.readBytes m a n).length = n := by
  simp [Memory.readBytes]

@[simp] theorem readBytes_getElem (m : Memory) (a n i : Nat) (h : i < (Memory.readBytes m a n).length) :
    (Memory.readBytes m a n)[i] = Memory.read m (a + i) := by
  simp [Memory.readBytes]

theorem readBytes_congr {m m' : Memory} {a n : Nat} (h : ∀ i < n, Memory.read m (a + i) = Memory.read m' (a + i)) :
    Memory.readBytes m a n = Memory.readBytes m' a n := by
  simp only [Memory.readBytes]
  exact List.map_congr_left fun i hi => h i (List.mem_range.1 hi)

end Sys2Proof.Machine
end

