-- ==== Sys2Proof/Laws/State.lean ====
section
/-! SUPPORT. What each named update does to each field, so that no later proof unfolds a record update. -/

namespace Sys2Proof.Machine

/-! ### raiseFault -/

@[simp] theorem raiseFault_cfg (c : FaultCode) (s : State) : (raiseFault c s).cfg = s.cfg := rfl
@[simp] theorem raiseFault_request (c : FaultCode) (s : State) : (raiseFault c s).request = s.request := rfl
@[simp] theorem raiseFault_wc (c : FaultCode) (s : State) : (raiseFault c s).wc = s.wc := rfl
@[simp] theorem raiseFault_result (c : FaultCode) (s : State) : (raiseFault c s).result = none := rfl
@[simp] theorem raiseFault_host (c : FaultCode) (s : State) : (raiseFault c s).host = s.host := rfl
@[simp] theorem raiseFault_fault (c : FaultCode) (s : State) : (raiseFault c s).engine.fault = true := rfl
@[simp] theorem raiseFault_faultCode (c : FaultCode) (s : State) :
    (raiseFault c s).engine.faultCode = c.number := rfl
@[simp] theorem raiseFault_fpcHits (c : FaultCode) (s : State) :
    (raiseFault c s).engine.fpcHits = s.engine.fpcHits := rfl
@[simp] theorem raiseFault_bdiHits (c : FaultCode) (s : State) :
    (raiseFault c s).engine.bdiHits = s.engine.bdiHits := rfl
@[simp] theorem raiseFault_samples (c : FaultCode) (s : State) :
    (raiseFault c s).engine.samples = s.engine.samples := rfl
@[simp] theorem raiseFault_table (c : FaultCode) (s : State) :
    (raiseFault c s).engine.table = s.engine.table := rfl
@[simp] theorem raiseFault_fpcEnable (c : FaultCode) (s : State) :
    (raiseFault c s).engine.fpcEnable = s.engine.fpcEnable := rfl
@[simp] theorem raiseFault_bdiEnable (c : FaultCode) (s : State) :
    (raiseFault c s).engine.bdiEnable = s.engine.bdiEnable := rfl
@[simp] theorem raiseFault_extracted (c : FaultCode) (s : State) :
    (raiseFault c s).engine.extracted = s.engine.extracted := rfl

/-! ### refuse -/

@[simp] theorem refuse_engine (s : State) : (refuse s).engine = s.engine := rfl
@[simp] theorem refuse_cfg (s : State) : (refuse s).cfg = s.cfg := rfl
@[simp] theorem refuse_request (s : State) : (refuse s).request = s.request := rfl
@[simp] theorem refuse_wc (s : State) : (refuse s).wc = s.wc := rfl
@[simp] theorem refuse_result (s : State) : (refuse s).result = none := rfl
@[simp] theorem refuse_host (s : State) : (refuse s).host = s.host := rfl

/-! ### resetEngine -/

@[simp] theorem resetEngine_engine (s : State) : (resetEngine s).engine = Engine.reset := rfl
@[simp] theorem resetEngine_cfg (s : State) : (resetEngine s).cfg = s.cfg := rfl
@[simp] theorem resetEngine_request (s : State) : (resetEngine s).request = s.request := rfl
@[simp] theorem resetEngine_wc (s : State) : (resetEngine s).wc = s.wc := rfl
@[simp] theorem resetEngine_result (s : State) : (resetEngine s).result = none := rfl
@[simp] theorem resetEngine_host (s : State) : (resetEngine s).host = s.host := rfl

/-! ### lendRequest -/

@[simp] theorem lendRequest_engine (r : Request) (s : State) : (lendRequest r s).engine = s.engine := rfl
@[simp] theorem lendRequest_cfg (r : Request) (s : State) : (lendRequest r s).cfg = s.cfg := rfl
@[simp] theorem lendRequest_request (r : Request) (s : State) : (lendRequest r s).request = r := rfl
@[simp] theorem lendRequest_wc (r : Request) (s : State) : (lendRequest r s).wc = s.wc := rfl
@[simp] theorem lendRequest_result (r : Request) (s : State) : (lendRequest r s).result = none := rfl
@[simp] theorem lendRequest_host (r : Request) (s : State) : (lendRequest r s).host = s.host := rfl

/-! ### reject and markCompressed -/

@[simp] theorem reject_rawLen (p : Payload) : (reject p).rawLen = p.rawLen := rfl
@[simp] theorem reject_rawBytes (p : Payload) : (reject p).rawBytes = p.rawBytes := rfl
@[simp] theorem reject_isCompressed (p : Payload) : (reject p).isCompressed = false := rfl
@[simp] theorem reject_compressedBytes (p : Payload) : (reject p).compressedBytes = p.compressedBytes := rfl
@[simp] theorem reject_compressedLength (p : Payload) : (reject p).compressedLength = p.compressedLength := rfl
@[simp] theorem reject_isHalfTerminated (p : Payload) : (reject p).isHalfTerminated = false := rfl

@[simp] theorem markCompressed_rawLen (p : Payload) (n : Nat) : (p.markCompressed n).rawLen = p.rawLen := rfl
@[simp] theorem markCompressed_rawBytes (p : Payload) (n : Nat) : (p.markCompressed n).rawBytes = p.rawBytes := rfl
@[simp] theorem markCompressed_isCompressed (p : Payload) (n : Nat) : (p.markCompressed n).isCompressed = true := rfl
@[simp] theorem markCompressed_compressedBytes (p : Payload) (n : Nat) :
    (p.markCompressed n).compressedBytes = p.compressedBytes := rfl
@[simp] theorem markCompressed_compressedLength (p : Payload) (n : Nat) :
    (p.markCompressed n).compressedLength = p.compressedLength := rfl
@[simp] theorem markCompressed_isHalfTerminated (p : Payload) (n : Nat) :
    (p.markCompressed n).isHalfTerminated = decide (n % 2 = 1) := rfl

/-! ### extractPattern -/

section
variable (cfg : Knobs) (e : Engine)

@[simp] theorem extractPattern_fpcHits : (extractPattern cfg e).fpcHits = Vector.replicate 3 0 := by simp only [extractPattern]
@[simp] theorem extractPattern_bdiHits : (extractPattern cfg e).bdiHits = Vector.replicate 8 0 := by simp only [extractPattern]
@[simp] theorem extractPattern_samples : (extractPattern cfg e).samples = e.samples := by simp only [extractPattern]
@[simp] theorem extractPattern_table :
    (extractPattern cfg e).table = (keptFour cfg e).filterMap Candidate.entry := by simp only [extractPattern]
@[simp] theorem extractPattern_extracted : (extractPattern cfg e).extracted = true := by simp only [extractPattern]
@[simp] theorem extractPattern_fault : (extractPattern cfg e).fault = e.fault := by simp only [extractPattern]
@[simp] theorem extractPattern_faultCode : (extractPattern cfg e).faultCode = e.faultCode := by simp only [extractPattern]

theorem extractPattern_fpcEnable (s : Fin 3) :
    (extractPattern cfg e).fpcEnable[s] = ((keptFour cfg e).map Candidate.kind).contains (.fpc s) := by
  simp [extractPattern]

theorem extractPattern_bdiEnable (m : Fin 8) :
    (extractPattern cfg e).bdiEnable[m] = ((keptFour cfg e).map Candidate.kind).contains (.bdi m) := by
  simp [extractPattern]

end

/-! ### The named parameters of a configuration -/

@[simp] theorem pick_decided {α : Type} (d : α) (own : Nat → α) : ParamChoice.decided.pick d own = d := rfl
@[simp] theorem pick_other {α : Type} (d : α) (own : Nat → α) (n : Nat) : (ParamChoice.other n).pick d own = own n := rfl

@[simp] theorem defaultKnobs_params : defaultKnobs.params = defaultParams := rfl

/-- Each parameter is its default where the configuration chooses it. -/
theorem params_deltaRange {cfg : Knobs} (h : cfg.deltaRange = .decided) : cfg.params.deltaRange = deltaRangeDefault := by
  simp [Knobs.params, h]
theorem params_fpcSymbol {cfg : Knobs} (h : cfg.fpcSymbol = .decided) : cfg.params.fpcSymbol = fpcSymbolDefault := by
  simp [Knobs.params, h]
theorem params_savingsFPC {cfg : Knobs} (h : cfg.savingsFPC = .decided) : cfg.params.savingsFPC = savingsFPCDefault := by
  simp [Knobs.params, h]
theorem params_savingsBDI {cfg : Knobs} (h : cfg.savingsBDI = .decided) : cfg.params.savingsBDI = savingsBDIDefault := by
  simp [Knobs.params, h]
theorem params_savingsSample {cfg : Knobs} (h : cfg.savingsSample = .decided) :
    cfg.params.savingsSample = savingsSampleDefault := by
  simp [Knobs.params, h]

/-- A configuration that chooses every default runs with the default parameters. -/
theorem params_of_decided {cfg : Knobs} (h1 : cfg.deltaRange = .decided) (h2 : cfg.fpcSymbol = .decided)
    (h3 : cfg.savingsFPC = .decided) (h4 : cfg.savingsBDI = .decided) (h5 : cfg.savingsSample = .decided) :
    cfg.params = defaultParams := by
  simp [Knobs.params, defaultParams, h1, h2, h3, h4, h5]

/-! ### constructed -/

@[simp] theorem constructed_engine (cfg : Knobs) : (State.constructed cfg).engine = Engine.reset := rfl
@[simp] theorem constructed_cfg (cfg : Knobs) : (State.constructed cfg).cfg = cfg := rfl
@[simp] theorem constructed_result (cfg : Knobs) : (State.constructed cfg).result = none := rfl
@[simp] theorem constructed_host (cfg : Knobs) : (State.constructed cfg).host = [] := rfl

end Sys2Proof.Machine
end

