-- ==== Sys2Proof/Laws/Packer.lean ====
section
/-! SUPPORT. The word packer's operations, said once: what bytesToWords and wordsToBytes answer. -/

namespace Sys2Proof.Machine

theorem littleEndian_lt (bs : List Byte) : littleEndian bs < 256 ^ bs.length := by
  induction bs with
  | nil => simp [littleEndian]
  | cons b bs ih =>
    have hb := b.isLt
    simp only [littleEndian, List.length_cons, pow_succ]
    omega

@[simp] theorem groupWords_length (step n : Nat) (bs : List Byte) : (groupWords step n bs).length = n := by
  induction n generalizing bs with
  | zero => rfl
  | succ n ih => simp [groupWords, ih]

theorem groupWords_getElem (step n : Nat) (bs : List Byte) (i : Nat) (h : i < (groupWords step n bs).length) :
    (groupWords step n bs)[i] = littleEndian ((bs.drop (i * step)).take step) := by
  induction n generalizing bs i with
  | zero => simp at h
  | succ n ih =>
    cases i with
    | zero => simp [groupWords]
    | succ i =>
      simp only [groupWords, List.getElem_cons_succ]
      rw [ih, List.drop_drop]
      congr 3
      ring

/-- bytesToWords on the whole block never fails (R57). -/
theorem bytesToWords_block (p : Payload) {step : Nat} (h : step = 2 ∨ step = 4 ∨ step = 8) :
    bytesToWords p Config.block step =
      .ok (groupWords step (64 / step) (Memory.readBytes p.rawBytes 0 64)) := by
  rcases h with rfl | rfl | rfl <;> rfl

@[simp] theorem symbolNibbles_length (y : Symbol) : (symbolNibbles y).length = y.nibbles := by
  simp [symbolNibbles]

/-- The stream's length is the sum of the nibble counts (R94). -/
theorem nibbleStream_length (ys : List Symbol) : (nibbleStream ys).length = (ys.map Symbol.nibbles).sum := by
  simp [nibbleStream, List.length_flatMap]

@[simp] theorem nibbleStream_cons (y : Symbol) (ys : List Symbol) :
    nibbleStream (y :: ys) = symbolNibbles y ++ nibbleStream ys := rfl

@[simp] theorem packNibbles_length (ns : List Nibble) : (packNibbles ns).length = (ns.length + 1) / 2 := by
  induction ns using packNibbles.induct with
  | case1 => rfl
  | case2 => simp [packNibbles]
  | case3 a b r ih => simp only [packNibbles, List.length_cons, ih]; omega

/-- The symbols pass the operand checks of wordsToBytes and fit the block (R93, R97). -/
structure Packable (ys : List Symbol) : Prop where
  few : ys.length ≤ Config.symMax
  narrow : ∀ y ∈ ys, y.nibbles ≤ 8 ∧ y.value < 2 ^ 32
  fits : (nibbleStream ys).length ≤ 128

/-- What wordsToBytes answers on packable symbols, whatever the budget (R96). -/
theorem wordsToBytes_ok (p : Payload) (budget : Nat) {ys : List Symbol} (h : Packable ys) :
    wordsToBytes p budget ys = .ok
      { p with
        isCompressed := true
        compressedBytes := Memory.writeBytes p.compressedBytes 0 (packNibbles (nibbleStream ys))
        compressedLength := BitVec.ofNat 7 (((nibbleStream ys).length + 1) / 2)
        isHalfTerminated := decide ((nibbleStream ys).length % 2 = 1) } := by
  obtain ⟨h1, h2, h3⟩ := h
  have hany : (ys.any fun y => decide (8 < y.nibbles) || decide (2 ^ 32 ≤ y.value)) = false := by
    rw [List.any_eq_false]
    intro y hy
    have := h2 y hy
    simp only [Bool.or_eq_true, decide_eq_true_eq, not_or]
    omega
  have hfit : ¬Config.block < ((nibbleStream ys).length + 1) / 2 := by simp only [Config.block]; omega
  have hcap : 0 + (packNibbles (nibbleStream ys)).length ≤ Config.cbCap := by
    simp only [packNibbles_length, Config.cbCap]; omega
  have hsym : ¬Config.symMax < ys.length := by omega
  simp only [wordsToBytes, if_neg hsym, hany, if_neg hfit, memWriteCompressed, if_pos hcap]
  by_cases hb : ((nibbleStream ys).length + 1) / 2 = budget
  · subst hb; simp [Payload.markCompressed, bind, Except.bind, pure, Except.pure]
  · simp [Payload.markCompressed, bind, Except.bind, pure, Except.pure, hb]

/-- Symbols that are not packable raise `Capacity` (R97, R274). -/
theorem wordsToBytes_capacity (p : Payload) (budget : Nat) {ys : List Symbol} (h : ¬Packable ys) :
    wordsToBytes p budget ys = .error (.raise .capacity) := by
  simp only [wordsToBytes]
  split
  · rfl
  · next h1 =>
    split
    · rfl
    · next h2 =>
      split
      · rfl
      · next h3 =>
        refine absurd ⟨by omega, ?_, ?_⟩ h
        · intro y hy
          have h2 : (ys.any fun y => decide (8 < y.nibbles) || decide (2 ^ 32 ≤ y.value)) = false := by simpa using h2
          have := (List.any_eq_false.1 h2) y hy
          simp only [Bool.or_eq_true, decide_eq_true_eq, not_or] at this
          omega
        · simp only [Config.block] at h3; omega

/-- wordsToBytes completes or raises `Capacity`; it makes no access outside the buffer. -/
theorem wordsToBytes_cases (p : Payload) (budget : Nat) (ys : List Symbol) :
    (∃ q, wordsToBytes p budget ys = .ok q) ∨ wordsToBytes p budget ys = .error (.raise .capacity) := by
  by_cases h : Packable ys
  · exact .inl ⟨_, wordsToBytes_ok p budget h⟩
  · exact .inr (wordsToBytes_capacity p budget h)

end Sys2Proof.Machine
end

