-- ==== Sys2Proof/Laws/Codecs.lean ====
section
/-! SUPPORT. The codecs, said once: each plan as a pure function of the block's words, and when its symbols are
packable. -/

namespace Sys2Proof.Machine

/-- The block's words at a granularity, as bytesToWords gives them. -/
def blockWords (p : Payload) (w : Nat) : List Nat := groupWords w (64 / w) (Memory.readBytes p.rawBytes 0 64)

/-- The block's sixteen 4-byte words as bits. -/
def blockWordBits (p : Payload) : List Word32 := (blockWords p 4).map (BitVec.ofNat 32)

@[simp] theorem blockWords_length (p : Payload) (w : Nat) : (blockWords p w).length = 64 / w := by
  simp [blockWords]

@[simp] theorem blockWordBits_length (p : Payload) : (blockWordBits p).length = 16 := by
  simp [blockWordBits]

theorem blockWords_lt {p : Payload} {w x : Nat} (h : x ∈ blockWords p w) : x < 256 ^ w := by
  obtain ⟨i, hi, rfl⟩ := List.getElem_of_mem h
  simp only [blockWords, groupWords_getElem]
  refine lt_of_lt_of_le (littleEndian_lt _) (Nat.pow_le_pow_right (by omega) ?_)
  simp

theorem blockWords_rawBytes {p q : Payload} (h : p.rawBytes = q.rawBytes) (w : Nat) :
    blockWords p w = blockWords q w := by
  simp [blockWords, h]

theorem blockWords32_eq (p : Payload) : blockWords32 p = .ok (blockWordBits p) := by
  simp [blockWords32, bytesToWords_block, blockWordBits, blockWords, bind, Except.bind, pure, Except.pure]

theorem bytesToWords_eq (p : Payload) {w : Nat} (h : w = 2 ∨ w = 4 ∨ w = 8) :
    bytesToWords p Config.block w = .ok (blockWords p w) := bytesToWords_block p h

/-! ### Applying a plan -/

theorem applyPlan_rejected (p : Payload) (n : Nat) : applyPlan p (Plan.rejected n) = .ok (reject p, false) := rfl

/-- Apply completes or raises `Capacity`; it makes no access outside the buffer. -/
theorem applyPlan_cases (p : Payload) (plan : Plan) :
    (∃ q b, applyPlan p plan = .ok (q, b)) ∨ applyPlan p plan = .error (.raise .capacity) := by
  match h : plan.symbols with
  | none => exact .inl ⟨reject p, false, by simp [applyPlan, h]⟩
  | some ys =>
    rcases wordsToBytes_cases p plan.size ys with ⟨q, hq⟩ | hq
    · exact .inl ⟨q, true, by simp [applyPlan, h, hq, bind, Except.bind, pure, Except.pure]⟩
    · exact .inr (by simp [applyPlan, h, hq, bind, Except.bind])

/-! ### Frequent-pattern compression -/

theorem staticFPCplan_eq (k : Params) (p : Payload) :
    staticFPCplan k p = .ok (planOfSymbols ((blockWordBits p).map (ladderSymbol k))) := by
  simp [staticFPCplan, blockWords32_eq, bind, Except.bind, pure, Except.pure]

/-- Whatever `fpcSymbol` a configuration has, its symbols have their rung's nibble count and lie within it (R132). -/
theorem ladderSymbol_cost (cfg : Knobs) (u : Word32) :
    (ladderSymbol cfg.params u).nibbles = fpcCost (fpcRung u) ∧
      (ladderSymbol cfg.params u).value < 16 ^ fpcCost (fpcRung u) := by
  have h16 : ∀ b : BitVec 16, b.toNat < 65536 := fun b => b.isLt
  have h8 : ∀ b : BitVec 8, b.toNat < 256 := fun b => b.isLt
  have hu := u.isLt
  have a0 := h16 (u.extractLsb' 0 16)
  have a1 := h16 (u.extractLsb' 16 16)
  have b0 := h8 (u.extractLsb' 0 8)
  have b1 := h8 (u.extractLsb' 16 8)
  unfold ladderSymbol
  generalize fpcRung u = r
  match hc : cfg.fpcSymbol with
  | .decided =>
    rw [params_fpcSymbol hc]
    cases r <;> simp only [fpcSymbolDefault, fpcCost, true_and, Nat.reducePow] <;> omega
  | .other n =>
    simp only [Knobs.params, hc, pick_other, otherFpcSymbol, true_and]
    exact Nat.mod_lt _ (by positivity)

theorem fpcCost_le (r : FpcRung) : fpcCost r ≤ 8 := by cases r <;> decide

/-- So they fit the packer: at most 8 nibbles and 32 bits (R93). -/
theorem ladderSymbol_narrow (cfg : Knobs) (u : Word32) :
    (ladderSymbol cfg.params u).nibbles ≤ 8 ∧ (ladderSymbol cfg.params u).value < 2 ^ 32 := by
  obtain ⟨h1, h2⟩ := ladderSymbol_cost cfg u
  have h8 := fpcCost_le (fpcRung u)
  have := Nat.pow_le_pow_right (show 0 < 16 by omega) h8
  omega

/-- Few, narrow symbols whose plan is accepted are packable. -/
theorem planOfSymbols_packable {ys zs : List Symbol} (hl : ys.length ≤ 35)
    (hn : ∀ y ∈ ys, y.nibbles ≤ 8 ∧ y.value < 2 ^ 32) (h : (planOfSymbols ys).symbols = some zs) :
    zs = ys ∧ Packable zs := by
  simp only [planOfSymbols] at h
  split at h
  · next hs =>
    obtain rfl : ys = zs := by simpa using h
    refine ⟨rfl, hl, hn, ?_⟩
    rw [nibbleStream_length]
    simp only [Config.block] at hs
    omega
  · simp [Plan.rejected] at h

/-! ### Base-delta-immediate -/

/-- One turn of the selection as a pure function of the block's words. -/
def offerAttempt (k : Params) (p : Payload) (enabled : Vector Bool 8) (sel : Selection) (m : BdiMethod) : Selection :=
  if enabled[m.slot] then sel.offer m (m.attempt k (blockWords p m.width)) else sel

theorem bdiMethods_width {m : BdiMethod} (h : m ∈ bdiMethods) : m.width = 2 ∨ m.width = 4 ∨ m.width = 8 := by
  simp only [bdiMethods, List.mem_cons, List.not_mem_nil, or_false] at h
  rcases h with h | h | h | h | h | h | h | h | h | h <;> subst h <;> simp

theorem bdiTry_eq (k : Params) (p : Payload) (enabled : Vector Bool 8) (sel : Selection) {m : BdiMethod}
    (h : m ∈ bdiMethods) : bdiTry k p enabled sel m = .ok (offerAttempt k p enabled sel m) := by
  simp only [bdiTry, offerAttempt]
  split
  · simp [bytesToWords_eq p (bdiMethods_width h), bind, Except.bind, pure, Except.pure]
  · rfl

theorem foldlM_bdiTry (k : Params) (p : Payload) (enabled : Vector Bool 8) (ms : List BdiMethod)
    (h : ∀ m ∈ ms, m ∈ bdiMethods) (sel : Selection) :
    ms.foldlM (bdiTry k p enabled) sel = .ok (ms.foldl (offerAttempt k p enabled) sel) := by
  induction ms generalizing sel with
  | nil => rfl
  | cons m ms ih =>
    rw [List.foldlM_cons, bdiTry_eq k p enabled sel (h m (by simp))]
    exact ih (fun x hx => h x (List.mem_cons_of_mem _ hx)) _

/-- The selection as a pure function of the block's words (R137). -/
def selection (k : Params) (p : Payload) (enabled : Vector Bool 8) : Selection :=
  bdiMethods.foldl (offerAttempt k p enabled) Selection.start

theorem bdiSelect_eq (k : Params) (p : Payload) (enabled : Vector Bool 8) :
    bdiSelect k p enabled = .ok (selection k p enabled) :=
  foldlM_bdiTry k p enabled bdiMethods (fun _ h => h) Selection.start

theorem bdiPlan_eq (k : Params) (p : Payload) (enabled : Vector Bool 8) :
    bdiPlan k p enabled = .ok (selection k p enabled).plan := by
  simp [bdiPlan, bdiSelect_eq, bind, Except.bind, pure, Except.pure]

/-- An invariant of the selection: it holds at the start and every attempt that replaces the best keeps it. -/
theorem selection_induction {k : Params} {p : Payload} {enabled : Vector Bool 8} (P : Selection → Prop)
    (h0 : P Selection.start)
    (h1 : ∀ sel m ys, m ∈ bdiMethods → enabled[m.slot] = true → P sel →
      (m.attempt k (blockWords p m.width)).symbols = some ys →
      (m.attempt k (blockWords p m.width)).size < sel.best →
      P { best := (m.attempt k (blockWords p m.width)).size, winner := some (m, ys) }) :
    P (selection k p enabled) := by
  have : ∀ ms : List BdiMethod, (∀ m ∈ ms, m ∈ bdiMethods) → ∀ sel, P sel →
      P (ms.foldl (offerAttempt k p enabled) sel) := by
    intro ms
    induction ms with
    | nil => intro _ sel h; exact h
    | cons m ms ih =>
      intro hm sel hs
      refine ih (fun x hx => hm x (List.mem_cons_of_mem _ hx)) _ ?_
      simp only [offerAttempt]
      split
      · next he =>
        simp only [Selection.offer]
        split
        · next ys hy =>
          split
          · next hlt => exact h1 sel m ys (hm m (by simp)) he hs hy hlt
          · exact hs
        · exact hs
      · exact hs
  exact this bdiMethods (fun _ h => h) _ h0

/-- The winner of a selection is an enabled method, its symbols are its attempt's, and the best is its size, below
64. -/
theorem selection_winner {k : Params} {p : Payload} {enabled : Vector Bool 8} {m : BdiMethod} {ys : List Symbol}
    (h : (selection k p enabled).winner = some (m, ys)) :
    m ∈ bdiMethods ∧ enabled[m.slot] = true ∧ (m.attempt k (blockWords p m.width)).symbols = some ys ∧
      (selection k p enabled).best = (m.attempt k (blockWords p m.width)).size ∧
      (selection k p enabled).best < 64 := by
  have key : (selection k p enabled).best ≤ 64 ∧
      ∀ m ys, (selection k p enabled).winner = some (m, ys) →
        m ∈ bdiMethods ∧ enabled[m.slot] = true ∧ (m.attempt k (blockWords p m.width)).symbols = some ys ∧
        (selection k p enabled).best = (m.attempt k (blockWords p m.width)).size ∧
        (selection k p enabled).best < 64 := by
    refine selection_induction
      (P := fun sel => sel.best ≤ 64 ∧ ∀ m ys, sel.winner = some (m, ys) →
        m ∈ bdiMethods ∧ enabled[m.slot] = true ∧ (m.attempt k (blockWords p m.width)).symbols = some ys ∧
        sel.best = (m.attempt k (blockWords p m.width)).size ∧ sel.best < 64) ?_ ?_
    · exact ⟨le_refl _, fun m ys h => by simp [Selection.start] at h⟩
    · rintro sel m ys hm he ⟨hb, -⟩ hy hlt
      refine ⟨by simp only; omega, ?_⟩
      intro m' ys' h
      simp only [Option.some.injEq, Prod.mk.injEq] at h
      obtain ⟨rfl, rfl⟩ := h
      exact ⟨hm, he, hy, rfl, by simp only; omega⟩
  exact key.2 m ys h

theorem literal_narrow {v w : Nat} (hw : w = 2 ∨ w = 4 ∨ w = 8) (hv : v < 256 ^ w) :
    ∀ y ∈ literal v w, y.nibbles ≤ 8 ∧ y.value < 2 ^ 32 := by
  intro y hy
  rcases hw with rfl | rfl | rfl
  · simp only [literal, show (2 : Nat) ≠ 8 by decide, if_false, List.mem_singleton] at hy
    subst hy; simp only; omega
  · simp only [literal, show (4 : Nat) ≠ 8 by decide, if_false, List.mem_singleton] at hy
    subst hy; simp only; omega
  · simp only [literal, if_true, List.mem_cons, List.not_mem_nil, or_false] at hy
    rcases hy with rfl | rfl <;> simp only <;> omega

theorem literal_nibbles {v w : Nat} (hw : w = 2 ∨ w = 4 ∨ w = 8) :
    ((literal v w).map Symbol.nibbles).sum = 2 * w ∧ (literal v w).length ≤ 2 ∧ (w = 2 → (literal v w).length = 1) := by
  rcases hw with rfl | rfl | rfl <;> simp [literal]

/-- Every word is given a base, and base 1, if chosen, is one of the words. -/
theorem assignBases_spec {range base0 : Nat} {base1 : Option Nat} {ws : List Nat} {as : List Nat} {b1 : Option Nat}
    (h : assignBases range base0 base1 ws = some (as, b1)) :
    as.length = ws.length ∧ (∀ b, b1 = some b → base1 = some b ∨ (base1 = none ∧ b ∈ ws)) := by
  induction ws generalizing base1 as b1 with
  | nil =>
    simp only [assignBases, Option.some.injEq, Prod.mk.injEq] at h
    obtain ⟨rfl, rfl⟩ := h
    exact ⟨rfl, fun b hb => .inl hb⟩
  | cons x xs ih =>
    simp only [assignBases] at h
    split at h
    · obtain ⟨⟨as', b'⟩, h', he⟩ := Option.map_eq_some_iff.1 h
      simp only [Prod.mk.injEq] at he
      obtain ⟨rfl, rfl⟩ := he
      obtain ⟨h1, h2⟩ := ih h'
      refine ⟨by simp [h1], fun b hb => ?_⟩
      rcases h2 b hb with h | ⟨h, hm⟩
      · exact .inl h
      · exact .inr ⟨h, List.mem_cons_of_mem _ hm⟩
    · split at h
      · obtain ⟨⟨as', b'⟩, h', he⟩ := Option.map_eq_some_iff.1 h
        simp only [Prod.mk.injEq] at he
        obtain ⟨rfl, rfl⟩ := he
        obtain ⟨h1, h2⟩ := ih h'
        refine ⟨by simp [h1], fun b hb => ?_⟩
        rcases h2 b hb with h | ⟨h, hm⟩
        · exact .inr ⟨rfl, by simp at h; simp [h]⟩
        · simp at h
      · split at h
        · obtain ⟨⟨as', b'⟩, h', he⟩ := Option.map_eq_some_iff.1 h
          simp only [Prod.mk.injEq] at he
          obtain ⟨rfl, rfl⟩ := he
          obtain ⟨h1, h2⟩ := ih h'
          refine ⟨by simp [h1], fun b hb => ?_⟩
          rcases h2 b hb with h | ⟨h, hm⟩
          · exact .inl h
          · simp at h
        · simp at h

/-- What an accepted multi-base attempt looks like: its size, its number of bases and its symbols (R115 to R117). -/
theorem multiBaseCompress_accepted {k : Params} {ws : List Nat} {d w : Nat} {ys : List Symbol}
    (h : (multiBaseCompress k ws d w).symbols = some ys) :
    ∃ base0 as, ∃ b1 : Option Nat, ws.head? = some base0 ∧
      assignBases (k.deltaRange d) base0 none ws = some (as, b1) ∧
      (multiBaseCompress k ws d w).size = d * ws.length + w * (1 + b1.toList.length) ∧
      d * ws.length + w * (1 + b1.toList.length) < ws.length * w ∧
      ys = literal base0 w ++ b1.toList.flatMap (fun b => literal b w) ++ List.zipWith (deltaSymbol d) ws as := by
  match ws with
  | [] => simp [multiBaseCompress, Plan.rejected] at h
  | b0 :: rest =>
    match ha : assignBases (k.deltaRange d) b0 none (b0 :: rest) with
    | none => simp [multiBaseCompress, ha, Plan.rejected] at h
    | some (as, b1) =>
      by_cases hle : (b0 :: rest).length * w ≤ d * (b0 :: rest).length + w * (1 + b1.toList.length)
      · simp only [multiBaseCompress, ha, if_pos hle] at h
        simp [Plan.rejected] at h
      · refine ⟨b0, as, b1, rfl, ha, ?_, by omega, ?_⟩
        · simp only [multiBaseCompress, ha, if_neg hle]
        · simp only [multiBaseCompress, ha, if_neg hle, Option.some.injEq] at h
          exact h.symm

/-- The delta widths the methods use (R136). -/
theorem attempt_kind {m : BdiMethod} (h : m ∈ bdiMethods) :
    m.kind = .sameValue ∨ ∃ d, m.kind = .multiBase d ∧ (d = 1 ∨ d = 2 ∨ d = 4) := by
  simp only [bdiMethods, List.mem_cons, List.not_mem_nil, or_false] at h
  rcases h with h | h | h | h | h | h | h | h | h | h <;> subst h <;> simp

theorem deltaSymbol_narrow {d : Nat} (hd : d = 1 ∨ d = 2 ∨ d = 4) (x b : Nat) :
    (deltaSymbol d x b).nibbles ≤ 8 ∧ (deltaSymbol d x b).value < 2 ^ 32 := by
  rcases hd with rfl | rfl | rfl
  · refine ⟨by simp [deltaSymbol], ?_⟩
    have := Int.emod_lt_of_pos ((x : Int) - b) (show (0 : Int) < 2 ^ (8 * 1) by norm_num)
    simp only [deltaSymbol]; omega
  · refine ⟨by simp [deltaSymbol], ?_⟩
    have := Int.emod_lt_of_pos ((x : Int) - b) (show (0 : Int) < 2 ^ (8 * 2) by norm_num)
    simp only [deltaSymbol]; omega
  · refine ⟨by simp [deltaSymbol], ?_⟩
    have := Int.emod_lt_of_pos ((x : Int) - b) (show (0 : Int) < 2 ^ (8 * 4) by norm_num)
    simp only [deltaSymbol]; omega

/-- The nibbles of the deltas: `2d` for each word. -/
theorem zipWith_deltaSymbol_nibbles (d : Nat) (ws as : List Nat) (h : as.length = ws.length) :
    ((List.zipWith (deltaSymbol d) ws as).map Symbol.nibbles).sum = 2 * d * ws.length := by
  induction ws generalizing as with
  | nil => simp
  | cons x xs ih =>
    match as with
    | [] => simp at h
    | a :: as =>
      simp only [List.zipWith_cons_cons, List.map_cons, List.sum_cons, List.length_cons]
      rw [ih as (by simpa using h)]
      simp only [deltaSymbol]
      ring

/-- The symbols of an accepted attempt on the block's words are few and narrow, and make exactly its size in bytes
(R139). -/
theorem attempt_accepted {p : Payload} {m : BdiMethod} {ys : List Symbol} {k : Params} (hm : m ∈ bdiMethods)
    (h : (m.attempt k (blockWords p m.width)).symbols = some ys) :
    ys.length ≤ 34 ∧ (∀ y ∈ ys, y.nibbles ≤ 8 ∧ y.value < 2 ^ 32) ∧
      (ys.map Symbol.nibbles).sum = 2 * (m.attempt k (blockWords p m.width)).size ∧
      (m.attempt k (blockWords p m.width)).size < 64 := by
  have hw := bdiMethods_width hm
  have hlen := blockWords_length p m.width
  rcases attempt_kind hm with hk | ⟨d, hk, hd⟩
  · simp only [BdiMethod.attempt, hk] at h ⊢
    match hb : blockWords p m.width with
    | [] =>
      rw [hb] at hlen
      rcases hw with hw | hw | hw <;> rw [hw] at hlen <;> simp at hlen
    | v :: vs =>
      rw [hb] at h
      simp only [sameValue] at h ⊢
      split at h
      · next he =>
        rw [if_pos he]
        simp only [Option.some.injEq] at h
        subst h
        have hv : v < 256 ^ m.width := blockWords_lt (p := p) (by simp [hb])
        obtain ⟨h1, h2, -⟩ := literal_nibbles (v := v) hw
        refine ⟨by omega, literal_narrow hw hv, h1, ?_⟩
        simp only; omega
      · simp [Plan.rejected] at h
  · simp only [BdiMethod.attempt, hk] at h ⊢
    obtain ⟨b0, as, b1, hhead, hassign, hsize, hlt, rfl⟩ := multiBaseCompress_accepted h
    rw [hsize]
    obtain ⟨hal, hb1⟩ := assignBases_spec hassign
    have hb0 : b0 < 256 ^ m.width := blockWords_lt (p := p) (List.mem_of_mem_head? hhead)
    obtain ⟨l1, l2, l3⟩ := literal_nibbles (v := b0) hw
    have hz : (List.zipWith (deltaSymbol d) (blockWords p m.width) as).length = 64 / m.width := by
      simp [hal]
    have hzn := zipWith_deltaSymbol_nibbles d _ as hal
    have hzs : ∀ y ∈ List.zipWith (deltaSymbol d) (blockWords p m.width) as, y.nibbles ≤ 8 ∧ y.value < 2 ^ 32 := by
      intro y hy
      obtain ⟨i, hi, rfl⟩ := List.getElem_of_mem hy
      rw [List.getElem_zipWith]
      exact deltaSymbol_narrow hd _ _
    rw [hlen] at hlt hzn
    rw [hlen]
    have h64 : 64 / m.width * m.width = 64 := by rcases hw with hw | hw | hw <;> rw [hw]
    match b1, hb1, hlt with
    | none, _, hlt =>
      simp only [Option.toList_none, List.flatMap_nil, List.append_nil, List.length_nil] at hlt ⊢
      refine ⟨?_, ?_, ?_, by omega⟩
      · rw [List.length_append, hz]
        rcases hw with hw | hw | hw <;> simp only [hw] at l2 l3 ⊢ <;> simp at l3 ⊢ <;> omega
      · intro y hy
        rcases List.mem_append.1 hy with hy | hy
        · exact literal_narrow hw hb0 y hy
        · exact hzs y hy
      · rw [List.map_append, List.sum_append, l1, hzn]; ring
    | some b, hb1, hlt =>
      have hb : b < 256 ^ m.width := by
        rcases hb1 b rfl with h | ⟨-, h⟩
        · simp at h
        · exact blockWords_lt h
      obtain ⟨r1, r2, r3⟩ := literal_nibbles (v := b) hw
      simp only [Option.toList_some, List.flatMap_cons, List.flatMap_nil, List.append_nil, List.length_singleton] at hlt ⊢
      refine ⟨?_, ?_, ?_, by omega⟩
      · rw [List.length_append, List.length_append, hz]
        rcases hw with hw | hw | hw <;> simp only [hw] at l2 l3 r2 r3 ⊢ <;> simp at l3 r3 ⊢ <;> omega
      · intro y hy
        rcases List.mem_append.1 hy with hy | hy
        · rcases List.mem_append.1 hy with hy | hy
          · exact literal_narrow hw hb0 y hy
          · exact literal_narrow hw hb y hy
        · exact hzs y hy
      · rw [List.map_append, List.map_append, List.sum_append, List.sum_append, l1, r1, hzn]; ring

/-- The symbols of an accepted BDI plan are packable (R138, R139). -/
theorem selection_plan_packable {p : Payload} {k : Params} {enabled : Vector Bool 8} {ys : List Symbol}
    (h : (selection k p enabled).plan.symbols = some ys) : Packable ys := by
  match hw : (selection k p enabled).winner with
  | none => simp [Selection.plan, hw, Plan.rejected] at h
  | some (m, zs) =>
    obtain ⟨hm, -, hz, hbest, hlt⟩ := selection_winner hw
    obtain ⟨a1, a2, a3, a4⟩ := attempt_accepted hm hz
    simp only [Selection.plan, hw, Option.some.injEq] at h
    subst h
    have htag : m.tag < 16 := by
      simp only [bdiMethods, List.mem_cons, List.not_mem_nil, or_false] at hm
      rcases hm with h | h | h | h | h | h | h | h | h | h <;> subst h <;> simp
    refine ⟨by simp only [List.length_cons, Config.symMax]; omega, ?_, ?_⟩
    · intro y hy
      rcases List.mem_cons.1 hy with rfl | hy
      · simp only; omega
      · exact a2 y hy
    · rw [nibbleStream_length, List.map_cons, List.sum_cons, a3]
      have hm' : 2 * (m.attempt k (blockWords p m.width)).size ≤ 2 * 63 := by omega
      simp only
      omega

/-! ### The static codecs complete -/

/-- What a packed payload looks like (R93 to R98). -/
def packedPayload (p : Payload) (ys : List Symbol) : Payload :=
  { p with
    isCompressed := true
    compressedBytes := Memory.writeBytes p.compressedBytes 0 (packNibbles (nibbleStream ys))
    compressedLength := BitVec.ofNat 7 (((nibbleStream ys).length + 1) / 2)
    isHalfTerminated := decide ((nibbleStream ys).length % 2 = 1) }

theorem applyPlan_accepted (p : Payload) {plan : Plan} {ys : List Symbol} (hs : plan.symbols = some ys)
    (h : Packable ys) : applyPlan p plan = .ok (packedPayload p ys, true) := by
  simp only [applyPlan, hs, wordsToBytes_ok p plan.size h, bind, Except.bind, pure, Except.pure, packedPayload]

theorem applyPlan_none (p : Payload) {plan : Plan} (hs : plan.symbols = none) :
    applyPlan p plan = .ok (reject p, false) := by
  simp only [applyPlan, hs]

theorem staticFPC_packable (cfg : Knobs) (p : Payload) {ys : List Symbol}
    (h : (planOfSymbols ((blockWordBits p).map (ladderSymbol cfg.params))).symbols = some ys) : Packable ys := by
  refine (planOfSymbols_packable (by simp) ?_ h).2
  intro y hy
  obtain ⟨u, -, rfl⟩ := List.mem_map.1 hy
  exact ladderSymbol_narrow cfg u

theorem staticFPC_eq (k : Params) (p : Payload) :
    staticFPC k p = applyPlan p (planOfSymbols ((blockWordBits p).map (ladderSymbol k))) := by
  simp [staticFPC, staticFPCplan_eq, bind, Except.bind]

theorem staticBDI_eq (k : Params) (p : Payload) :
    staticBDI k p = applyPlan p (selection k p allSlots).plan := by
  simp [staticBDI, bdiPlan_eq, bind, Except.bind]

theorem staticBest_eq (k : Params) (p : Payload) :
    staticBest k p = applyPlan p (smallerPlan (planOfSymbols ((blockWordBits p).map (ladderSymbol k)))
      (selection k p allSlots).plan) := by
  simp [staticBest, staticFPCplan_eq, bdiPlan_eq, bind, Except.bind]

/-! ### The dynamic codecs as pure functions -/

theorem dynFPCplan_eq (k : Params) (e : Engine) (p : Payload) :
    dynFPCplan k e p = .ok (if allZero ((blockWordBits p).map BitVec.toNat) then zeroBlockPlan
      else planOfSymbols ((blockWordBits p).map (dynamicSymbol k e.table))) := by
  simp only [dynFPCplan, blockWords32_eq, bind, Except.bind]
  split <;> rfl

theorem dynBDIplan_eq (k : Params) (e : Engine) (p : Payload) :
    dynBDIplan k e p = .ok (if allZero (blockWords p 8) then zeroBlockPlan
      else (selection k p e.bdiEnable).plan) := by
  simp only [dynBDIplan, bytesToWords_eq p (.inr (.inr rfl)), bind, Except.bind]
  split
  · rfl
  · exact bdiPlan_eq k p e.bdiEnable

theorem dynamicCompress_eq (k : Params) (e : Engine) (p : Payload) :
    dynamicCompress k e p = applyPlan p (smallerPlan
      (if allZero ((blockWordBits p).map BitVec.toNat) then zeroBlockPlan
        else planOfSymbols ((blockWordBits p).map (dynamicSymbol k e.table)))
      (if allZero (blockWords p 8) then zeroBlockPlan else (selection k p e.bdiEnable).plan)) := by
  simp [dynamicCompress, dynFPCplan_eq, dynBDIplan_eq, bind, Except.bind]

end Sys2Proof.Machine
end

