-- ==== Sys2Proof/Laws/Commands.lean ====
section
/-! SUPPORT. What the shared parts of every command and of a step can do, said once. -/

namespace Sys2Proof.Machine

@[simp] theorem settle_ok (s t : State) : settle s (.ok t) = .next t := rfl
@[simp] theorem settle_raise (s : State) (c : FaultCode) :
    settle s (.error (.raise c)) = .next (raiseFault c s) := rfl
@[simp] theorem settle_outside (s : State) (f : Fault) : settle s (.error (.outside f)) = .fault f := rfl

theorem command_of_fault {s : State} (h : s.engine.fault = true) (op : State → Except Abort State) :
    command op s = .next (refuse s) := by
  simp [command, h]

theorem command_of_illFormed {s : State} (h : s.engine.fault = false) (hw : s.request.wellFormed = false)
    (op : State → Except Abort State) : command op s = .next (raiseFault .badRequest s) := by
  simp [command, h, hw]

theorem command_of_ready {s : State} (h : s.engine.fault = false) (hw : s.request.wellFormed = true)
    (op : State → Except Abort State) : command op s = settle s (op s) := by
  simp [command, h, hw]

/-- Everything a command can do when it answers a next state: it is refused, it finds the record ill formed, its
operation completes, or its operation raises a fault. -/
theorem command_next {op : State → Except Abort State} {s t : State} (h : command op s = .next t) :
    (s.engine.fault = true ∧ t = refuse s) ∨
    (s.engine.fault = false ∧ s.request.wellFormed = false ∧ t = raiseFault .badRequest s) ∨
    (s.engine.fault = false ∧ s.request.wellFormed = true ∧ op s = .ok t) ∨
    (s.engine.fault = false ∧ s.request.wellFormed = true ∧ ∃ c, op s = .error (.raise c) ∧ t = raiseFault c s) := by
  cases hf : s.engine.fault with
  | true =>
    rw [command_of_fault hf] at h
    exact .inl ⟨rfl, by simpa using h.symm⟩
  | false =>
    cases hw : s.request.wellFormed with
    | false =>
      rw [command_of_illFormed hf hw] at h
      exact .inr (.inl ⟨rfl, rfl, by simpa using h.symm⟩)
    | true =>
      rw [command_of_ready hf hw] at h
      match hop : op s, h with
      | .ok u, h => exact .inr (.inr (.inl ⟨rfl, rfl, by simpa using h⟩))
      | .error (.raise c), h => exact .inr (.inr (.inr ⟨rfl, rfl, c, rfl, by simpa using h.symm⟩))

/-- A command answers a next state wherever its operation makes no access outside the buffers. -/
theorem command_continues {op : State → Except Abort State} {s : State}
    (h : s.engine.fault = false → s.request.wellFormed = true → ∀ f, op s ≠ .error (.outside f)) :
    ∃ t, command op s = .next t := by
  cases hf : s.engine.fault with
  | true => exact ⟨_, command_of_fault hf op⟩
  | false =>
    cases hw : s.request.wellFormed with
    | false => exact ⟨_, command_of_illFormed hf hw op⟩
    | true =>
      rw [command_of_ready hf hw]
      match hop : op s with
      | .ok u => exact ⟨u, rfl⟩
      | .error (.raise c) => exact ⟨_, rfl⟩
      | .error (.outside f) => exact absurd hop (h hf hw f)

/-- Every command is the shared wrapper around an operation of its own. -/
def operationOf : Instr → State → Except Abort State
  | .compressNone => fun s => .ok { s with result := some (.compress false) }
  | .compressFpc => fun s => compressBoth (staticFPC s.cfg.params) s
  | .compressBdi => fun s => compressBoth (staticBDI s.cfg.params) s
  | .compressDfpc => fun s => if inTraining s then dfpcTraining s else dfpcSteady s
  | .encode => fun s => do
    let (newPayload, n) ← ternaryEncode s.request.new
    let (oldPayload, o) ← ternaryEncode s.request.old
    return { s with
      request := { new := newPayload, old := oldPayload }
      result := some (.encode (encodeResult n o)) }
  | .countRaw1 => fun s => do
    return { s with result := some (.count (BitVec.ofNat 10 (← countChanges s.request .one false))) }
  | .countRaw2 => fun s => do
    return { s with result := some (.count (BitVec.ofNat 10 (← countChanges s.request .two false))) }
  | .countRaw3 => fun s => do
    return { s with result := some (.count (BitVec.ofNat 10 (← countChanges s.request .three false))) }
  | .countCells1 => fun s => do
    return { s with result := some (.count (BitVec.ofNat 10 (← countChanges s.request .one true))) }
  | .countCells2 => fun s => do
    return { s with result := some (.count (BitVec.ofNat 10 (← countChanges s.request .two true))) }
  | .countCells3 => fun s => do
    return { s with result := some (.count (BitVec.ofNat 10 (← countChanges s.request .three true))) }

theorem exec_eq_command (i : Instr) (s : State) : exec i s = command (operationOf i) s := by
  cases i <;> rfl

/-- A word with no command to run: the engine refuses (R272) or raises `IllegalCommand` (R275). -/
theorem runWord_of_fault {s : State} (h : s.engine.fault = true) (w : CommandWord) :
    runWord w s = .next (refuse s) := by
  simp [runWord, h]

theorem runWord_of_illegal {s : State} {w : CommandWord} {e : DecodeError} (h : s.engine.fault = false)
    (hd : decode w = .error e) : runWord w s = .next (raiseFault .illegalCommand s) := by
  simp [runWord, h, hd]

/-- A legal word runs its command, faulted engine or not: a faulted one refuses either way. -/
theorem runWord_of_legal {w : CommandWord} {i : Instr} (hd : decode w = .ok i) (s : State) :
    runWord w s = exec i s := by
  cases hf : s.engine.fault with
  | true => rw [runWord_of_fault hf, exec_eq_command, command_of_fault hf]
  | false => simp [runWord, hf, hd]

theorem step_nil {s : State} (h : s.host = []) : step s = .next s := by
  simp [step, h]

theorem step_cons {s : State} {a : HostAction} {rest : List HostAction} (h : s.host = a :: rest) :
    step s = runAction a { s with host := rest } := by
  simp [step, h]

/-- Everything a step can do: nothing, reset, a new record, a refusal, an illegal word, or a command. -/
theorem step_next {s t : State} (h : step s = .next t) :
    (s.host = [] ∧ t = s) ∨
    (∃ rest, s.host = .reset :: rest ∧ t = resetEngine { s with host := rest }) ∨
    (∃ r rest, s.host = .lend r :: rest ∧ t = lendRequest r { s with host := rest }) ∨
    (∃ w wc rest, s.host = .command w wc :: rest ∧
      ((s.engine.fault = true ∧ t = refuse { s with host := rest, wc := wc }) ∨
       (s.engine.fault = false ∧ (∃ e, decode w = .error e) ∧
          t = raiseFault .illegalCommand { s with host := rest, wc := wc }) ∨
       (s.engine.fault = false ∧ ∃ i, decode w = .ok i ∧ exec i { s with host := rest, wc := wc } = .next t))) := by
  match hh : s.host with
  | [] =>
    rw [step_nil hh] at h
    exact .inl ⟨rfl, by simpa using h.symm⟩
  | .reset :: rest =>
    rw [step_cons hh] at h
    refine .inr (.inl ⟨rest, rfl, ?_⟩)
    simpa [runAction] using h.symm
  | .lend r :: rest =>
    rw [step_cons hh] at h
    refine .inr (.inr (.inl ⟨r, rest, rfl, ?_⟩))
    simpa [runAction] using h.symm
  | .command w wc :: rest =>
    rw [step_cons hh] at h
    refine .inr (.inr (.inr ⟨w, wc, rest, rfl, ?_⟩))
    simp only [runAction] at h
    cases hf : s.engine.fault with
    | true =>
      rw [runWord_of_fault (by simpa using hf)] at h
      exact .inl ⟨rfl, by simpa using h.symm⟩
    | false =>
      match hd : decode w with
      | .ok i =>
        rw [runWord_of_legal hd] at h
        exact .inr (.inr ⟨rfl, i, rfl, h⟩)
      | .error e =>
        rw [runWord_of_illegal (by simpa using hf) hd] at h
        exact .inr (.inl ⟨rfl, ⟨e, rfl⟩, by simpa using h.symm⟩)

end Sys2Proof.Machine
end

