-- ==== Sys2Proof/Laws/Operations.lean ====
section
/-! SUPPORT. What the operation of a command can do when it completes, said once for each shape of operation. -/

namespace Sys2Proof.Machine

theorem exceptBind_ok {ε α β : Type} {x : Except ε α} {f : α → Except ε β} {b : β} (h : (x >>= f) = .ok b) :
    ∃ a, x = .ok a ∧ f a = .ok b := by
  match x, h with
  | .ok a, h => exact ⟨a, rfl, h⟩

theorem exceptBind_error {ε α β : Type} {x : Except ε α} {f : α → Except ε β} {e : ε} (h : (x >>= f) = .error e) :
    x = .error e ∨ ∃ a, x = .ok a ∧ f a = .error e := by
  match x, h with
  | .ok a, h => exact .inr ⟨a, rfl, h⟩
  | .error e', h => exact .inl (by simpa [bind, Except.bind] using h)

/-! ### The checks and the accesses -/

theorem payload_wellFormed_iff (p : Payload) : p.wellFormed = true ↔
    p.rawLen = 64 ∧ p.compressedLength.toNat ≤ 72 ∧
      (p.isHalfTerminated = true → p.isCompressed = true ∧ 1 ≤ p.compressedLength.toNat) := by
  simp only [Payload.wellFormed, Bool.and_eq_true, Bool.or_eq_true, decide_eq_true_eq, Bool.not_eq_true', and_assoc]
  cases h : p.isHalfTerminated <;> simp [Config.block, Config.cbCap]

theorem payload_buffersWf_iff (p : Payload) : p.buffersWf = true ↔
    Memory.wf p.rawBytes = true ∧ Memory.below p.rawBytes 64 = true ∧
      Memory.wf p.compressedBytes = true ∧ Memory.below p.compressedBytes 72 = true := by
  simp [Payload.buffersWf, Config.block, Config.cbCap, and_assoc]

theorem memReadCompressed_ok {p : Payload} {off n : Nat} (h : off + n ≤ 72) :
    memReadCompressed p off n = .ok (Memory.readBytes p.compressedBytes off n) := if_pos h

theorem memWriteCompressed_ok {p : Payload} {off : Nat} {bs : List Byte} (h : off + bs.length ≤ 72) :
    memWriteCompressed p off bs =
      .ok { p with compressedBytes := Memory.writeBytes p.compressedBytes off bs } := if_pos h

/-- The record in hand after construction, and at reset, has its four buffers in canonical form. -/
theorem fresh_buffersWf : Payload.fresh.buffersWf = true ∧ State.reset.request.buffersWf = true := ⟨rfl, rfl⟩

/-! ### What a codec does to a payload -/

/-- Everything a packed payload can be: the stream, its length and its two flags, the rest as before. -/
theorem wordsToBytes_eq {p q : Payload} {budget : Nat} {ys : List Symbol} (h : wordsToBytes p budget ys = .ok q) :
    Packable ys ∧ q = packedPayload p ys := by
  by_cases hp : Packable ys
  · rw [wordsToBytes_ok p budget hp] at h
    exact ⟨hp, by simpa [packedPayload] using h.symm⟩
  · rw [wordsToBytes_capacity p budget hp] at h
    cases h

/-- Everything an apply step can do. -/
theorem applyPlan_eq {p q : Payload} {plan : Plan} {b : Bool} (h : applyPlan p plan = .ok (q, b)) :
    (plan.symbols = none ∧ q = reject p ∧ b = false) ∨
    ∃ ys, plan.symbols = some ys ∧ Packable ys ∧ q = packedPayload p ys ∧ b = true := by
  match hs : plan.symbols with
  | none =>
    rw [applyPlan_none p hs] at h
    simp only [Except.ok.injEq, Prod.mk.injEq] at h
    exact .inl ⟨rfl, h.1.symm, h.2.symm⟩
  | some ys =>
    simp only [applyPlan, hs] at h
    obtain ⟨q', h1, h2⟩ := exceptBind_ok h
    obtain ⟨hp, rfl⟩ := wordsToBytes_eq h1
    simp only [pure, Except.pure, Except.ok.injEq, Prod.mk.injEq] at h2
    exact .inr ⟨ys, rfl, hp, h2.1.symm, h2.2.symm⟩

/-- What every codec keeps of a payload. -/
structure CodecFrame (p q : Payload) (shrunk : Bool) : Prop where
  rawLen : q.rawLen = p.rawLen
  rawBytes : q.rawBytes = p.rawBytes
  wellFormed : p.wellFormed = true → q.wellFormed = true
  buffersWf : p.buffersWf = true → q.buffersWf = true
  shrunk : shrunk = q.isCompressed

theorem packable_bytes {ys : List Symbol} (h : Packable ys) : (packNibbles (nibbleStream ys)).length ≤ 64 := by
  have := h.fits
  simp only [packNibbles_length]; omega

theorem applyPlan_frame {p q : Payload} {plan : Plan} {b : Bool} (h : applyPlan p plan = .ok (q, b)) :
    CodecFrame p q b := by
  rcases applyPlan_eq h with ⟨-, rfl, rfl⟩ | ⟨ys, -, hp, rfl, rfl⟩
  · refine ⟨rfl, rfl, fun h => ?_, fun h => h, rfl⟩
    rw [payload_wellFormed_iff] at h ⊢
    exact ⟨h.1, h.2.1, by simp⟩
  · have hf := hp.fits
    have hl : (BitVec.ofNat 7 (((nibbleStream ys).length + 1) / 2)).toNat = ((nibbleStream ys).length + 1) / 2 := by
      simp only [BitVec.toNat_ofNat]; omega
    refine ⟨rfl, rfl, fun h => ?_, fun h => ?_, rfl⟩
    · rw [payload_wellFormed_iff] at h ⊢
      simp only [packedPayload, hl, decide_eq_true_eq, true_and]
      exact ⟨h.1, by omega, by omega⟩
    · rw [payload_buffersWf_iff] at h ⊢
      have := packable_bytes hp
      exact ⟨h.1, h.2.1, writeBytes_wf h.2.2.1 _ _, writeBytes_below h.2.2.2 (by omega)⟩

/-- A codec of the plan and apply kind: pure planning, then apply. -/
theorem codec_frame {plan : Except Abort Plan} {p q : Payload} {b : Bool}
    (h : (plan >>= applyPlan p) = .ok (q, b)) : CodecFrame p q b := by
  obtain ⟨pl, -, h⟩ := exceptBind_ok h
  exact applyPlan_frame h

theorem staticFPC_frame {k : Params} {p q : Payload} {b : Bool} (h : staticFPC k p = .ok (q, b)) :
    CodecFrame p q b := by
  rw [staticFPC_eq] at h; exact applyPlan_frame h

theorem staticBDI_frame {k : Params} {p q : Payload} {b : Bool} (h : staticBDI k p = .ok (q, b)) :
    CodecFrame p q b := by
  rw [staticBDI_eq] at h; exact applyPlan_frame h

theorem staticBest_frame {k : Params} {p q : Payload} {b : Bool} (h : staticBest k p = .ok (q, b)) :
    CodecFrame p q b := by
  rw [staticBest_eq] at h; exact applyPlan_frame h

theorem dynamicCompress_frame {k : Params} {e : Engine} {p q : Payload} {b : Bool}
    (h : dynamicCompress k e p = .ok (q, b)) : CodecFrame p q b := by
  rw [dynamicCompress_eq] at h; exact applyPlan_frame h

/-! ### The learner's collectors as pure functions -/

/-- `identifyFPC`'s counters (R161). -/
def countedFpc (e : Engine) (p : Payload) : Vector Counter 3 := (blockWordBits p).foldl countFpcWord e.fpcHits

/-- `identifyBDI`'s counters (R162). -/
def countedBdi (k : Params) (e : Engine) (p : Payload) : Vector Counter 8 :=
  match (selection k p allSlots).winner with
  | some (m, _) => e.bdiHits.set m.slot (satinc e.bdiHits[m.slot])
  | none => e.bdiHits

/-- One word counted: its slot goes up by one, saturating, and no other (R161). -/
theorem countFpcWord_getElem (hits : Vector Counter 3) (u : Word32) (i : Fin 3) :
    (countFpcWord hits u)[i] = if fpcSlot (fpcRung u) = some i then satinc hits[i] else hits[i] := by
  unfold countFpcWord
  split
  · next s h =>
    by_cases hs : s = i
    · subst hs; simp [h]
    · have hv : ¬s.val = i.val := fun he => hs (Fin.ext he)
      simp [h, hs, hv]
  · next h => simp [h]

theorem countedBdi_of_winner {k : Params} {e : Engine} {p : Payload} {m : BdiMethod} {ys : List Symbol}
    (h : (selection k p allSlots).winner = some (m, ys)) :
    countedBdi k e p = e.bdiHits.set m.slot (satinc e.bdiHits[m.slot]) := by
  unfold countedBdi; rw [h]

theorem countedBdi_of_none {k : Params} {e : Engine} {p : Payload} (h : (selection k p allSlots).winner = none) :
    countedBdi k e p = e.bdiHits := by
  unfold countedBdi; rw [h]

/-- `sample`'s counters (R163). -/
def countedSamples (e : Engine) (p : Payload) : Vector Counter 128 :=
  Vector.ofFn fun i : Fin 128 =>
    if nib ((blockWords p 4).getD (i.val / 8) 0) (i.val % 8) = 0 then satinc e.samples[i] else e.samples[i]

/-- The engine after the three collectors (R254). -/
def trainedEngine (k : Params) (e : Engine) (p : Payload) : Engine :=
  { e with fpcHits := countedFpc e p, bdiHits := countedBdi k e p, samples := countedSamples e p }

theorem dfpcTraining_eq (s : State) : dfpcTraining s =
    compressBoth (staticBest s.cfg.params) { s with engine := trainedEngine s.cfg.params s.engine s.request.new } := by
  simp only [dfpcTraining, identifyFPC, blockWords32_eq, identifyBDI, bdiSelect_eq, sample,
    bytesToWords_eq s.request.new (.inr (.inl rfl)), bind, Except.bind, pure, Except.pure]
  cases h : (selection s.cfg.params s.request.new allSlots).winner <;>
    simp only [trainedEngine, countedFpc, countedBdi, countedSamples, h]

/-! ### compressBoth -/

/-- Everything `compressBoth` can do when it completes. -/
theorem compressBoth_ok {codec : Payload → Except Abort (Payload × Bool)} {s t : State}
    (h : compressBoth codec s = .ok t) :
    ∃ old new b b', codec s.request.old = .ok (old, b') ∧ codec s.request.new = .ok (new, b) ∧
      t = { s with request := { new := new, old := old }, result := some (.compress b) } := by
  simp only [compressBoth] at h
  obtain ⟨⟨old, b'⟩, h1, h⟩ := exceptBind_ok h
  obtain ⟨⟨new, b⟩, h2, h⟩ := exceptBind_ok h
  simp only [pure, Except.pure, Except.ok.injEq] at h
  exact ⟨old, new, b, b', h1, h2, h.symm⟩

theorem compressBoth_of_ok {codec : Payload → Except Abort (Payload × Bool)} {s : State} {old new : Payload}
    {b b' : Bool} (h1 : codec s.request.old = .ok (old, b')) (h2 : codec s.request.new = .ok (new, b)) :
    compressBoth codec s = .ok { s with request := { new := new, old := old }, result := some (.compress b) } := by
  simp [compressBoth, h1, h2, bind, Except.bind, pure, Except.pure]

/-! ### The write-change engine -/

theorem payload_length_of_wellFormed {p : Payload} (h : p.wellFormed = true) : p.compressedLength.toNat ≤ 72 := by
  exact ((payload_wellFormed_iff p).1 h).2.1

/-- The stream's bytes as a pure function (R222). -/
def streamBytes (p : Payload) : List Byte :=
  if p.isCompressed then Memory.readBytes p.compressedBytes 0 p.compressedLength.toNat
  else Memory.readBytes p.rawBytes 0 64

theorem stream_eq {p : Payload} (h : p.wellFormed = true) : stream p = .ok (streamBytes p) := by
  have := payload_length_of_wellFormed h
  simp only [stream, streamBytes]
  split
  · exact memReadCompressed_ok (by omega)
  · rfl

/-- COUNT as a pure function of two well-formed payloads (R221, R223). -/
theorem countChanges_eq {r : Request} (h : r.wellFormed = true) (c : CellLevels) (cc : Bool) :
    countChanges r c cc = .ok (min (if cc then streamCost c (streamBytes r.new) (streamBytes r.old)
      else 8 * (streamBytes r.new).length) 512) := by
  simp only [Request.wellFormed, Bool.and_eq_true] at h
  simp only [countChanges, stream_eq h.1, stream_eq h.2, bind, Except.bind, pure, Except.pure, Config.bitBudget]
  cases cc <;> rfl

theorem ternaryBits_length (bits : List Bool) : (ternaryBits bits).length = 3 * (bits.length / 2) := by
  induction bits using ternaryBits.induct with
  | case1 a b r ih =>
    simp only [ternaryBits, List.length_append, List.length_cons, ih]
    have : (ternaryCode a b).length = 3 := by cases a <;> cases b <;> rfl
    omega
  | case2 l h =>
    match l, h with
    | [], _ => rfl
    | [a], _ => simp [ternaryBits]
    | a :: b :: r, h => exact absurd rfl (h a b r)

@[simp] theorem packBits_length (bits : List Bool) : (packBits bits).length = (bits.length + 7) / 8 := by
  simp [packBits]

/-- The bits the ternary encoder reads, and the bytes it writes (R231 to R233). -/
def ternaryInput (p : Payload) : List Bool :=
  ((Memory.readBytes p.compressedBytes 0 p.compressedLength.toNat).flatMap byteBits).take (ternaryInBits p)

def ternaryOutput (p : Payload) : List Byte := packBits (ternaryBits (ternaryInput p))

theorem flatMap_byteBits_length (bs : List Byte) : (bs.flatMap byteBits).length = 8 * bs.length := by
  induction bs with
  | nil => rfl
  | cons b bs ih => simp only [List.flatMap_cons, List.length_append, ih, byteBits, List.length_cons, List.length_nil]; omega

theorem ternaryInput_length (p : Payload) : (ternaryInput p).length = ternaryInBits p := by
  simp only [ternaryInput, List.length_take, flatMap_byteBits_length, readBytes_length, ternaryInBits]
  omega

theorem ternaryOutput_length (p : Payload) :
    (ternaryOutput p).length = (3 * (ternaryInBits p / 2) + 7) / 8 := by
  simp [ternaryOutput, ternaryBits_length, ternaryInput_length]

/-- The payload after the remap (R231 to R233). -/
def remapped (p : Payload) : Payload :=
  { p with
    compressedBytes := Memory.writeBytes p.compressedBytes 0 (ternaryOutput p)
    compressedLength := BitVec.ofNat 7 (ternaryOutput p).length }

theorem ternaryOutput_fits {p : Payload} (h : p.compressedLength.toNat ≤ 48) : (ternaryOutput p).length ≤ 72 := by
  rw [ternaryOutput_length]
  have : ternaryInBits p ≤ 8 * p.compressedLength.toNat := Nat.sub_le _ _
  omega

/-- ternaryEncode as a pure function: it always completes (R229, R230). -/
theorem ternaryEncode_eq (p : Payload) : ternaryEncode p =
    .ok (if p.isCompressed = true ∧ p.compressedLength.toNat ≤ 48 then (remapped p, true) else (p, false)) := by
  by_cases h : p.isCompressed = true ∧ p.compressedLength.toNat ≤ 48
  · rw [if_pos h]
    have h1 : ¬(p.isCompressed = false ∨ Config.ternaryMax < p.compressedLength.toNat) := by
      rintro (h1 | h1)
      · simp [h.1] at h1
      · exact absurd h1 (Nat.not_lt.2 h.2)
    have h2 := ternaryOutput_fits h.2
    have hl := h.2
    have h3 : 0 + p.compressedLength.toNat ≤ 72 := by omega
    rw [ternaryEncode, if_neg h1, memReadCompressed_ok h3]
    simp only [bind, Except.bind]
    rw [memWriteCompressed_ok (by rw [Nat.zero_add]; exact h2)]
    rfl
  · rw [if_neg h]
    have h1 : p.isCompressed = false ∨ Config.ternaryMax < p.compressedLength.toNat := by
      simp only [Config.ternaryMax]
      cases hc : p.isCompressed with
      | false => exact .inl rfl
      | true => simp only [hc, true_and] at h; omega
    simp only [ternaryEncode, if_pos h1]

theorem remapped_frame (p : Payload) (hc : p.isCompressed = true) (hl : p.compressedLength.toNat ≤ 48) :
    CodecFrame p (remapped p) true := by
  have h2 := ternaryOutput_fits hl
  have hn : (BitVec.ofNat 7 (ternaryOutput p).length).toNat = (ternaryOutput p).length := by
    simp only [BitVec.toNat_ofNat]; omega
  refine ⟨rfl, rfl, fun h => ?_, fun h => ?_, hc.symm⟩
  · rw [payload_wellFormed_iff] at h ⊢
    simp only [remapped, hn]
    refine ⟨h.1, h2, fun hh => ⟨hc, ?_⟩⟩
    have := (h.2.2 hh).2
    rw [ternaryOutput_length]
    simp only [ternaryInBits, hh, if_true]
    omega
  · rw [payload_buffersWf_iff] at h ⊢
    exact ⟨h.1, h.2.1, writeBytes_wf h.2.2.1 _ _, writeBytes_below h.2.2.2 (by omega)⟩

/-! ### Every operation -/

/-- What the operation of every command keeps when it completes. -/
structure OperationFrame (s t : State) : Prop where
  cfg : t.cfg = s.cfg
  wc : t.wc = s.wc
  host : t.host = s.host
  newRawLen : t.request.new.rawLen = s.request.new.rawLen
  newRawBytes : t.request.new.rawBytes = s.request.new.rawBytes
  oldRawLen : t.request.old.rawLen = s.request.old.rawLen
  oldRawBytes : t.request.old.rawBytes = s.request.old.rawBytes
  newWellFormed : s.request.new.wellFormed = true → t.request.new.wellFormed = true
  oldWellFormed : s.request.old.wellFormed = true → t.request.old.wellFormed = true
  newBuffersWf : s.request.new.buffersWf = true → t.request.new.buffersWf = true
  oldBuffersWf : s.request.old.buffersWf = true → t.request.old.buffersWf = true
  result : t.result.isSome = true

theorem compressBoth_frame {codec : Payload → Except Abort (Payload × Bool)} {s t : State}
    (hc : ∀ p q b, codec p = .ok (q, b) → CodecFrame p q b) (h : compressBoth codec s = .ok t) :
    OperationFrame s t ∧ t.engine = s.engine := by
  obtain ⟨old, new, b, b', h1, h2, rfl⟩ := compressBoth_ok h
  have f1 := hc _ _ _ h1
  have f2 := hc _ _ _ h2
  exact ⟨⟨rfl, rfl, rfl, f2.rawLen, f2.rawBytes, f1.rawLen, f1.rawBytes, f2.wellFormed, f1.wellFormed, f2.buffersWf,
    f1.buffersWf, rfl⟩, rfl⟩

theorem count_frame {r : Request} {s t : State} {n : Except Abort Nat} (hr : r = s.request)
    (h : (do return { s with result := some (.count (BitVec.ofNat 10 (← n))) } : Except Abort State) = .ok t) :
    OperationFrame s t ∧ t.engine = s.engine ∧ t.request = r := by
  obtain ⟨k, -, h⟩ := exceptBind_ok h
  simp only [pure, Except.pure, Except.ok.injEq] at h
  subst h hr
  exact ⟨⟨rfl, rfl, rfl, rfl, rfl, rfl, rfl, id, id, id, id, rfl⟩, rfl, rfl⟩

/-- ENCODE's operation as a pure function: it always completes (R228). -/
def encoded (s : State) : State :=
  let n := if s.request.new.isCompressed = true ∧ s.request.new.compressedLength.toNat ≤ 48
    then (remapped s.request.new, true) else (s.request.new, false)
  let o := if s.request.old.isCompressed = true ∧ s.request.old.compressedLength.toNat ≤ 48
    then (remapped s.request.old, true) else (s.request.old, false)
  { s with request := { new := n.1, old := o.1 }, result := some (.encode (encodeResult n.2 o.2)) }

theorem operationOf_encode (s : State) : operationOf .encode s = .ok (encoded s) := by
  simp only [operationOf, ternaryEncode_eq, bind, Except.bind, pure, Except.pure, encoded]

theorem encoded_frame (s : State) : OperationFrame s (encoded s) ∧ (encoded s).engine = s.engine := by
  refine ⟨?_, rfl⟩
  by_cases h1 : s.request.new.isCompressed = true ∧ s.request.new.compressedLength.toNat ≤ 48 <;>
    by_cases h2 : s.request.old.isCompressed = true ∧ s.request.old.compressedLength.toNat ≤ 48 <;>
    simp only [encoded, h1, h2, if_true, if_false, and_self]
  · have f1 := remapped_frame _ h1.1 h1.2
    have f2 := remapped_frame _ h2.1 h2.2
    exact ⟨rfl, rfl, rfl, rfl, rfl, rfl, rfl, f1.wellFormed, f2.wellFormed, f1.buffersWf, f2.buffersWf, rfl⟩
  · have f1 := remapped_frame _ h1.1 h1.2
    exact ⟨rfl, rfl, rfl, rfl, rfl, rfl, rfl, f1.wellFormed, id, f1.buffersWf, id, rfl⟩
  · have f2 := remapped_frame _ h2.1 h2.2
    exact ⟨rfl, rfl, rfl, rfl, rfl, rfl, rfl, id, f2.wellFormed, id, f2.buffersWf, rfl⟩
  · exact ⟨rfl, rfl, rfl, rfl, rfl, rfl, rfl, id, id, id, id, rfl⟩

/-- The engine that COMPRESS.DFPC leaves when it completes (R253, R254). -/
def dfpcEngine (s : State) : Engine :=
  if inTraining s then trainedEngine s.cfg.params s.engine s.request.new else extractOnce s.cfg s.engine

theorem dfpc_frame {s t : State} (h : operationOf .compressDfpc s = .ok t) :
    OperationFrame s t ∧ t.engine = dfpcEngine s := by
  simp only [operationOf] at h
  by_cases hT : inTraining s = true
  · rw [if_pos hT, dfpcTraining_eq] at h
    obtain ⟨f, he⟩ := compressBoth_frame (fun _ _ _ => staticBest_frame) h
    exact ⟨⟨f.cfg, f.wc, f.host, f.newRawLen, f.newRawBytes, f.oldRawLen, f.oldRawBytes, f.newWellFormed,
      f.oldWellFormed, f.newBuffersWf, f.oldBuffersWf, f.result⟩, by rw [he, dfpcEngine, if_pos hT]⟩
  · rw [if_neg hT] at h
    obtain ⟨f, he⟩ := compressBoth_frame (fun _ _ _ => dynamicCompress_frame) h
    exact ⟨⟨f.cfg, f.wc, f.host, f.newRawLen, f.newRawBytes, f.oldRawLen, f.oldRawBytes, f.newWellFormed,
      f.oldWellFormed, f.newBuffersWf, f.oldBuffersWf, f.result⟩, by rw [he, dfpcEngine, if_neg hT]⟩

/-- What every operation keeps when it completes, and the engine it leaves. -/
theorem operation_frame {i : Instr} {s t : State} (h : operationOf i s = .ok t) :
    OperationFrame s t ∧ t.engine = if i = .compressDfpc then dfpcEngine s else s.engine := by
  cases i with
  | compressNone =>
    simp only [operationOf, Except.ok.injEq] at h
    subst h
    exact ⟨⟨rfl, rfl, rfl, rfl, rfl, rfl, rfl, id, id, id, id, rfl⟩, rfl⟩
  | compressFpc => exact compressBoth_frame (fun _ _ _ => staticFPC_frame) h
  | compressBdi => exact compressBoth_frame (fun _ _ _ => staticBDI_frame) h
  | compressDfpc => exact dfpc_frame h
  | encode =>
    rw [operationOf_encode, Except.ok.injEq] at h
    subst h
    exact encoded_frame s
  | countRaw1 => obtain ⟨f, e, -⟩ := count_frame rfl h; exact ⟨f, e⟩
  | countRaw2 => obtain ⟨f, e, -⟩ := count_frame rfl h; exact ⟨f, e⟩
  | countRaw3 => obtain ⟨f, e, -⟩ := count_frame rfl h; exact ⟨f, e⟩
  | countCells1 => obtain ⟨f, e, -⟩ := count_frame rfl h; exact ⟨f, e⟩
  | countCells2 => obtain ⟨f, e, -⟩ := count_frame rfl h; exact ⟨f, e⟩
  | countCells3 => obtain ⟨f, e, -⟩ := count_frame rfl h; exact ⟨f, e⟩

@[simp] theorem trainedEngine_fault (k : Params) (e : Engine) (p : Payload) : (trainedEngine k e p).fault = e.fault := rfl
@[simp] theorem trainedEngine_faultCode (k : Params) (e : Engine) (p : Payload) : (trainedEngine k e p).faultCode = e.faultCode := rfl
@[simp] theorem trainedEngine_extracted (k : Params) (e : Engine) (p : Payload) : (trainedEngine k e p).extracted = e.extracted := rfl
@[simp] theorem trainedEngine_table (k : Params) (e : Engine) (p : Payload) : (trainedEngine k e p).table = e.table := rfl
@[simp] theorem trainedEngine_fpcEnable (k : Params) (e : Engine) (p : Payload) : (trainedEngine k e p).fpcEnable = e.fpcEnable := rfl
@[simp] theorem trainedEngine_bdiEnable (k : Params) (e : Engine) (p : Payload) : (trainedEngine k e p).bdiEnable = e.bdiEnable := rfl

theorem dfpcEngine_of_extracted {s : State} (h : s.engine.extracted = true) : dfpcEngine s = s.engine := by
  simp [dfpcEngine, inTraining, extractOnce, h]

theorem dfpcEngine_fault (s : State) :
    (dfpcEngine s).fault = s.engine.fault ∧ (dfpcEngine s).faultCode = s.engine.faultCode := by
  simp only [dfpcEngine, extractOnce]
  split
  · exact ⟨rfl, rfl⟩
  · split <;> simp

theorem operation_fault {i : Instr} {s t : State} (h : operationOf i s = .ok t) :
    t.engine.fault = s.engine.fault ∧ t.engine.faultCode = s.engine.faultCode := by
  rw [(operation_frame h).2]
  split
  · exact dfpcEngine_fault s
  · exact ⟨rfl, rfl⟩

/-- Everything `exec` can do: refuse, raise a fault of the spec, or complete. -/
theorem exec_next {i : Instr} {s t : State} (h : exec i s = .next t) :
    (s.engine.fault = true ∧ t = refuse s) ∨
    (s.engine.fault = false ∧ ∃ c, t = raiseFault c s) ∨
    (s.engine.fault = false ∧ s.request.wellFormed = true ∧ operationOf i s = .ok t) := by
  rw [exec_eq_command] at h
  rcases command_next h with ⟨hf, rfl⟩ | ⟨hf, -, rfl⟩ | ⟨hf, hw, ho⟩ | ⟨hf, -, c, -, rfl⟩
  · exact .inl ⟨hf, rfl⟩
  · exact .inr (.inl ⟨hf, _, rfl⟩)
  · exact .inr (.inr ⟨hf, hw, ho⟩)
  · exact .inr (.inl ⟨hf, c, rfl⟩)

theorem exec_of_ready {i : Instr} {s t : State} (hf : s.engine.fault = false) (hw : s.request.wellFormed = true)
    (h : operationOf i s = .ok t) : exec i s = .next t := by
  rw [exec_eq_command, command_of_ready hf hw, h]; rfl

end Sys2Proof.Machine
end

