-- ==== Sys2Proof/Laws/Completion.lean ====
section
/-! SUPPORT. The codecs complete: what each of them answers on every payload, as a pure function. -/

namespace Sys2Proof.Machine

/-- The payload a plan leaves: rejected or packed (R98, R99, R134, R139). -/
def applied (p : Payload) (plan : Plan) : Payload :=
  match plan.symbols with
  | none => reject p
  | some ys => packedPayload p ys

/-- A plan whose symbols, if any, pass the packer's checks. -/
def Plan.Fits (plan : Plan) : Prop := ∀ ys, plan.symbols = some ys → Packable ys

theorem applyPlan_fits (p : Payload) {plan : Plan} (h : plan.Fits) :
    applyPlan p plan = .ok (applied p plan, plan.symbols.isSome) := by
  match hs : plan.symbols with
  | none => simp [applyPlan_none p hs, applied, hs]
  | some ys => simp [applyPlan_accepted p hs (h ys hs), applied, hs]

theorem smallerPlan_fits {f b : Plan} (hf : f.Fits) (hb : b.Fits) : (smallerPlan f b).Fits := by
  simp only [smallerPlan]; split <;> assumption

/-- The static FPC plan of a block (R133). -/
def fpcPlanOf (cfg : Knobs) (p : Payload) : Plan := planOfSymbols ((blockWordBits p).map (ladderSymbol cfg.params))

/-- The BDI plan of a block (R138). -/
def bdiPlanOf (cfg : Knobs) (p : Payload) (enabled : Vector Bool 8) : Plan := (selection cfg.params p enabled).plan

theorem fpcPlanOf_fits (cfg : Knobs) (p : Payload) : (fpcPlanOf cfg p).Fits := fun _ h => staticFPC_packable cfg p h
theorem bdiPlanOf_fits (cfg : Knobs) (p : Payload) (enabled : Vector Bool 8) : (bdiPlanOf cfg p enabled).Fits :=
  fun _ h => selection_plan_packable h

theorem staticFPC_completes (cfg : Knobs) (p : Payload) :
    staticFPC cfg.params p = .ok (applied p (fpcPlanOf cfg p), (fpcPlanOf cfg p).symbols.isSome) := by
  rw [staticFPC_eq]; exact applyPlan_fits p (fpcPlanOf_fits cfg p)

theorem staticBDI_completes (cfg : Knobs) (p : Payload) : staticBDI cfg.params p =
    .ok (applied p (bdiPlanOf cfg p allSlots), (bdiPlanOf cfg p allSlots).symbols.isSome) := by
  rw [staticBDI_eq]; exact applyPlan_fits p (bdiPlanOf_fits cfg p allSlots)

theorem staticBest_completes (cfg : Knobs) (p : Payload) : staticBest cfg.params p =
    .ok (applied p (smallerPlan (fpcPlanOf cfg p) (bdiPlanOf cfg p allSlots)),
      (smallerPlan (fpcPlanOf cfg p) (bdiPlanOf cfg p allSlots)).symbols.isSome) := by
  rw [staticBest_eq]; exact applyPlan_fits p (smallerPlan_fits (fpcPlanOf_fits cfg p) (bdiPlanOf_fits cfg p allSlots))

/-! ### The dynamic codecs -/

/-- A table whose symbols fit the packer: at most four entries, each of 1 to 7 kept nibbles, the count the number of
marked ones (R29, R202). -/
structure TableFits (table : List PatternEntry) : Prop where
  short : table.length ≤ 4
  entries : ∀ t ∈ table, t.count ≤ 7 ∧
    t.count = ([7, 6, 5, 4, 3, 2, 1, 0].filter fun j => decide (nib t.dcMask.toNat j = 0xF)).length

theorem firstMatch_spec {u : Word32} {ts : List PatternEntry} {i n : Nat} {t : PatternEntry}
    (h : firstMatch u i ts = some (n, t)) :
    ∃ j, ∃ hj : j < ts.length, n = i + j ∧ ts[j] = t ∧ t.takes u = true ∧ ∀ l (hl : l < j), ts[l].takes u = false := by
  induction ts generalizing i with
  | nil => simp [firstMatch] at h
  | cons a ts ih =>
    simp only [firstMatch] at h
    split at h
    · next ha =>
      simp only [Option.some.injEq, Prod.mk.injEq] at h
      obtain ⟨rfl, rfl⟩ := h
      exact ⟨0, by simp, rfl, rfl, ha, fun l hl => absurd hl (Nat.not_lt_zero l)⟩
    · next ha =>
      obtain ⟨j, hj, hn, ht, hu, hl⟩ := ih h
      refine ⟨j + 1, by simpa using hj, by omega, by simpa using ht, hu, ?_⟩
      intro l hl'
      match l with
      | 0 => simpa using ha
      | l + 1 => simpa using hl l (by omega)

theorem firstMatch_none {u : Word32} {ts : List PatternEntry} {i : Nat} :
    firstMatch u i ts = none ↔ ∀ t ∈ ts, t.takes u = false := by
  induction ts generalizing i with
  | nil => simp [firstMatch]
  | cons a ts ih =>
    simp only [firstMatch]
    split
    · next h => simp [h]
    · next h => simp only [Bool.not_eq_true] at h; simp [ih, h]

/-- The kept nibbles of a word as a number, and its size. -/
theorem compact_fold (u mask : Word32) (js : List Nat) (acc : Nat) :
    ∃ r, r < 16 ^ (js.filter fun j => decide (nib mask.toNat j = 0xF)).length ∧
      js.foldl (fun acc j => if nib mask.toNat j = 0xF then acc * 16 + (nib u.toNat j).toNat else acc) acc =
        acc * 16 ^ (js.filter fun j => decide (nib mask.toNat j = 0xF)).length + r := by
  induction js generalizing acc with
  | nil => exact ⟨0, by simp, by simp⟩
  | cons j js ih =>
    simp only [List.foldl_cons, List.filter_cons]
    by_cases h : nib mask.toNat j = 0xF
    · simp only [h, if_true, decide_true]
      obtain ⟨r, hr, he⟩ := ih (acc * 16 + (nib u.toNat j).toNat)
      have hn : (nib u.toNat j).toNat < 16 := (nib u.toNat j).isLt
      refine ⟨(nib u.toNat j).toNat * 16 ^ (js.filter fun j => decide (nib mask.toNat j = 0xF)).length + r, ?_, ?_⟩
      · rw [List.length_cons, pow_succ]
        have := Nat.mul_le_mul_right (16 ^ (js.filter fun j => decide (nib mask.toNat j = 0xF)).length)
          (Nat.le_of_lt_succ hn)
        omega
      · rw [he, List.length_cons, pow_succ]; ring
    · simp only [h, if_false, decide_false, Bool.false_eq_true]
      exact ih acc

theorem compact_lt (u mask : Word32) :
    compact u mask < 16 ^ ([7, 6, 5, 4, 3, 2, 1, 0].filter fun j => decide (nib mask.toNat j = 0xF)).length := by
  obtain ⟨r, hr, he⟩ := compact_fold u mask [7, 6, 5, 4, 3, 2, 1, 0] 0
  rw [compact, he]
  omega

/-- The value of a table symbol: the prefix above the kept nibbles (R202). -/
theorem tableSymbol_value {i : Nat} {t : PatternEntry} (u : Word32)
    (h : t.count = ([7, 6, 5, 4, 3, 2, 1, 0].filter fun j => decide (nib t.dcMask.toNat j = 0xF)).length) :
    (tableSymbol i t u).value = (8 + i) * 16 ^ t.count + compact u t.dcMask := by
  have hc := compact_lt u t.dcMask
  rw [← h] at hc
  have hp : 16 ^ t.count = 2 ^ (4 * t.count) := by rw [pow_mul]; norm_num
  rw [hp] at hc ⊢
  simp only [tableSymbol]
  rw [← Nat.shiftLeft_add_eq_or_of_lt hc, Nat.shiftLeft_eq]

theorem tableSymbol_narrow {i : Nat} {t : PatternEntry} (u : Word32) (hi : i < 4) (h7 : t.count ≤ 7)
    (h : t.count = ([7, 6, 5, 4, 3, 2, 1, 0].filter fun j => decide (nib t.dcMask.toNat j = 0xF)).length) :
    (tableSymbol i t u).nibbles ≤ 8 ∧ (tableSymbol i t u).value < 2 ^ 32 := by
  refine ⟨by simp only [tableSymbol]; omega, ?_⟩
  rw [tableSymbol_value u h]
  have hc := compact_lt u t.dcMask
  rw [← h] at hc
  have h1 : 16 ^ t.count ≤ 16 ^ 7 := Nat.pow_le_pow_right (by omega) h7
  have h2 : (8 + i) * 16 ^ t.count ≤ 11 * 16 ^ t.count := Nat.mul_le_mul_right _ (by omega)
  omega

theorem dynamicSymbol_narrow (cfg : Knobs) {table : List PatternEntry} (h : TableFits table) (u : Word32) :
    (dynamicSymbol cfg.params table u).nibbles ≤ 8 ∧ (dynamicSymbol cfg.params table u).value < 2 ^ 32 := by
  simp only [dynamicSymbol]
  split
  · exact ladderSymbol_narrow cfg u
  · split
    · next i t hm =>
      obtain ⟨j, hj, rfl, rfl, -, -⟩ := firstMatch_spec hm
      obtain ⟨e1, e2⟩ := h.entries table[j] (List.getElem_mem hj)
      have := h.short
      exact tableSymbol_narrow u (by omega) e1 e2
    · exact ladderSymbol_narrow cfg u

theorem zeroBlockPlan_fits : zeroBlockPlan.Fits := by
  intro ys h
  simp only [zeroBlockPlan, Option.some.injEq] at h
  subst h
  exact ⟨by decide, by simp, by simp [nibbleStream, symbolNibbles]⟩

/-- The dynamic FPC plan of a block (R204). -/
def dynFpcPlanOf (cfg : Knobs) (table : List PatternEntry) (p : Payload) : Plan :=
  if allZero ((blockWordBits p).map BitVec.toNat) then zeroBlockPlan
  else planOfSymbols ((blockWordBits p).map (dynamicSymbol cfg.params table))

/-- The dynamic BDI plan of a block (R205). -/
def dynBdiPlanOf (cfg : Knobs) (enabled : Vector Bool 8) (p : Payload) : Plan :=
  if allZero (blockWords p 8) then zeroBlockPlan else bdiPlanOf cfg p enabled

/-- The plan dynamicCompress applies (R206). -/
def dynamicPlanOf (cfg : Knobs) (e : Engine) (p : Payload) : Plan :=
  smallerPlan (dynFpcPlanOf cfg e.table p) (dynBdiPlanOf cfg e.bdiEnable p)

theorem dynamicPlanOf_fits (cfg : Knobs) {e : Engine} (h : TableFits e.table) (p : Payload) : (dynamicPlanOf cfg e p).Fits := by
  refine smallerPlan_fits ?_ ?_
  · simp only [dynFpcPlanOf]
    split
    · exact zeroBlockPlan_fits
    · intro ys hy
      refine (planOfSymbols_packable (by simp) ?_ hy).2
      intro y hy
      obtain ⟨u, -, rfl⟩ := List.mem_map.1 hy
      exact dynamicSymbol_narrow cfg h u
  · simp only [dynBdiPlanOf]
    split
    · exact zeroBlockPlan_fits
    · exact bdiPlanOf_fits cfg p _

theorem dynamicCompress_eq_applyPlan (cfg : Knobs) (e : Engine) (p : Payload) :
    dynamicCompress cfg.params e p = applyPlan p (dynamicPlanOf cfg e p) := dynamicCompress_eq cfg.params e p

theorem dynamicCompress_completes (cfg : Knobs) {e : Engine} (h : TableFits e.table) (p : Payload) :
    dynamicCompress cfg.params e p =
      .ok (applied p (dynamicPlanOf cfg e p), (dynamicPlanOf cfg e p).symbols.isSome) := by
  rw [dynamicCompress_eq_applyPlan]; exact applyPlan_fits p (dynamicPlanOf_fits cfg h p)

end Sys2Proof.Machine
end

