-- ==== Sys2Proof/Laws/Learner.lean ====
section
/-! SUPPORT. The pattern learner's ranking, said once: what the candidates are, and what the kept four are of them. -/

namespace Sys2Proof.Machine

theorem insertRanked_perm (c : Candidate) (l : List Candidate) : (insertRanked c l).Perm (c :: l) := by
  induction l with
  | nil => exact List.Perm.refl _
  | cons d ds ih =>
    simp only [insertRanked]
    split
    · exact List.Perm.refl _
    · exact (ih.cons d).trans (List.Perm.swap c d ds)

theorem foldl_insertRanked_perm (cs acc : List Candidate) :
    (cs.foldl (fun acc c => insertRanked c acc) acc).Perm (acc ++ cs) := by
  induction cs generalizing acc with
  | nil => simp
  | cons c cs ih =>
    rw [List.foldl_cons]
    refine (ih _).trans (((insertRanked_perm c acc).append_right cs).trans ?_)
    rw [List.cons_append]
    exact List.perm_middle.symm

/-- Ranking loses and adds no candidate (R173). -/
theorem rank_perm (cs : List Candidate) : (rank cs).Perm cs := by
  simpa [rank] using foldl_insertRanked_perm cs []

/-- The sample candidates stand for different group values, none of them excluded or recorded before (R170). -/
theorem sampleCandidates_kinds (k : Params) (e : Engine) (groups : List (BitVec 8)) (period : Nat) (gs : List Nat)
    (seen : List (BitVec 8)) :
    ∃ vs : List (BitVec 8), vs.Nodup ∧ (∀ v ∈ vs, neverCandidate v = false ∧ v ∉ seen) ∧
      (sampleCandidates k e groups period seen gs).map Candidate.kind = vs.map .sample := by
  induction gs generalizing seen with
  | nil => exact ⟨[], by simp, by simp, rfl⟩
  | cons g gs ih =>
    simp only [sampleCandidates]
    split
    · exact ih seen
    · next h =>
      obtain ⟨vs, h1, h2, h3⟩ := ih (seen ++ [groups.getD g 0])
      refine ⟨groups.getD g 0 :: vs, ?_, ?_, by rw [List.map_cons, List.map_cons, h3]⟩
      · refine List.nodup_cons.2 ⟨fun hm => ?_, h1⟩
        simpa using (h2 _ hm).2
      · intro v hv
        rcases List.mem_cons.1 hv with rfl | hv
        · simpa using h
        · have := h2 v hv
          simp only [List.mem_append, List.mem_singleton, not_or] at this
          exact ⟨this.1, this.2.1⟩

/-- The kinds of all candidates in insertion order: the eleven slots, then different group values (R164, R173). -/
theorem candidates_kinds (cfg : Knobs) (e : Engine) :
    ∃ vs : List (BitVec 8), vs.Nodup ∧ (∀ v ∈ vs, neverCandidate v = false) ∧
      (candidates cfg e).map Candidate.kind =
        (List.finRange 3).map .fpc ++ (List.finRange 8).map .bdi ++ vs.map .sample := by
  obtain ⟨vs, h1, h2, h3⟩ := sampleCandidates_kinds cfg.params e (groupValues cfg e) (patternNum (groupValues cfg e))
    (List.range (patternNum (groupValues cfg e))) []
  refine ⟨vs, h1, fun v hv => (h2 v hv).1, ?_⟩
  simp only [candidates, List.map_append, h3, structuralCandidates, List.map_map]
  rfl

/-- No two candidates stand for the same thing. -/
theorem candidates_nodup (cfg : Knobs) (e : Engine) :
    ((candidates cfg e).map Candidate.kind).Nodup := by
  obtain ⟨vs, h1, -, h3⟩ := candidates_kinds cfg e
  rw [h3, List.nodup_append]
  refine ⟨by decide, h1.map (fun a b h => by simpa using h), ?_⟩
  intro a ha b hb hab
  obtain ⟨v, -, rfl⟩ := List.mem_map.1 hb
  subst hab
  simp at ha

/-- The kept four are four candidates that stand for different things (R173). -/
theorem keptFour_spec (cfg : Knobs) (e : Engine) :
    (keptFour cfg e).length = 4 ∧ ((keptFour cfg e).map Candidate.kind).Nodup ∧
      ∀ c ∈ keptFour cfg e, c ∈ candidates cfg e := by
  have hp := rank_perm (candidates cfg e)
  obtain ⟨vs, -, -, h3⟩ := candidates_kinds cfg e
  have hl : 11 ≤ (candidates cfg e).length := by
    rw [← List.length_map (f := Candidate.kind), h3]
    simp only [List.length_append, List.length_map, List.length_finRange]
    omega
  refine ⟨?_, ?_, fun c hc => hp.subset (List.take_subset _ _ hc)⟩
  · rw [keptFour, List.length_take, hp.length_eq, Config.ptMax]
    omega
  · have : ((rank (candidates cfg e)).map Candidate.kind).Nodup := (hp.map _).nodup_iff.2 (candidates_nodup cfg e)
    exact this.sublist ((List.take_sublist _ _).map _)

/-- A table entry that extraction writes is the mask of a group value that may become a candidate (R170, R174). -/
theorem keptFour_entry {cfg : Knobs} {e : Engine} {t : PatternEntry}
    (h : t ∈ (keptFour cfg e).filterMap Candidate.entry) :
    ∃ v : BitVec 8, neverCandidate v = false ∧ t = ⟨dcMask v, popcount v⟩ := by
  obtain ⟨c, hc, he⟩ := List.mem_filterMap.1 h
  obtain ⟨vs, -, v2, v3⟩ := candidates_kinds cfg e
  have hk : c.kind ∈ (candidates cfg e).map Candidate.kind :=
    List.mem_map_of_mem ((keptFour_spec cfg e).2.2 c hc)
  rw [v3] at hk
  unfold Candidate.entry at he
  match hck : c.kind with
  | .fpc s => rw [hck] at he; simp at he
  | .bdi m => rw [hck] at he; simp at he
  | .sample v =>
    rw [hck] at he hk
    simp only [Option.some.injEq] at he
    exact ⟨v, v2 v (by simpa using hk), he.symm⟩

end Sys2Proof.Machine
end

