-- ==== Sys2Proof/Laws/PerInstr.lean ====
section
/-! SUPPORT. One lemma per command: its word passes the three checks of R76 and is one of the eleven R76 lists. -/

namespace Sys2Proof.Laws.LegalEncoding

/-- The word of a command is well formed and listed (R72 to R76). -/
def Statement (i : Instr) : Prop := wordWellFormed (Sys2Proof.encode i) = true ∧ Sys2Proof.encode i ∈ legalWords

theorem compressNone : Statement .compressNone := ⟨rfl, by decide⟩
theorem compressFpc : Statement .compressFpc := ⟨rfl, by decide⟩
theorem compressBdi : Statement .compressBdi := ⟨rfl, by decide⟩
theorem compressDfpc : Statement .compressDfpc := ⟨rfl, by decide⟩
theorem encode : Statement .encode := ⟨rfl, by decide⟩
theorem countRaw1 : Statement .countRaw1 := ⟨rfl, by decide⟩
theorem countRaw2 : Statement .countRaw2 := ⟨rfl, by decide⟩
theorem countRaw3 : Statement .countRaw3 := ⟨rfl, by decide⟩
theorem countCells1 : Statement .countCells1 := ⟨rfl, by decide⟩
theorem countCells2 : Statement .countCells2 := ⟨rfl, by decide⟩
theorem countCells3 : Statement .countCells3 := ⟨rfl, by decide⟩

end Sys2Proof.Laws.LegalEncoding
end

