-- ==== Sys2Proof/Tests/Slice0.lean ====
section
/-! SUPPORT. The model's own tests: what the well-formed checks refuse, each command's word written out from the spec's
encoding, the vectors of spec/95_test_vectors.md named in each comment, and for every statement with hypotheses a
concrete state and operands that meet them. -/

namespace Sys2Proof.Tests

set_option Elab.async false

open Sys2Proof.Machine

/-! ### Helpers -/

/-- A byte buffer of a list of bytes from offset 0. -/
def bufferOf (bytes : List Nat) : Memory := Memory.writeBytes [] 0 (bytes.map (BitVec.ofNat 8))

/-- A raw payload of the given 64 bytes. -/
def rawOf (bytes : List Nat) : Payload := { Payload.fresh with rawBytes := bufferOf bytes }

/-- A raw payload of `n` words of `w` bytes, word `i` by a function. -/
def wordsOf (w n : Nat) (f : Nat → Nat) : Payload :=
  rawOf ((List.range n).flatMap fun i => (List.range w).map fun j => f i / 256 ^ j % 256)

/-- A compressed payload of the given bytes. -/
def viewOf (bytes : List Nat) (half : Bool) : Payload :=
  { Payload.fresh with
    isCompressed := true, compressedBytes := bufferOf bytes, compressedLength := BitVec.ofNat 7 bytes.length
    isHalfTerminated := half }

/-- The state after reset with a record in hand. -/
def holding (new old : Payload) : State := { State.reset with request := { new := new, old := old } }

/-- That state with a horizon, a write counter, and one word to present. -/
def presenting (word : CommandWord) (horizon wc : Nat) (s : State) : State :=
  { s with
    cfg := { s.cfg with horizon := BitVec.ofNat 64 horizon }
    wc := BitVec.ofNat 64 wc
    host := [.command word (BitVec.ofNat 64 wc)] }

/-- The state an outcome goes on in. -/
def nextOf : Host.Outcome State Fault Refusal → Option State
  | .next t => some t
  | _ => none

theorem nextOf_some {o : Host.Outcome State Fault Refusal} (h : (nextOf o).isSome = true) : ∃ t, o = .next t := by
  match o, h with
  | .next t, _ => exact ⟨t, rfl⟩

/-- The bytes, lengths and flags of a payload's compressed view. -/
def viewBytes (p : Payload) : Bool × Bool × List Nat :=
  (p.isCompressed, p.isHalfTerminated,
    (Memory.readBytes p.compressedBytes 0 p.compressedLength.toNat).map BitVec.toNat)

/-- The new payload's view and the RESULT after one step. -/
def newAfter (s : State) : Option ((Bool × Bool × List Nat) × Option Result) :=
  (nextOf (step s)).map fun t => (viewBytes t.request.new, t.result)

/-- The engine after one step. -/
def engineAfter (s : State) : Option Engine := (nextOf (step s)).map State.engine

def zeroBlock : Payload := Payload.fresh
def repeated : Payload := wordsOf 8 8 fun _ => 0x1122334455667788
def rungSevens : Payload := wordsOf 4 16 fun i => 0x12345678 + i * 0x01010101
def learned : Payload := wordsOf 4 16 fun _ => 0x001A0070
def countingBytes : Payload := rawOf (List.range 64)

/-- An extracted engine with one table entry, three FPC flags and no BDI flag (vector L5's outputs). -/
def trained : Engine :=
  { Engine.reset with
    table := [⟨0x00FF00F0, 3⟩], fpcEnable := Vector.replicate 3 true, extracted := true }

/-- Samples that give group `g` the value of a list, marked nibbles 0 and the others 10. -/
def groupSamples (groups : List (BitVec 8)) : Engine :=
  { Engine.reset with samples := Vector.ofFn fun p : Fin 128 =>
      if (groups.getD (p.val / 8) 0).getLsbD (p.val % 8) then 0 else 10 }

/-! ### Well-formed words and records -/

/-- R76: reserved `op`. -/
theorem test_reserved_op_refused : opAssigned 0b01100000 = false ∧ decode 0b01100000 = .error .reservedOp ∧
    decode 0b11111111 = .error .reservedOp := by decide

/-- R72 to R74: a must-be-zero field of each operation. -/
theorem test_must_be_zero_refused : zeroFieldsClear 0b00000100 = false ∧ decode 0b00000100 = .error .mustBeZero ∧
    decode 0b00100001 = .error .mustBeZero ∧ decode 0b01001001 = .error .mustBeZero := by decide

/-- R74: `levels` = 0, with either `cc`. -/
theorem test_levels_zero_refused : levelsAssigned 0b01000000 = false ∧
    decode 0b01000000 = .error .reservedLevels ∧ decode 0b01000100 = .error .reservedLevels := by decide

/-- R23: the three conditions on a payload, each broken alone, and their boundaries. -/
theorem test_ill_formed_payloads_refused :
    Payload.wellFormed { Payload.fresh with rawLen := 63 } = false ∧
    Payload.wellFormed { Payload.fresh with rawLen := 65 } = false ∧
    Payload.wellFormed { Payload.fresh with compressedLength := 73 } = false ∧
    Payload.wellFormed { Payload.fresh with compressedLength := 72 } = true ∧
    Payload.wellFormed { Payload.fresh with compressedLength := 1, isHalfTerminated := true } = false ∧
    Payload.wellFormed { Payload.fresh with isCompressed := true, isHalfTerminated := true } = false ∧
    Payload.wellFormed (viewOf [0x90] true) = true := by decide

/-! ### Decoding: each word from the fields of 30_encoding.md, `op` `arg` bit by bit -/

theorem test_decode_compress : decode 0b00000000 = .ok .compressNone ∧ decode 0b00000001 = .ok .compressFpc ∧
    decode 0b00000010 = .ok .compressBdi ∧ decode 0b00000011 = .ok .compressDfpc := by decide

theorem test_decode_encode : decode 0b00100000 = .ok .encode := by decide

theorem test_decode_count_raw : decode 0b01000001 = .ok .countRaw1 ∧ decode 0b01000010 = .ok .countRaw2 ∧
    decode 0b01000011 = .ok .countRaw3 := by decide

theorem test_decode_count_cells : decode 0b01000101 = .ok .countCells1 ∧ decode 0b01000110 = .ok .countCells2 ∧
    decode 0b01000111 = .ok .countCells3 := by decide

/-- R77: the rows take exactly the legal words, and no two rows take the same word. -/
theorem test_decode_rows : (∀ w : CommandWord, (decodeRows.any fun r => r.takes w) = legalWords.contains w) ∧
    (∀ w : CommandWord, decodeRows.countP (fun r => r.takes w) ≤ 1) := by decide +kernel

theorem test_decode_table_word : decodeTableWord 8 0x20 = some .encode ∧ decodeTableWord 8 0x48 = none := by decide

/-! ### One step of each command, against spec/95_test_vectors.md -/

/-- C1. -/
theorem test_compress_none : newAfter (presenting 0x00 0 0 (holding repeated zeroBlock)) =
    some ((false, false, []), some (.compress false)) := by decide +kernel

/-- F6, C2. -/
theorem test_compress_fpc : newAfter (presenting 0x01 0 0 (holding
      (wordsOf 4 16 fun i => [0, 0xFF, 0xFFFF0000, 0x12345678].getD i 0) countingBytes)) =
    some ((true, true, [0x01, 0xFF, 0x3F, 0xFF, 0xF1, 0x23, 0x45, 0x67, 0x80, 0, 0, 0, 0, 0, 0]),
      some (.compress true)) := by decide +kernel

/-- F2, X7. -/
theorem test_compress_fpc_rejects : newAfter (presenting 0x01 0 0 (holding rungSevens zeroBlock)) =
    some ((false, false, []), some (.compress false)) := by decide +kernel

/-- B1, C3. -/
theorem test_compress_bdi : newAfter (presenting 0x02 0 0 (holding repeated zeroBlock)) =
    some ((true, true, [0x31, 0x12, 0x23, 0x34, 0x45, 0x56, 0x67, 0x78, 0x80]), some (.compress true)) := by
  decide +kernel

/-- B5: a base and its deltas, each nibble after the tag. -/
theorem test_compress_bdi_deltas : newAfter (presenting 0x02 0 0 (holding (wordsOf 8 8 (0x1000 + ·)) zeroBlock)) =
    some ((true, true, [0, 0, 0, 0, 0, 0, 1, 0, 0, 0, 0x10, 0x20, 0x30, 0x40, 0x50, 0x60, 0x70]),
      some (.compress true)) := by decide +kernel

/-- L3, T2: a training write counts the winner's slot and no FPC hit, and codes by BDI. -/
theorem test_dfpc_training :
    newAfter (presenting 0x03 3 2 (holding repeated zeroBlock)) =
      some ((true, true, [0x31, 0x12, 0x23, 0x34, 0x45, 0x56, 0x67, 0x78, 0x80]), some (.compress true)) ∧
    (engineAfter (presenting 0x03 3 2 (holding repeated zeroBlock))).map (fun e =>
      (e.fpcHits.toList, e.bdiHits.toList, e.extracted)) =
      some ([0, 0, 0], [0, 0, 0, 0, 0, 0, 0, 1], false) := by decide +kernel

/-- C4, L1: at the horizon, untrained: extraction keeps the first four, then the dynamic codecs. -/
theorem test_dfpc_first_steady :
    newAfter (presenting 0x03 0 0 (holding learned zeroBlock)) =
      some ((true, true, [0x00, 0x01, 0xA0, 0x07, 0x00, 0x01, 0xA0, 0x07, 0, 0, 0, 0, 0, 0, 0, 0, 0]),
        some (.compress true)) ∧
    (engineAfter (presenting 0x03 0 0 (holding learned zeroBlock))).map (fun e =>
      (e.table, e.fpcEnable.toList, e.bdiEnable.toList, e.extracted)) =
      some ([], [true, true, true], [true, false, false, false, false, false, false, false], true) := by
  decide +kernel

/-- E3, E16: 0x1B becomes 0x0770, 49 bytes are left alone, RESULT 2. -/
theorem test_encode : newAfter (presenting 0x20 0 0 (holding (viewOf [0x1B] false)
      (viewOf (List.replicate 49 0xAA) false))) =
    some ((true, false, [0x07, 0x70]), some (.encode 2)) := by decide +kernel

/-- E7: only the high nibble of a half-terminated byte is remapped. -/
theorem test_encode_half : newAfter (presenting 0x20 0 0 (holding (viewOf [0xF0] true) zeroBlock)) =
    some ((true, true, [0xFC]), some (.encode 2)) := by decide +kernel

/-- The RESULT of a COUNT word on two payloads. -/
def counted (word : CommandWord) (new old : Payload) : Option (Option Result) :=
  (nextOf (step (presenting word 0 0 (holding new old)))).map State.result

/-- W10, W12. -/
theorem test_count_raw1 : counted 0x41 (viewOf [0x90, 0, 0] true) zeroBlock = some (some (.count 24)) := by
  decide +kernel

theorem test_count_raw2 : counted 0x42 (viewOf [] false) zeroBlock = some (some (.count 0)) := by decide +kernel

/-- W13: 576 is clamped. -/
theorem test_count_raw3 : counted 0x43 (viewOf (List.replicate 72 0) false) zeroBlock = some (some (.count 512)) := by
  decide +kernel

/-- W8. -/
theorem test_count_cells1 : counted 0x45 (viewOf [0x90, 0, 0] true) zeroBlock = some (some (.count 490)) := by
  decide +kernel

/-- `00` against `1C` at 2 bits per cell. -/
theorem test_count_cells2 : counted 0x46 (viewOf [0x00] false) (viewOf [0x1C] false) = some (some (.count 4)) := by
  decide +kernel

/-- `00` against `1C` at 3 bits per cell, and W9. -/
theorem test_count_cells3 : counted 0x47 (viewOf [0x00] false) (viewOf [0x1C] false) = some (some (.count 3)) ∧
    counted 0x47 (viewOf [0x90, 0, 0] true) zeroBlock = some (some (.count 494)) := by decide +kernel

/-- X1, X2, X4: an illegal word before the check of the record, an ill-formed record, each with its code. -/
theorem test_fault_codes :
    (engineAfter (presenting 0x44 0 0 (holding { Payload.fresh with isHalfTerminated := true } zeroBlock))).map
      (fun e => (e.fault, e.faultCode)) = some (true, 1) ∧
    (engineAfter (presenting 0x01 0 0 (holding { Payload.fresh with isHalfTerminated := true } zeroBlock))).map
      (fun e => (e.fault, e.faultCode)) = some (true, 2) := by decide +kernel

/-- L6: two groups in turn give the two masks in rank order. -/
theorem test_extract_two_groups :
    let e := groupSamples (List.replicate 8 [0x32, 0x0C]).flatten
    (extractPattern defaultKnobs e).table = [⟨0x0000FF00, 2⟩, ⟨0x00FF00F0, 3⟩] ∧
    (extractPattern defaultKnobs e).fpcEnable.toList = [true, true, false] := by decide +kernel

/-- Words of the table of 2.8: entry, then kept nibbles. -/
theorem test_table_symbols :
    let table : List PatternEntry := [⟨0x0000FF00, 2⟩, ⟨0x00FF00F0, 3⟩, ⟨0xF000000F, 2⟩, ⟨0x0FFFFFFF, 7⟩]
    dynamicSymbol defaultParams table 0x001A0070 = ⟨0x91A7, 4⟩ ∧
    dynamicSymbol defaultParams table 0x01234567 = ⟨0xB1234567, 8⟩ ∧
    dynamicSymbol defaultParams table 0x12345678 = ⟨0x12345678, 8⟩ ∧
    dynamicSymbol defaultParams table 0 = ⟨0x0, 1⟩ := by decide +kernel

/-- The rung boundaries of 2.4. -/
theorem test_ladder_boundaries :
    [0x0, 0xFF, 0xFFFFFF01, 0x100, 0xFFFFFF00, 0xFFFF, 0xFFFF0001, 0x10000, 0xFFFF0000, 0xFFFEFFFF, 0x7F7F7F7F,
      0x0100FF01].map fpcRung =
    [.zero, .smallByte, .smallByte, .smallHalf, .smallHalf, .smallHalf, .smallHalf, .lowHalfZero, .lowHalfZero,
      .smallHalves, .equalBytes, .raw] := by decide +kernel

/-! ### Witnesses: a state and operands that meet the hypotheses of each statement -/

/-- And for the second clause of DecodeAndEncodeAgree. -/
theorem witness_StepRunsThePresentedCommand :
    (presenting 0x20 0 5 State.reset).host = [.command 0x20 5] ∧ decode 0x20 = .ok .encode := by decide

theorem witness_IllegalWordRaisesIllegalCommand :
    (presenting 0x44 0 5 State.reset).host = [.command 0x44 5] ∧
    (presenting 0x44 0 5 State.reset).engine.fault = false ∧ decode 0x44 = .error .reservedLevels := by decide

theorem witness_FaultedEngineRefusesEveryWord :
    (presenting 0x44 0 5 (raiseFault .badRequest State.reset)).host = [.command 0x44 5] ∧
    (presenting 0x44 0 5 (raiseFault .badRequest State.reset)).engine.fault = true := by decide

theorem witness_IllFormedRecordRaisesBadRequest :
    State.reset.engine.fault = false ∧ Payload.rawLen { Payload.fresh with rawLen := 65 } ≠ 64 ∧
    72 < (Payload.compressedLength { Payload.fresh with compressedLength := 73 }).toNat ∧
    (holding { Payload.fresh with isHalfTerminated := true } zeroBlock).request.new.isHalfTerminated = true ∧
    (holding { Payload.fresh with isHalfTerminated := true } zeroBlock).request.new.isCompressed = false ∧
    (viewOf [] true).isHalfTerminated = true ∧ (viewOf [] true).compressedLength = 0 := by decide

theorem witness_ResetActionRestoresTheEngine :
    State.host { State.reset with host := [.reset] } = [.reset] := rfl

theorem witness_HostTurnsWithoutACommand :
    State.reset.host = [] ∧ State.host { State.reset with host := [.lend ⟨repeated, zeroBlock⟩] } =
      [.lend ⟨repeated, zeroBlock⟩] := ⟨rfl, rfl⟩

/-- The trained state of the witnesses: ready, with COMPRESS.DFPC to present. -/
def trainedState : State := { presenting 0x03 3 0 (holding learned (viewOf [0x90, 0, 0] true)) with engine := trained }

theorem trained_tableOk : TableOk trained.table where
  short := by decide
  entries := by
    intro t ht
    obtain rfl : t = ⟨0x00FF00F0, 3⟩ := by simpa [trained] using ht
    exact ⟨by decide, by decide, by decide, by decide⟩

theorem witness_EveryStepKeepsEngineInv :
    EngineInv trainedState.engine ∧ ∃ t, step trainedState = .next t :=
  ⟨⟨trained_tableOk, by decide, by decide, by decide, by decide, by decide⟩, nextOf_some (by decide +kernel)⟩

theorem witness_EveryStepKeepsBuffersInv : BuffersInv trainedState ∧ ∃ t, step trainedState = .next t := by
  refine ⟨⟨by unfold Canonical; decide +kernel, ?_⟩, nextOf_some (by decide +kernel)⟩
  intro r hr
  simp [trainedState, presenting] at hr

/-- For CommandsKeepTheRecordWellFormed, CommandsNeverWriteRawBytes, CommandsLeaveConfigurationAndInputs,
LearnedStateIsFrozenAfterExtraction and ResultExactlyWithoutFault: every command answers a next state there. -/
theorem witness_every_command_next :
    trainedState.request.wellFormed = true ∧ trainedState.engine.extracted = true ∧
    (∀ i : Instr, i ∈ [Instr.compressNone, .compressFpc, .compressBdi, .compressDfpc, .encode, .countRaw1, .countRaw2,
      .countRaw3, .countCells1, .countCells2, .countCells3] → (nextOf (exec i trainedState)).isSome = true) := by
  refine ⟨by decide +kernel, rfl, ?_⟩
  intro i hi
  cases i <;> decide +kernel

theorem trainedState_ready : Ready trainedState := ⟨rfl, by decide +kernel⟩
theorem trainedState_canonical : Canonical trainedState := by unfold Canonical; decide +kernel

theorem witness_OnlyDfpcChangesTheEngine :
    Instr.encode ≠ .compressDfpc ∧ Ready trainedState ∧ ∃ t, exec .encode trainedState = .next t :=
  ⟨by decide, trainedState_ready, nextOf_some (by decide +kernel)⟩

theorem witness_FaultingCommandDiscardsItsWrites :
    (holding { Payload.fresh with rawLen := 63 } zeroBlock).engine.fault = false ∧
    ((nextOf (exec .encode (holding { Payload.fresh with rawLen := 63 } zeroBlock))).map fun t => t.engine.fault) =
      some true := by decide

theorem witness_FaultOutlastsEveryStepButReset :
    (presenting 0x20 0 0 (raiseFault .capacity State.reset)).engine.fault = true ∧
    (∀ rest, (presenting 0x20 0 0 (raiseFault .capacity State.reset)).host ≠ .reset :: rest) ∧
    ∃ t, step (presenting 0x20 0 0 (raiseFault .capacity State.reset)) = .next t :=
  ⟨rfl, fun rest h => by simp [presenting] at h, nextOf_some (by decide)⟩

/-- For CompressNoneReturnsZero, CompressFpcCodesBothPayloads, CompressBdiCodesBothPayloads,
CountRawGivesTheStreamWidth, CountCellsWeighsChangedCells and CountCellsIsZeroIffStreamsAgree. -/
theorem witness_ready_and_canonical : Ready trainedState ∧ Canonical trainedState :=
  ⟨trainedState_ready, trainedState_canonical⟩

theorem witness_BdiStoresOneByteMoreThanItsSize :
    Ready (holding repeated zeroBlock) ∧
    ((nextOf (exec .compressBdi (holding repeated zeroBlock))).map fun t => t.request.new.isCompressed) = some true :=
  ⟨⟨rfl, by decide +kernel⟩, by decide +kernel⟩

/-- In training, with the write counter just below the horizon. -/
def trainingState : State := presenting 0x03 3 2 (holding repeated zeroBlock)

/-- For DfpcTrainingCodesBothPayloads and DfpcTrainingCountsTheNewPayload. -/
theorem witness_DfpcTraining : Ready trainingState ∧ Canonical trainingState ∧
    trainingState.engine.extracted = false ∧ trainingState.wc.toNat < trainingState.cfg.horizon.toNat :=
  ⟨⟨rfl, by decide +kernel⟩, by unfold Canonical; decide +kernel, rfl, by decide⟩

theorem repeated_winner : BdiWinner trainingState.cfg.params trainingState.request.new allSlots ⟨3, .sameValue, 8, 7⟩ :=
  ⟨by decide, by decide, by decide +kernel, by decide +kernel, by decide +kernel⟩

/-- The two clauses on BDI hits: the winner's slot is 7, and no winner has slot 0. -/
theorem witness_DfpcTrainingCountsTheNewPayload :
    (∃ m, BdiWinner trainingState.cfg.params trainingState.request.new allSlots m ∧ m.slot = 7) ∧
    ¬∃ m, BdiWinner trainingState.cfg.params trainingState.request.new allSlots m ∧ m.slot = 0 := by
  refine ⟨⟨_, repeated_winner, rfl⟩, ?_⟩
  rintro ⟨m, hm, h0⟩
  have hle := hm.smallest ⟨3, .sameValue, 8, 7⟩ (by decide) rfl
  have hall : ∀ m ∈ bdiMethods, m.slot = 0 →
      ¬bdiSize trainingState.cfg.params trainingState.request.new m ≤ bdiSize trainingState.cfg.params trainingState.request.new ⟨3, .sameValue, 8, 7⟩ := by
    decide +kernel
  exact hall m hm.listed h0 hle

/-- For DfpcSteadyCodesBothPayloads, the extracted case. -/
theorem witness_DfpcSteady_extracted : Ready trainedState ∧ Canonical trainedState ∧
    trainedState.engine.extracted = true ∧ TableOk trainedState.engine.table :=
  ⟨trainedState_ready, trainedState_canonical, rfl, trained_tableOk⟩

/-- For DfpcSteadyCodesBothPayloads and FirstSteadyWriteExtracts: at the horizon exactly, not yet extracted. -/
theorem witness_FirstSteadyWrite : Ready (presenting 0x03 3 3 (holding learned zeroBlock)) ∧
    Canonical (presenting 0x03 3 3 (holding learned zeroBlock)) ∧
    (presenting 0x03 3 3 (holding learned zeroBlock)).engine.extracted = false ∧
    (presenting 0x03 3 3 (holding learned zeroBlock)).cfg.horizon.toNat ≤
      (presenting 0x03 3 3 (holding learned zeroBlock)).wc.toNat :=
  ⟨⟨rfl, by decide +kernel⟩, by unfold Canonical; decide +kernel, rfl, by decide⟩

theorem witness_CounterGoingBackDoesNotRetrain : trainedState.engine.extracted = true ∧
    ∃ t, exec .compressDfpc { trainedState with wc := 9 } = .next t :=
  ⟨rfl, nextOf_some (by decide +kernel)⟩

/-- Two records with the same new raw bytes and different everything else. -/
theorem witness_LearnerSeesOnlyTheNewRawBytes :
    Ready trainingState ∧ Ready { trainingState with request := ⟨repeated, learned⟩ } ∧
    trainingState.request.new.rawBytes = repeated.rawBytes ∧ trainingState.request.old ≠ learned ∧
    trainingState.engine.extracted = false :=
  ⟨⟨rfl, by decide +kernel⟩, ⟨rfl, by decide +kernel⟩, rfl, by decide +kernel, rfl⟩

theorem witness_EncodeRemapsCompressedPayloads :
    Remappable (viewOf (List.replicate 48 0xAA) false) ∧ ¬Remappable (viewOf (List.replicate 49 0xAA) false) ∧
    Ready (holding (viewOf (List.replicate 48 0xAA) false) (viewOf (List.replicate 49 0xAA) false)) ∧
    Canonical (holding (viewOf (List.replicate 48 0xAA) false) (viewOf (List.replicate 49 0xAA) false)) :=
  ⟨by decide +kernel, by decide +kernel, ⟨rfl, by decide +kernel⟩, by unfold Canonical; decide +kernel⟩

/-- Each clause of the applicability, at its boundary (E14, E16, E17). -/
theorem witness_TernaryEncoderAppliesUpToFortyEightBytes :
    ((viewOf (List.replicate 48 0xAA) false).isCompressed = true ∧
      (viewOf (List.replicate 48 0xAA) false).compressedLength.toNat = 48) ∧
    48 < (viewOf (List.replicate 49 0xAA) false).compressedLength.toNat ∧ zeroBlock.isCompressed = false := by
  decide +kernel

theorem witness_TernaryMapDoublesTheFirstBit : 1 < [false, false, true, false].length / 2 := by decide

/-- Two records that differ in the one byte that is not valid. -/
theorem witness_InvalidBytesMakeNoDifference :
    StateSameToRules (holding (viewOf [0x90] true) zeroBlock)
      (holding { viewOf [0x90] true with compressedBytes := bufferOf [0x90, 0x77] } zeroBlock) ∧
    Canonical (holding (viewOf [0x90] true) zeroBlock) ∧
    Canonical (holding { viewOf [0x90] true with compressedBytes := bufferOf [0x90, 0x77] } zeroBlock) ∧
    bufferOf [0x90] ≠ bufferOf [0x90, 0x77] := by
  refine ⟨⟨rfl, rfl, ⟨rfl, rfl, rfl, rfl, rfl, fun _ a ha => ?_⟩, ⟨rfl, rfl, rfl, rfl, rfl, fun _ _ _ => rfl⟩, rfl,
    rfl, rfl⟩, by unfold Canonical; decide, by unfold Canonical; decide, by decide⟩
  have h : a < 1 := ha
  obtain rfl : a = 0 := by omega
  decide

/-- For WordsAreLittleEndian, UnpackInvertsBytesToWords and WideWordsAreNarrowPairs (P1 to P3): the three granularities,
and a size below the block. -/
theorem witness_word_granularities :
    (bytesToWords countingBytes 64 2).toOption.map (·.take 2) = some [0x0100, 0x0302] ∧
    (bytesToWords countingBytes 64 4).toOption.map (·.take 2) = some [0x03020100, 0x07060504] ∧
    (bytesToWords countingBytes 64 8).toOption.map (·.take 1) = some [0x0706050403020100] ∧
    (bytesToWords countingBytes 8 8).toOption = some [0x0706050403020100] ∧ 8 ∣ 8 := by decide +kernel

/-- And for PackerAlwaysMarksCompressed (P7, P9): an odd stream and an empty one. -/
theorem witness_PackerWritesTheNibbleStream :
    zeroBlock.buffersWf = true ∧ [(⟨0xA, 1⟩ : Symbol), ⟨0x1BC, 3⟩, ⟨0x2DEF0, 5⟩].length ≤ 35 ∧
    (∀ y ∈ [(⟨0xA, 1⟩ : Symbol), ⟨0x1BC, 3⟩, ⟨0x2DEF0, 5⟩], y.nibbles ≤ 8 ∧ y.value < 2 ^ 32) ∧
    (wordsToBytes zeroBlock 64 [⟨0xA, 1⟩, ⟨0x1BC, 3⟩, ⟨0x2DEF0, 5⟩]).toOption.map viewBytes =
      some (true, true, [0xA1, 0xBC, 0x2D, 0xEF, 0x00]) ∧
    (wordsToBytes zeroBlock 64 []).toOption.map viewBytes = some (true, false, []) := by decide +kernel

/-- P13, P15, P16: each clause of the capacity check just past its boundary, and P14 on it. -/
theorem witness_PackerRaisesCapacityOutsideItsContract :
    35 < (List.replicate 36 (⟨1, 1⟩ : Symbol)).length ∧ (8 : Nat) < Symbol.nibbles ⟨0x123456789, 9⟩ ∧
    2 ^ 32 ≤ Symbol.value ⟨0x100000000, 8⟩ ∧
    64 < (((List.replicate 17 (⟨0x12345678, 8⟩ : Symbol)).map Symbol.nibbles).sum + 1) / 2 ∧
    (wordsToBytes zeroBlock 64 (List.replicate 16 ⟨0x12345678, 8⟩)).toOption.map (·.compressedLength) = some 64 := by
  decide +kernel

/-- K11, K16, K15, K22: one base, two bases, a misfit, the clamp; K6, K8: same value accepted and rejected. -/
theorem witness_MultiBaseSizeFollowsTheTwoBases :
    multiBaseCompress defaultParams [0x1000, 0x107F, 0x1000, 0x1000, 0x1000, 0x1000, 0x1000, 0x1000] 1 8 =
      ⟨16, some [⟨0, 8⟩, ⟨0x1000, 8⟩, ⟨0, 2⟩, ⟨0x7F, 2⟩, ⟨0, 2⟩, ⟨0, 2⟩, ⟨0, 2⟩, ⟨0, 2⟩, ⟨0, 2⟩, ⟨0, 2⟩]⟩ ∧
    multiBaseCompress defaultParams [0x1000, 0x2000, 0x207F, 0x1F81, 0x1001, 0x0FFF, 0x1000, 0x2000] 1 8 =
      ⟨24, some [⟨0, 8⟩, ⟨0x1000, 8⟩, ⟨0, 8⟩, ⟨0x2000, 8⟩, ⟨0, 2⟩, ⟨0, 2⟩, ⟨0x7F, 2⟩, ⟨0x81, 2⟩, ⟨1, 2⟩, ⟨0xFF, 2⟩,
        ⟨0, 2⟩, ⟨0, 2⟩]⟩ ∧
    multiBaseCompress defaultParams [0x1000, 0x2000, 0x3000, 0x1000, 0x1000, 0x1000, 0x1000, 0x1000] 1 8 = ⟨64, none⟩ ∧
    multiBaseCompress defaultParams (List.replicate 16 7) 4 4 = ⟨64, none⟩ ∧
    sameValue (List.replicate 8 7) 8 = ⟨8, some [⟨0, 8⟩, ⟨7, 8⟩]⟩ ∧
    sameValue (List.replicate 8 [1, 2]).flatten 4 = ⟨64, none⟩ := by decide +kernel

theorem witness_RepeatedWordIsWonBySameValue :
    (∀ i < 8, rawWord repeated 8 i = 0x1122334455667788) ∧
    0x1122334455667788 % 2 ^ 32 ≠ 0x1122334455667788 / 2 ^ 32 := by decide +kernel

theorem witness_WiderWordsStayEqualAndZero :
    allEqual (rawWords (wordsOf 2 32 fun _ => 0xABCD) 2) = true ∧
    allEqual (rawWords (wordsOf 4 16 fun _ => 0x11223344) 4) = true ∧
    allZero (rawWords zeroBlock 8) = true := by decide +kernel

/-- The symbols of the table of R132, a word of each rung. -/
theorem witness_LadderSymbolHasItsRungsCost : fpcRung 0xABABABAB = .equalBytes ∧ fpcRung 0x12345678 = .raw ∧
    [0x0, 0xFFFFFFA5, 0x1234, 0xABCD0000, 0x00A5FFC3, 0xABABABAB, 0x12345678].map (ladderSymbol defaultParams) =
      [⟨0x0, 1⟩, ⟨0x1A5, 3⟩, ⟨0x21234, 5⟩, ⟨0x3ABCD, 5⟩, ⟨0x4A5C3, 5⟩, ⟨0x5AB, 3⟩, ⟨0x12345678, 8⟩] := by decide

/-- A configuration with a parameter of its own differs from the default in that parameter alone (R8). -/
theorem test_parameters_are_configured :
    let cfg : Knobs := { defaultKnobs with savingsFPC := .other 7 }
    cfg.params = { defaultParams with savingsFPC := Config.otherSavingsFPC 7 } ∧ cfg ≠ defaultKnobs := ⟨rfl, by decide⟩

/-- A reset engine but for one counter at one of the 128 positions. -/
def oneSample : Engine := { Engine.reset with samples := (Engine.reset.samples).set 5 1 }

/-- L4: the counters 0, 1, 2, 5 by nibble, 5 elsewhere; 1 is marked, and 2, exactly on the threshold, is not. -/
def betweenSamples : Engine :=
  { Engine.reset with samples := Vector.ofFn fun p : Fin 128 => [0, 1, 2].getD (p.val % 8) 5 }

theorem witness_threshold_between :
    (∀ q : Fin 128, betweenSamples.samples[(0 : Fin 128)].toNat ≤ betweenSamples.samples[q].toNat ∧
      betweenSamples.samples[q].toNat ≤ betweenSamples.samples[(127 : Fin 128)].toNat) ∧
    marked defaultKnobs betweenSamples 9 = true ∧ marked defaultKnobs betweenSamples 10 = false := by decide +kernel

theorem witness_GreatestIsNeverMarkedLeastIs : 0 < defaultKnobs.thrNum ∧ defaultKnobs.thrNum ≤ defaultKnobs.thrDen ∧
    (∀ q : Fin 128, oneSample.samples[q].toNat ≤ oneSample.samples[(5 : Fin 128)].toNat) ∧
    (∀ q : Fin 128, oneSample.samples[(6 : Fin 128)].toNat ≤ oneSample.samples[q].toNat) ∧
    oneSample.samples[(6 : Fin 128)].toNat < oneSample.samples[(5 : Fin 128)].toNat := by decide +kernel

/-- L10: the two halves of the period differ. -/
theorem witness_PatternNumIsTheHalvingPeriod :
    ((List.replicate 4 [1#8, 2, 2, 1]).flatten).length = 16 ∧
    patternNum ((List.replicate 4 [1#8, 2, 2, 1]).flatten) = 4 ∧ patternNum (List.replicate 16 1#8) = 1 := by decide

/-- L9: the four explicit exclusions, the two implicit ones, a first value and its duplicate; its least unmarked sample
is 10. -/
theorem witness_KeptFourRankBeforeTheRest :
    let e := groupSamples [3, 15, 0x33, 0xF0, 0, 0xFF, 0x32, 0x32]
    candidateGroups (groupValues defaultKnobs e) 16 = [6] ∧ IsLeastUnmarked e.samples 6 0x32 10 ∧
    (keptFour defaultKnobs e) = [⟨40, .sample 0x32⟩, ⟨0, .fpc 0⟩, ⟨0, .fpc 1⟩, ⟨0, .fpc 2⟩] := by
  unfold IsLeastUnmarked
  decide +kernel

theorem witness_UntrainedExtractionKeepsTheFirstFour : (∀ i : Fin 3, defaultKnobs.params.savingsFPC i 0 = 0) ∧
    (∀ i : Fin 8, defaultKnobs.params.savingsBDI i 0 = 0) ∧ (∀ i : Fin 3, Engine.reset.fpcHits[i] = 0) ∧
    (∀ i : Fin 8, Engine.reset.bdiHits[i] = 0) ∧ (∀ i : Fin 128, Engine.reset.samples[i] = 0) := by decide +kernel

/-- A sound entry, a word it takes, one it does not, and the zero word. -/
theorem witness_FirstMatchingEntryCodesTheWord : EntryOk ⟨0x00FF00F0, 3⟩ ∧ (0x001A0070 : Word32) ≠ 0 ∧
    PatternEntry.takes ⟨0x00FF00F0, 3⟩ 0x001A0070 = true ∧
    (∀ t ∈ trained.table, t.takes 0x12345678 = false) ∧ (0 : Word32) = 0 :=
  ⟨trained_tableOk.entries _ (by decide), by decide, by decide, by decide, rfl⟩

theorem witness_TableSymbolIsIndexThenMarkedNibbles : 3 < 4 ∧ EntryOk ⟨0x00FF00F0, 3⟩ ∧
    symbolNibbles (tableSymbol 3 ⟨0x00FF00F0, 3⟩ 0x001A0070) = [0xB, 0x1, 0xA, 0x7] :=
  ⟨by decide, trained_tableOk.entries _ (by decide), by decide +kernel⟩

end Sys2Proof.Tests
end

section
/-! The engine invariant of R29, R31 and R270: what extraction learns, and that every step keeps it. -/

namespace Sys2Proof.Proofs.EngineInvariant

open Sys2Proof.Machine

/-! ### The mask of a group value (R172) -/

/-- The nibbles that the bits of a group value stand for, nibble 0 first. -/
def maskNibbles (v : BitVec 8) : List Nat := (List.range 8).map fun j => if v.getLsbD j then 0xF else 0

@[simp] theorem maskNibbles_length (v : BitVec 8) : (maskNibbles v).length = 8 := rfl

theorem maskNibbles_lt (v : BitVec 8) : ∀ d ∈ maskNibbles v, d < 16 := by
  intro d hd
  obtain ⟨j, -, rfl⟩ := List.mem_map.1 hd
  split <;> omega

theorem dcMask_toNat (v : BitVec 8) : (dcMask v).toNat = Nat.ofDigits 16 (maskNibbles v) := by
  have hlt := Nat.ofDigits_lt_base_pow_length (by omega) (maskNibbles_lt v)
  rw [maskNibbles_length] at hlt
  have hsum : ((List.range 8).map fun j => if v.getLsbD j then 0xF * 2 ^ (4 * j) else 0).sum =
      Nat.ofDigits 16 (maskNibbles v) := by
    simp [maskNibbles, List.range_succ, Nat.ofDigits_eq_sum_mapIdx]
  rw [dcMask, BitVec.toNat_ofNat, hsum]
  exact Nat.mod_eq_of_lt hlt

/-- Nibble `j` of the don't-care mask is 0xF where bit `j` of the group value is set, else 0 (R172). -/
theorem nib_dcMask (v : BitVec 8) {j : Nat} (hj : j < 8) :
    nib (dcMask v).toNat j = if v.getLsbD j then 0xF else 0x0 := by
  have hlen : j < (maskNibbles v).length := by simpa using hj
  have hdigit : (dcMask v).toNat / 16 ^ j % 16 = (maskNibbles v)[j] := by
    rw [dcMask_toNat, Nat.ofDigits_div_pow_eq_ofDigits_drop j (by omega) _ (maskNibbles_lt v),
      Nat.ofDigits_mod_eq_head!, List.drop_eq_getElem_cons hlen]
    exact Nat.mod_eq_of_lt (maskNibbles_lt v _ (List.getElem_mem hlen))
  apply BitVec.eq_of_toNat_eq
  rw [nib, BitVec.toNat_ofNat, Nat.shiftRight_eq_div_pow, pow_mul]
  refine hdigit.trans ?_
  simp only [maskNibbles, List.getElem_map, List.getElem_range]
  split <;> rfl

theorem popcount_pos {v : BitVec 8} (h : v ≠ 0x00) : 1 ≤ popcount v := by
  refine Nat.pos_of_ne_zero fun h0 => h (BitVec.eq_of_getLsbD_eq fun j hj => ?_)
  have hj0 := List.countP_eq_zero.1 h0 j (List.mem_range.2 hj)
  simpa using hj0

theorem popcount_le_seven {v : BitVec 8} (h : v ≠ 0xFF) : popcount v ≤ 7 := by
  have hle : popcount v ≤ 8 := List.countP_le_length
  refine Nat.le_of_lt_succ (lt_of_le_of_ne hle fun h8 => h (BitVec.eq_of_getLsbD_eq fun j hj => ?_))
  have hall : (List.range 8).countP (fun j => v.getLsbD j) = (List.range 8).length := h8
  rw [List.countP_eq_length.1 hall j (List.mem_range.2 hj)]
  exact (BitVec.getLsbD_allOnes.trans (decide_eq_true hj)).symm

/-- The entry of a group value that may become a candidate is as R29 describes it. -/
theorem entryOk_dcMask {v : BitVec 8} (h : neverCandidate v = false) : EntryOk ⟨dcMask v, popcount v⟩ := by
  simp only [neverCandidate, Bool.or_eq_false_iff, beq_eq_false_iff_ne] at h
  obtain ⟨⟨hzero, hones⟩, -⟩ := h
  refine ⟨fun j hj => ?_, ?_, popcount_pos hzero, popcount_le_seven hones⟩
  · simp only [nib_dcMask v hj]
    split <;> simp
  · refine List.countP_congr fun j hj => ?_
    rw [nib_dcMask v (List.mem_range.1 hj)]
    cases v.getLsbD j <;> simp

/-! ### What extraction leaves (R174, R175) -/

/-- The table that extraction writes is sound. -/
theorem tableOk_extractPattern (cfg : Knobs) (e : Engine) : TableOk (extractPattern cfg e).table := by
  rw [extractPattern_table]
  refine ⟨(List.length_filterMap_le _ _).trans (keptFour_spec cfg e).1.le, fun t ht => ?_⟩
  obtain ⟨v, hv, rfl⟩ := keptFour_entry ht
  exact entryOk_dcMask hv

/-- The kinds that own an enable flag: the FPC and the BDI slots (R30). -/
def slotKinds : List CandidateKind := (List.finRange 3).map .fpc ++ (List.finRange 8).map .bdi

theorem slotKinds_nodup : slotKinds.Nodup := by decide

theorem mem_slotKinds {k : CandidateKind} : k ∈ slotKinds ↔ ∀ v, k ≠ .sample v := by
  cases k <;> simp [slotKinds]

/-- The set flags of a vector, counted by index. -/
theorem count_true_eq_countP {n : Nat} (flags : Vector Bool n) :
    flags.toList.count true = (List.finRange n).countP fun i => flags[i] := by
  have hlist : flags.toList = (List.finRange n).map fun i => flags[i] := by
    refine List.ext_getElem (by simp) fun i _ _ => ?_
    simp
  rw [hlist, List.count, List.countP_map]
  exact List.countP_congr fun i _ => by simp

/-- A flag is set for each kept slot kind (R174). -/
theorem flagsSet_extractPattern (cfg : Knobs) (e : Engine) : flagsSet (extractPattern cfg e) =
    slotKinds.countP ((keptFour cfg e).map Candidate.kind).contains := by
  simp only [flagsSet, count_true_eq_countP, extractPattern_fpcEnable, extractPattern_bdiEnable, slotKinds,
    List.countP_append, List.countP_map, Function.comp_def]

/-- An entry is written for each kept candidate whose kind owns no flag (R174). -/
theorem length_table_extractPattern (cfg : Knobs) (e : Engine) : (extractPattern cfg e).table.length =
    ((keptFour cfg e).map Candidate.kind).countP fun k => !slotKinds.contains k := by
  rw [extractPattern_table, List.length_filterMap_eq_countP, List.countP_map]
  refine List.countP_congr fun c _ => ?_
  unfold Candidate.entry
  cases hc : c.kind <;> simp [hc, mem_slotKinds]

/-- Among two lists without repetition, the common elements number the same counted in either. -/
theorem countP_contains_comm {α : Type} [DecidableEq α] {l₁ l₂ : List α} (h₁ : l₁.Nodup) (h₂ : l₂.Nodup) :
    l₁.countP l₂.contains = l₂.countP l₁.contains := by
  rw [List.countP_eq_length_filter, List.countP_eq_length_filter]
  refine ((List.perm_ext_iff_of_nodup (h₁.filter _) (h₂.filter _)).2 fun a => ?_).length_eq
  simp [and_comm]

/-- Each of the kept four becomes exactly one table entry or one flag (R174). -/
theorem four_learned (cfg : Knobs) (e : Engine) :
    (extractPattern cfg e).table.length + flagsSet (extractPattern cfg e) = 4 := by
  obtain ⟨hlength, hnodup, -⟩ := keptFour_spec cfg e
  have hsplit := List.length_eq_countP_add_countP slotKinds.contains (l := (keptFour cfg e).map Candidate.kind)
  rw [List.length_map, hlength] at hsplit
  rw [length_table_extractPattern, flagsSet_extractPattern, countP_contains_comm slotKinds_nodup hnodup]
  simpa [Nat.add_comm] using hsplit.symm

/-! ### The invariant, at reset and through every step -/

theorem engineInv_reset : EngineInv Engine.reset where
  table := ⟨by simp [Engine.reset], by simp [Engine.reset]⟩
  untrained _ := ⟨rfl, by decide⟩
  learned h := by simp [Engine.reset] at h
  closed h := by simp [Engine.reset] at h
  code := by decide
  named := by decide

theorem faultCode_number_bounds (c : FaultCode) : c.number.toNat ≤ 4 ∧ c.number ≠ 0 := by
  cases c <;> decide

theorem engineInv_raiseFault {s : State} (c : FaultCode) (h : EngineInv s.engine) :
    EngineInv (raiseFault c s).engine where
  table := h.table
  untrained := h.untrained
  learned := h.learned
  closed := h.closed
  code := (faultCode_number_bounds c).1
  named := iff_of_true rfl (faultCode_number_bounds c).2

/-- The collectors keep the invariant while nothing has been extracted: they write counters alone. -/
theorem engineInv_trainedEngine {e : Engine} (k : Params) (p : Payload) (h : EngineInv e)
    (hx : e.extracted = false) : EngineInv (trainedEngine k e p) where
  table := h.table
  untrained := h.untrained
  learned hx' := by simp [hx] at hx'
  closed hx' := by simp [hx] at hx'
  code := h.code
  named := h.named

theorem engineInv_extractPattern {e : Engine} (cfg : Knobs) (h : EngineInv e) :
    EngineInv (extractPattern cfg e) where
  table := tableOk_extractPattern cfg e
  untrained hx := by simp at hx
  learned _ := four_learned cfg e
  closed _ := ⟨extractPattern_fpcHits cfg e, extractPattern_bdiHits cfg e⟩
  code := by rw [extractPattern_faultCode]; exact h.code
  named := by rw [extractPattern_fault, extractPattern_faultCode]; exact h.named

/-- COMPRESS.DFPC keeps the invariant in either mode (R253, R254). -/
theorem engineInv_dfpcEngine {s : State} (h : EngineInv s.engine) : EngineInv (dfpcEngine s) := by
  cases hx : s.engine.extracted with
  | true => rwa [dfpcEngine_of_extracted hx]
  | false =>
    simp only [dfpcEngine, extractOnce, hx, Bool.false_eq_true, if_false]
    split
    · exact engineInv_trainedEngine _ _ h hx
    · exact engineInv_extractPattern _ h

theorem engineInv_exec {i : Instr} {s t : State} (h : EngineInv s.engine) (he : exec i s = .next t) :
    EngineInv t.engine := by
  rcases exec_next he with ⟨-, rfl⟩ | ⟨-, c, rfl⟩ | ⟨-, -, hop⟩
  · exact h
  · exact engineInv_raiseFault c h
  · rw [(operation_frame hop).2]
    split
    · exact engineInv_dfpcEngine h
    · exact h

/-- Settles O12. -/
theorem engineInvHoldsAfterReset : Obligations.EngineInvHoldsAfterReset :=
  fun _ => engineInv_reset

/-- Settles O13, by what a step can do (R59): only a reset, a raised fault and COMPRESS.DFPC write the engine. -/
theorem everyStepKeepsEngineInv : Obligations.EveryStepKeepsEngineInv := by
  intro s t h hstep
  rcases step_next hstep with ⟨-, rfl⟩ | ⟨rest, -, rfl⟩ | ⟨r, rest, -, rfl⟩ | ⟨w, wc, rest, -, hword⟩
  · exact h
  · exact engineInv_reset
  · exact h
  · rcases hword with ⟨-, rfl⟩ | ⟨-, -, rfl⟩ | ⟨-, i, -, he⟩
    · exact h
    · exact engineInv_raiseFault _ h
    · exact engineInv_exec (s := { s with host := rest, wc := wc }) h he

end Sys2Proof.Proofs.EngineInvariant
end

section
/-! What a command changes and what it leaves unchanged, by the three ways it can answer: it is refused (R272), it raises
a fault (R271), or its operation completes. -/

namespace Sys2Proof.Proofs.CommandFrame

open Sys2Proof.Machine

/-! ### Reset (R40, R290) -/

/-- What R40 lists, field by field. -/
structure HoldsResetValues (e : Engine) : Prop where
  fpcHits : ∀ i : Fin 3, e.fpcHits[i] = 0
  bdiHits : ∀ i : Fin 8, e.bdiHits[i] = 0
  samples : ∀ i : Fin 128, e.samples[i] = 0
  table : e.table = []
  fpcEnable : ∀ i : Fin 3, e.fpcEnable[i] = false
  bdiEnable : ∀ i : Fin 8, e.bdiEnable[i] = false
  extracted : e.extracted = false
  fault : e.fault = false
  faultCode : e.faultCode = 0

theorem engineReset_holdsResetValues : HoldsResetValues Engine.reset := by
  constructor <;> simp [Engine.reset]

theorem step_reset {s : State} {rest : List HostAction} (h : s.host = .reset :: rest) :
    step s = .next (resetEngine { s with host := rest }) := step_cons h

/-- Settles O8. -/
theorem resetActionRestoresTheEngine : Obligations.ResetActionRestoresTheEngine := by
  intro s rest h
  have values := engineReset_holdsResetValues
  exact ⟨_, step_reset h, values.fpcHits, values.bdiHits, values.samples, values.table, values.fpcEnable,
    values.bdiEnable, values.extracted, values.fault, values.faultCode, rfl⟩

/-- Settles O9. -/
theorem resetStateHoldsTheSpecValues : Obligations.ResetStateHoldsTheSpecValues := by
  refine ⟨⟨rfl, rfl, defaultKnobs_params⟩, fun cfg => ?_⟩
  have values := engineReset_holdsResetValues
  exact ⟨values.fpcHits, values.bdiHits, values.samples, values.table, values.fpcEnable,
    values.bdiEnable, values.extracted, values.fault, values.faultCode, rfl, rfl⟩

/-! ### The check of the record (R23, R273) -/

theorem payload_illFormed {p : Payload}
    (h : p.rawLen ≠ 64 ∨ 72 < p.compressedLength.toNat ∨
      (p.isHalfTerminated = true ∧ (p.isCompressed = false ∨ p.compressedLength = 0))) :
    p.wellFormed = false := by
  refine Bool.eq_false_iff.2 fun hw => ?_
  obtain ⟨hraw, hlen, hhalf⟩ := (payload_wellFormed_iff p).1 hw
  rcases h with h | h | ⟨h, hc | hz⟩
  · exact h hraw
  · omega
  · exact absurd (hhalf h).1 (by simp [hc])
  · exact absurd (hhalf h).2 (by simp [hz])

theorem request_illFormed {r : Request} {p : Payload} (hp : p = r.new ∨ p = r.old) (h : p.wellFormed = false) :
    r.wellFormed = false := by
  rcases hp with rfl | rfl <;> simp [Request.wellFormed, h]

theorem request_wellFormed_iff (r : Request) :
    r.wellFormed = true ↔ r.new.wellFormed = true ∧ r.old.wellFormed = true := by
  simp [Request.wellFormed]

/-- Settles O7: the check stands before the operation in every command (R276). -/
theorem illFormedRecordRaisesBadRequest : Obligations.IllFormedRecordRaisesBadRequest := by
  intro i s p hfault hp hbroken
  rw [exec_eq_command, command_of_illFormed hfault (request_illFormed hp (payload_illFormed hbroken))]
  rfl

/-! ### The record and the inputs (R22, R24, R34) -/

/-- Settles O16. -/
theorem commandsKeepTheRecordWellFormed : Obligations.CommandsKeepTheRecordWellFormed := by
  intro i s t hw h
  rcases exec_next h with ⟨-, rfl⟩ | ⟨-, c, rfl⟩ | ⟨-, -, hop⟩
  · exact hw
  · exact hw
  · have frame := (operation_frame hop).1
    rw [request_wellFormed_iff] at hw ⊢
    exact ⟨frame.newWellFormed hw.1, frame.oldWellFormed hw.2⟩

/-- The six COUNT commands. -/
def countInstrs : List Instr := [.countRaw1, .countRaw2, .countRaw3, .countCells1, .countCells2, .countCells3]

/-- A COUNT writes RESULT and nothing else (R220). -/
theorem operationOf_count_request {i : Instr} {s t : State} (hi : i ∈ countInstrs) (h : operationOf i s = .ok t) :
    t.request = s.request := by
  simp only [countInstrs, List.mem_cons, List.not_mem_nil, or_false] at hi
  rcases hi with rfl | rfl | rfl | rfl | rfl | rfl <;> exact (count_frame rfl h).2.2

/-- Settles O17. -/
theorem commandsNeverWriteRawBytes : Obligations.CommandsNeverWriteRawBytes := by
  intro i s t h
  rcases exec_next h with ⟨-, rfl⟩ | ⟨-, c, rfl⟩ | ⟨-, -, hop⟩
  · exact ⟨rfl, rfl, rfl, rfl, fun _ => rfl⟩
  · exact ⟨rfl, rfl, rfl, rfl, fun _ => rfl⟩
  · have frame := (operation_frame hop).1
    exact ⟨frame.newRawLen, frame.newRawBytes, frame.oldRawLen, frame.oldRawBytes,
      fun hi => operationOf_count_request hi hop⟩

/-- Settles O18. -/
theorem commandsLeaveConfigurationAndInputs : Obligations.CommandsLeaveConfigurationAndInputs := by
  intro i s t h
  rcases exec_next h with ⟨-, rfl⟩ | ⟨-, c, rfl⟩ | ⟨-, -, hop⟩
  · exact ⟨rfl, rfl, rfl⟩
  · exact ⟨rfl, rfl, rfl⟩
  · have frame := (operation_frame hop).1
    exact ⟨frame.cfg, frame.wc, frame.host⟩

/-- Settles O23: a refusal and a raised fault leave the engine faulted without a RESULT, and a completed operation
hands one back and touches no fault field. -/
theorem resultExactlyWithoutFault : Obligations.ResultExactlyWithoutFault := by
  intro i s t h
  rcases exec_next h with ⟨hfault, rfl⟩ | ⟨-, c, rfl⟩ | ⟨hfault, -, hop⟩
  · exact iff_of_true rfl hfault
  · exact iff_of_true rfl rfl
  · refine iff_of_false (Option.isSome_iff_ne_none.1 (operation_frame hop).1.result) ?_
    rw [(operation_fault hop).1, hfault]
    exact Bool.false_ne_true

/-! ### The engine (R25, R32, R175) -/

/-- Every operation but that of COMPRESS.DFPC completes on a well-formed record, whatever the engine. -/
theorem operation_completes {i : Instr} {s : State} (hi : i ≠ .compressDfpc) (hw : s.request.wellFormed = true) :
    ∃ t, operationOf i s = .ok t := by
  have hcount (c : CellLevels) (cc : Bool) :
      ∃ t, (do return { s with result := some (.count (BitVec.ofNat 10 (← countChanges s.request c cc))) } :
        Except Abort State) = .ok t := by
    rw [countChanges_eq hw]
    exact ⟨_, rfl⟩
  cases i with
  | compressNone => exact ⟨_, rfl⟩
  | compressFpc => exact ⟨_, compressBoth_of_ok (staticFPC_completes s.cfg _) (staticFPC_completes s.cfg _)⟩
  | compressBdi => exact ⟨_, compressBoth_of_ok (staticBDI_completes s.cfg _) (staticBDI_completes s.cfg _)⟩
  | compressDfpc => exact absurd rfl hi
  | encode => exact ⟨_, operationOf_encode s⟩
  | countRaw1 => exact hcount _ _
  | countRaw2 => exact hcount _ _
  | countRaw3 => exact hcount _ _
  | countCells1 => exact hcount _ _
  | countCells2 => exact hcount _ _
  | countCells3 => exact hcount _ _

/-- Settles O19: the operation cannot fault, so its frame is the command's. -/
theorem onlyDfpcChangesTheEngine : Obligations.OnlyDfpcChangesTheEngine := by
  intro i s t hi hready h
  obtain ⟨u, hop⟩ := operation_completes hi hready.2
  rw [exec_of_ready hready.1 hready.2 hop, Host.Outcome.next.injEq] at h
  rw [← h, (operation_frame hop).2, if_neg hi]

/-- Settles O21, by what a step can do (R59). -/
theorem faultOutlastsEveryStepButReset : Obligations.FaultOutlastsEveryStepButReset := by
  intro s t hfault hreset hstep
  rcases step_next hstep with ⟨-, rfl⟩ | ⟨rest, hhost, -⟩ | ⟨r, rest, -, rfl⟩ | ⟨w, wc, rest, -, hword⟩
  · rfl
  · exact absurd hhost (hreset rest)
  · rfl
  · rcases hword with ⟨-, rfl⟩ | ⟨hnone, -⟩ | ⟨hnone, -⟩
    · rfl
    · simp [hfault] at hnone
    · simp [hfault] at hnone

/-- Settles O22: COMPRESS.DFPC, the only command that writes the engine, neither counts nor extracts any more. -/
theorem learnedStateIsFrozenAfterExtraction : Obligations.LearnedStateIsFrozenAfterExtraction := by
  intro i s t hx h
  rcases exec_next h with ⟨-, rfl⟩ | ⟨-, c, rfl⟩ | ⟨-, -, hop⟩
  · rfl
  · rfl
  · have hengine : t.engine = s.engine := by
      rw [(operation_frame hop).2, dfpcEngine_of_extracted hx, ite_self]
    rw [hengine]

end Sys2Proof.Proofs.CommandFrame
end

section
/-! The collectors of DFPC training (R161 to R163): the words they read, the winner they count, and their counts. -/

namespace Sys2Proof.Proofs.TrainingCounts

open Sys2Proof.Machine

/-! ### The words of a block are those of R53 -/

theorem readBytes_succ (m : Memory) (a n : Nat) :
    Memory.readBytes m a (n + 1) = Memory.read m a :: Memory.readBytes m (a + 1) n := by
  simp [Memory.readBytes, List.range_succ_eq_map, Nat.add_assoc, Nat.add_comm 1]

theorem littleEndian_readBytes (m : Memory) (a n : Nat) : littleEndian (Memory.readBytes m a n) =
    ((List.range n).map fun j => (Memory.read m (a + j)).toNat * 256 ^ j).sum := by
  induction n generalizing a with
  | zero => rfl
  | succ n ih =>
    rw [readBytes_succ, littleEndian, ih, List.range_succ_eq_map, List.map_cons, List.sum_cons, List.map_map,
      ← List.sum_map_mul_left]
    congr 1
    · simp
    · refine congrArg List.sum (List.map_congr_left fun j _ => ?_)
      rw [Function.comp_apply, pow_succ, Nat.succ_eq_add_one, Nat.add_right_comm, Nat.add_assoc]
      ring

theorem take_drop_readBytes (m : Memory) {i w n : Nat} (h : i + w ≤ n) :
    ((Memory.readBytes m 0 n).drop i).take w = Memory.readBytes m i w := by
  refine List.ext_getElem (by simp; omega) fun j _ _ => ?_
  simp

/-- The block's words, cut from its bytes as the packer does, are the sums of R53. -/
theorem blockWords_eq_rawWords (p : Payload) (w : Nat) : blockWords p w = rawWords p w := by
  refine List.ext_getElem (by simp [rawWords]) fun i hi _ => ?_
  have hfit : i * w + w ≤ 64 := by
    rw [blockWords_length] at hi
    rw [← Nat.succ_mul]
    exact (Nat.mul_le_mul_right w hi).trans (Nat.div_mul_le_self 64 w)
  simp only [blockWords, groupWords_getElem, take_drop_readBytes _ hfit, littleEndian_readBytes, rawWords,
    List.getElem_map, List.getElem_range, rawWord]

theorem blockWordBits_eq (p : Payload) : blockWordBits p = (List.range 16).map (rawWord32 p) := by
  rw [blockWordBits, blockWords_eq_rawWords, rawWords, List.map_map]
  rfl

/-! ### Saturating counts (R26) -/

theorem saturated_zero (c : Counter) : saturated c 0 = c.toNat := by
  have := c.isLt
  unfold saturated
  omega

theorem saturated_satinc (c : Counter) (n : Nat) : saturated (satinc c) n = saturated c (n + 1) := by
  have hc := c.isLt
  unfold saturated satinc
  split
  · next h =>
    subst h
    simp only [BitVec.toNat_allOnes]
    omega
  · next h =>
    have hne : c.toNat ≠ 2 ^ 64 - 1 := fun he => h (BitVec.eq_of_toNat_eq (by simpa using he))
    have hstep : (c + 1).toNat = c.toNat + 1 := by
      rw [BitVec.toNat_add]
      exact Nat.mod_eq_of_lt (by simp; omega)
    omega

theorem toNat_satinc (c : Counter) : (satinc c).toNat = saturated c 1 := by
  rw [← saturated_zero, saturated_satinc]

/-- A counter that goes up under a condition. -/
theorem toNat_ite_satinc (q : Prop) [Decidable q] (c : Counter) :
    (if q then satinc c else c).toNat = saturated c (if q then 1 else 0) := by
  split
  · exact toNat_satinc c
  · exact (saturated_zero c).symm

/-! ### The FPC and the sample counters (R161, R163) -/

theorem toNat_foldl_countFpcWord (us : List Word32) (hits : Vector Counter 3) (i : Fin 3) :
    (us.foldl countFpcWord hits)[i].toNat =
      saturated hits[i] (us.countP fun u => decide (fpcSlot (fpcRung u) = some i)) := by
  induction us generalizing hits with
  | nil => exact (saturated_zero _).symm
  | cons u us ih =>
    rw [List.foldl_cons, ih, countFpcWord_getElem, List.countP_cons]
    by_cases h : fpcSlot (fpcRung u) = some i
    · simp [h, saturated_satinc]
    · simp [h]

theorem toNat_countedFpc (e : Engine) (p : Payload) (i : Fin 3) :
    (countedFpc e p)[i].toNat = saturated e.fpcHits[i] (fpcSlotCount p i) := by
  rw [countedFpc, toNat_foldl_countFpcWord, blockWordBits_eq, List.countP_map]
  rfl

theorem blockWords_getD (p : Payload) {i : Nat} (hi : i < 16) : (blockWords p 4).getD i 0 = rawWord p 4 i := by
  rw [blockWords_eq_rawWords, List.getD_eq_getElem _ _ (by simpa [rawWords] using hi)]
  simp only [rawWords, List.getElem_map, List.getElem_range]

theorem countedSamples_getElem (e : Engine) (p : Payload) (i : Fin 128) : (countedSamples e p)[i] =
    if nib (rawWord p 4 (i.val / 8)) (i.val % 8) = 0 then satinc e.samples[i] else e.samples[i] := by
  rw [← blockWords_getD p (i := i.val / 8) (by omega)]
  simp only [countedSamples, Fin.getElem_fin, Vector.getElem_ofFn]

theorem toNat_countedSamples (e : Engine) (p : Payload) (i : Fin 128) : (countedSamples e p)[i].toNat =
    saturated e.samples[i] (if nib (rawWord p 4 (i.val / 8)) (i.val % 8) = 0 then 1 else 0) := by
  rw [countedSamples_getElem, toNat_ite_satinc]

/-! ### The winner of the BDI selection (R119, R137) -/

theorem multiBaseCompress_rejected {k : Params} {ws : List Nat} {d w : Nat}
    (h : (multiBaseCompress k ws d w).symbols = none) : (multiBaseCompress k ws d w).size = ws.length * w := by
  revert h
  unfold multiBaseCompress
  dsimp only
  split
  · exact fun _ => rfl
  · split
    · exact fun _ => rfl
    · split
      · exact fun _ => rfl
      · exact fun h => absurd h (by simp)

theorem sameValue_rejected {ws : List Nat} {w : Nat} (h : (sameValue ws w).symbols = none) :
    (sameValue ws w).size = ws.length * w := by
  revert h
  unfold sameValue
  split
  · exact fun _ => (Nat.zero_mul w).symm
  · split
    · exact fun h => absurd h (by simp)
    · exact fun _ => rfl

/-- A rejected attempt reports the size of the block (R115, R118). -/
theorem bdiSize_of_rejected {k : Params} {p : Payload} {m : BdiMethod} (hm : m ∈ bdiMethods)
    (h : (m.attempt k (rawWords p m.width)).symbols = none) : bdiSize k p m = 64 := by
  have hlength : (rawWords p m.width).length * m.width = 64 := by
    rcases bdiMethods_width hm with hw | hw | hw <;> simp [rawWords, hw]
  rw [bdiSize]
  unfold BdiMethod.attempt at h ⊢
  cases hkind : m.kind with
  | multiBase d =>
    rw [hkind] at h
    exact (multiBaseCompress_rejected h).trans hlength
  | sameValue =>
    rw [hkind] at h
    exact (sameValue_rejected h).trans hlength

/-- One turn of the selection, from a best that is at most the block: it keeps the selection, or takes the strictly
smaller attempt. -/
theorem offerAttempt_cases {k : Params} {p : Payload} {enabled : Vector Bool 8} {sel : Selection} {m : BdiMethod}
    (hm : m ∈ bdiMethods) (hbest : sel.best ≤ 64) :
    (offerAttempt k p enabled sel m = sel ∧ (enabled[m.slot] = true → sel.best ≤ bdiSize k p m)) ∨
    (enabled[m.slot] = true ∧ bdiSize k p m < sel.best ∧
      ∃ ys, offerAttempt k p enabled sel m = { best := bdiSize k p m, winner := some (m, ys) }) := by
  unfold offerAttempt Selection.offer
  rw [blockWords_eq_rawWords]
  split
  · next hactive =>
    split
    · next ys _ =>
      split
      · next hlt => exact .inr ⟨hactive, hlt, ys, rfl⟩
      · next hge => exact .inl ⟨rfl, fun _ => Nat.le_of_not_lt hge⟩
    · next hnone => exact .inl ⟨rfl, fun _ => (bdiSize_of_rejected hm hnone).symm ▸ hbest⟩
  · next hactive => exact .inl ⟨rfl, fun h => absurd h hactive⟩

/-- What the loop of R137 has found among the methods tried so far. -/
structure BestSoFar (k : Params) (p : Payload) (enabled : Vector Bool 8) (tried : List BdiMethod)
    (sel : Selection) : Prop where
  best_le : sel.best ≤ 64
  least : ∀ m ∈ tried, enabled[m.slot] = true → sel.best ≤ bdiSize k p m
  best_of_none : sel.winner = none → sel.best = 64
  winner : ∀ m ys, sel.winner = some (m, ys) →
    m ∈ tried ∧ enabled[m.slot] = true ∧ sel.best < 64 ∧ bdiSize k p m = sel.best ∧
      ∀ m' ∈ tried, enabled[m'.slot] = true → m'.tag < m.tag → sel.best < bdiSize k p m'

section
variable {k : Params} {p : Payload} {enabled : Vector Bool 8}

theorem bestSoFar_start : BestSoFar k p enabled [] Selection.start :=
  ⟨le_refl _, by simp, fun _ => rfl, by simp [Selection.start]⟩

theorem bestSoFar_offerAttempt {tried : List BdiMethod} {sel : Selection} {m : BdiMethod}
    (h : BestSoFar k p enabled tried sel) (hm : m ∈ bdiMethods) (hlast : ∀ m' ∈ tried, m'.tag < m.tag) :
    BestSoFar k p enabled (tried ++ [m]) (offerAttempt k p enabled sel m) := by
  have hmem {m' : BdiMethod} : m' ∈ tried ++ [m] ↔ m' ∈ tried ∨ m' = m := by simp
  rcases offerAttempt_cases hm h.best_le with ⟨hsel, hkept⟩ | ⟨hactive, hlt, ys, hsel⟩
  · rw [hsel]
    refine ⟨h.best_le, fun m' hm' ha => ?_, h.best_of_none, fun w ys hw => ?_⟩
    · rcases hmem.1 hm' with hm' | rfl
      · exact h.least m' hm' ha
      · exact hkept ha
    · obtain ⟨hw, ha, hbest, hsize, hearliest⟩ := h.winner w ys hw
      refine ⟨hmem.2 (.inl hw), ha, hbest, hsize, fun m' hm' ha' htag => ?_⟩
      rcases hmem.1 hm' with hm' | rfl
      · exact hearliest m' hm' ha' htag
      · exact absurd (hlast w hw) (by omega)
  · rw [hsel]
    have hbest := h.best_le
    refine ⟨by simp only; omega, fun m' hm' ha => ?_, by simp, fun w zs hw => ?_⟩
    · rcases hmem.1 hm' with hm' | rfl
      · exact hlt.le.trans (h.least m' hm' ha)
      · exact le_refl _
    · simp only [Option.some.injEq, Prod.mk.injEq] at hw
      obtain ⟨rfl, -⟩ := hw
      refine ⟨hmem.2 (.inr rfl), hactive, by simp only; omega, rfl, fun m' hm' ha htag => ?_⟩
      rcases hmem.1 hm' with hm' | rfl
      · exact lt_of_lt_of_le hlt (h.least m' hm' ha)
      · exact absurd htag (lt_irrefl _)

theorem bdiMethods_tags : bdiMethods.Pairwise fun m m' => m.tag < m'.tag := by decide

theorem bestSoFar_foldl {ms tried : List BdiMethod} {sel : Selection} (hall : tried ++ ms = bdiMethods)
    (h : BestSoFar k p enabled tried sel) :
    BestSoFar k p enabled bdiMethods (ms.foldl (offerAttempt k p enabled) sel) := by
  induction ms generalizing tried sel with
  | nil => simpa [← hall] using h
  | cons m ms ih =>
    have hm : m ∈ bdiMethods := by simp [← hall]
    have hlast : ∀ m' ∈ tried, m'.tag < m.tag := fun m' hm' =>
      (List.pairwise_append.1 (hall ▸ bdiMethods_tags)).2.2 m' hm' m List.mem_cons_self
    exact ih (by simpa using hall) (bestSoFar_offerAttempt h hm hlast)

theorem bestSoFar_selection : BestSoFar k p enabled bdiMethods (selection k p enabled) :=
  bestSoFar_foldl (List.nil_append _) bestSoFar_start

theorem bdiWinner_unique {m m' : BdiMethod} (h : BdiWinner k p enabled m) (h' : BdiWinner k p enabled m') :
    m = m' := by
  have hle := h.smallest m' h'.listed h'.active
  have hle' := h'.smallest m h.listed h.active
  have htag : m.tag = m'.tag := by
    rcases lt_trichotomy m.tag m'.tag with hlt | heq | hlt
    · exact absurd (h'.earliest m h.listed h.active hlt) (by omega)
    · exact heq
    · exact absurd (h.earliest m' h'.listed h'.active hlt) (by omega)
  have hinjective : ∀ a ∈ bdiMethods, ∀ b ∈ bdiMethods, a.tag = b.tag → a = b := by decide
  exact hinjective m h.listed m' h'.listed htag

/-- The loop of R137 finds the winner, if there is one. -/
theorem bdiWinner_iff_selection {m : BdiMethod} :
    BdiWinner k p enabled m ↔ ∃ ys, (selection k p enabled).winner = some (m, ys) := by
  have hbest := bestSoFar_selection (k := k) (p := p) (enabled := enabled)
  have hwins {w : BdiMethod} {ys : List Symbol} (hw : (selection k p enabled).winner = some (w, ys)) :
      BdiWinner k p enabled w := by
    obtain ⟨hlisted, hactive, hlt, hsize, hearliest⟩ := hbest.winner w ys hw
    exact ⟨hlisted, hactive, hsize ▸ hlt, hsize ▸ hbest.least, hsize ▸ hearliest⟩
  refine ⟨fun h => ?_, fun ⟨ys, hw⟩ => hwins hw⟩
  match hw : (selection k p enabled).winner with
  | some (w, ys) => exact ⟨ys, by rw [bdiWinner_unique h (hwins hw)]⟩
  | none =>
    have hle := hbest.least m h.listed h.active
    have hlt := h.accepted
    rw [hbest.best_of_none hw] at hle
    omega

end

/-! ### The BDI counters (R162) -/

theorem toNat_countedBdi_of_bdiWinner {k : Params} {p : Payload} {m : BdiMethod} (e : Engine)
    (h : BdiWinner k p allSlots m) : (countedBdi k e p)[m.slot].toNat = saturated e.bdiHits[m.slot] 1 := by
  obtain ⟨ys, hw⟩ := bdiWinner_iff_selection.1 h
  rw [countedBdi_of_winner hw, ← toNat_satinc]
  simp

theorem countedBdi_of_not_bdiWinner {k : Params} {p : Payload} {i : Fin 8} (e : Engine)
    (h : ¬∃ m, BdiWinner k p allSlots m ∧ m.slot = i) : (countedBdi k e p)[i] = e.bdiHits[i] := by
  match hw : (selection k p allSlots).winner with
  | some (m, ys) =>
    have hne : m.slot.val ≠ i.val := fun he => h ⟨m, bdiWinner_iff_selection.2 ⟨ys, hw⟩, Fin.ext he⟩
    rw [countedBdi_of_winner hw]
    simp [hne]
  | none => rw [countedBdi_of_none hw]

/-! ### The command (R253, R254) -/

@[simp] theorem trainedEngine_fpcHits (k : Params) (e : Engine) (p : Payload) :
    (trainedEngine k e p).fpcHits = countedFpc e p := rfl

@[simp] theorem trainedEngine_bdiHits (k : Params) (e : Engine) (p : Payload) :
    (trainedEngine k e p).bdiHits = countedBdi k e p := rfl

@[simp] theorem trainedEngine_samples (k : Params) (e : Engine) (p : Payload) :
    (trainedEngine k e p).samples = countedSamples e p := rfl

/-- On a ready engine in training COMPRESS.DFPC completes and leaves the engine that the collectors make. -/
theorem exec_dfpc_training {s : State} (hready : Ready s) (hx : s.engine.extracted = false)
    (hwc : s.wc.toNat < s.cfg.horizon.toNat) :
    ∃ t, exec .compressDfpc s = .next t ∧ t.engine = trainedEngine s.cfg.params s.engine s.request.new := by
  have htraining : inTraining s = true := by simp [inTraining, hx, BitVec.lt_def, hwc]
  have hop := compressBoth_of_ok
    (s := { s with engine := trainedEngine s.cfg.params s.engine s.request.new })
    (staticBest_completes s.cfg s.request.old) (staticBest_completes s.cfg s.request.new)
  rw [← dfpcTraining_eq] at hop
  have hexec : operationOf .compressDfpc s = _ := (if_pos htraining).trans hop
  exact ⟨_, exec_of_ready hready.1 hready.2 hexec, rfl⟩

/-- Settles O29. -/
theorem dfpcTrainingCountsTheNewPayload : Obligations.DfpcTrainingCountsTheNewPayload := by
  intro s hready hx hwc
  obtain ⟨t, hexec, hengine⟩ := exec_dfpc_training hready hx hwc
  refine ⟨t, hexec, ?_⟩
  simp only [hengine, trainedEngine_fpcHits, trainedEngine_bdiHits, trainedEngine_samples]
  exact ⟨toNat_countedFpc s.engine s.request.new, fun _ => toNat_countedBdi_of_bdiWinner s.engine,
    fun _ => countedBdi_of_not_bdiWinner s.engine, toNat_countedSamples s.engine s.request.new⟩

end Sys2Proof.Proofs.TrainingCounts
end

section
/-! What a step leaves of the buffers (R50): it always answers a next state, so it makes no access outside them, and it
keeps them canonical and within their spaces. -/

namespace Sys2Proof.Proofs.BufferInvariant

open Sys2Proof.Machine Sys2Proof.Proofs.CommandFrame

/-! ### The buffer invariant -/

theorem canonical_iff (s : State) :
    Canonical s ↔ s.request.new.buffersWf = true ∧ s.request.old.buffersWf = true := by
  simp [Canonical, Request.buffersWf]

/-- The operation of a command keeps the four buffers canonical and within their spaces. -/
theorem canonical_operation {i : Instr} {s t : State} (h : Canonical s) (hop : operationOf i s = .ok t) :
    Canonical t := by
  have frame := (operation_frame hop).1
  rw [canonical_iff] at h ⊢
  exact ⟨frame.newBuffersWf h.1, frame.oldBuffersWf h.2⟩

theorem canonical_exec {i : Instr} {s t : State} (h : Canonical s) (he : exec i s = .next t) : Canonical t := by
  rcases exec_next he with ⟨-, rfl⟩ | ⟨-, c, rfl⟩ | ⟨-, -, hop⟩
  · exact h
  · exact h
  · exact canonical_operation h hop

theorem host_of_exec {i : Instr} {s t : State} (he : exec i s = .next t) : t.host = s.host :=
  (commandsLeaveConfigurationAndInputs i s t he).2.2

/-- The invariant of the record in hand is all there is to show where no new record joins the host's list. -/
theorem buffersInv_of_canonical {s t : State} (h : BuffersInv s) (hhost : t.host ⊆ s.host) (ht : Canonical t) :
    BuffersInv t :=
  ⟨ht, fun r hr => h.2 r (hhost hr)⟩

/-- Settles O15, by what a step can do (R59): only a lent record and a command's operation put other bytes in hand. -/
theorem everyStepKeepsBuffersInv : Obligations.EveryStepKeepsBuffersInv := by
  intro s t h hstep
  rcases step_next hstep with ⟨-, rfl⟩ | ⟨rest, hhost, rfl⟩ | ⟨r, rest, hhost, rfl⟩ | ⟨w, wc, rest, hhost, hword⟩
  · exact h
  · exact buffersInv_of_canonical h (hhost ▸ List.subset_cons_self _ rest) h.1
  · exact buffersInv_of_canonical h (hhost ▸ List.subset_cons_self _ rest) (h.2 r (hhost ▸ List.mem_cons_self))
  · have hrest : rest ⊆ s.host := hhost ▸ List.subset_cons_self _ rest
    rcases hword with ⟨-, rfl⟩ | ⟨-, -, rfl⟩ | ⟨-, i, -, he⟩
    · exact buffersInv_of_canonical h hrest h.1
    · exact buffersInv_of_canonical h hrest h.1
    · exact buffersInv_of_canonical h (host_of_exec he ▸ hrest)
        (canonical_exec (s := { s with host := rest, wc := wc }) h.1 he)

/-! ### Every step goes on -/

/-- Applying a plan makes no access outside the compressed space, whatever the plan. -/
theorem applyPlan_ne_outside (p : Payload) (plan : Plan) (f : Fault) : applyPlan p plan ≠ .error (.outside f) := by
  rcases applyPlan_cases p plan with ⟨q, b, h⟩ | h <;> simp [h]

theorem compressBoth_ne_outside {codec : Payload → Except Abort (Payload × Bool)}
    (hcodec : ∀ p f, codec p ≠ .error (.outside f)) (s : State) (f : Fault) :
    compressBoth codec s ≠ .error (.outside f) := by
  intro h
  rcases exceptBind_error h with hold | ⟨old, -, h⟩
  · exact hcodec _ f hold
  · rcases exceptBind_error h with hnew | ⟨new, -, h⟩
    · exact hcodec _ f hnew
    · cases h

/-- On a well-formed record no operation makes an access outside the buffers. COMPRESS.DFPC alone may fail to complete:
an unsound table can make it raise `Capacity`. -/
theorem operation_ne_outside {i : Instr} {s : State} (hw : s.request.wellFormed = true) (f : Fault) :
    operationOf i s ≠ .error (.outside f) := by
  by_cases hi : i = .compressDfpc
  · subst hi
    simp only [operationOf]
    split
    · rw [dfpcTraining_eq]
      exact compressBoth_ne_outside (fun p f => by simp [staticBest_completes]) _ f
    · refine compressBoth_ne_outside (fun p f => ?_) _ f
      rw [dynamicCompress_eq_applyPlan]
      exact applyPlan_ne_outside p _ f
  · obtain ⟨t, ht⟩ := operation_completes hi hw
    simp [ht]

theorem exec_continues (i : Instr) (s : State) : Continues (exec i s) := by
  rw [exec_eq_command]
  exact command_continues fun _ hw f => operation_ne_outside hw f

theorem runWord_continues (w : CommandWord) (s : State) : Continues (runWord w s) := by
  cases hf : s.engine.fault with
  | true => exact ⟨_, runWord_of_fault hf w⟩
  | false =>
    match hd : decode w with
    | .ok i => exact (runWord_of_legal hd s).symm ▸ exec_continues i s
    | .error e => exact ⟨_, runWord_of_illegal hf hd⟩

/-- Settles O11, by the next host action. -/
theorem everyStepAnswersANextState : Obligations.EveryStepAnswersANextState := by
  intro s
  match hh : s.host with
  | [] => exact ⟨s, step_nil hh⟩
  | a :: rest =>
    rw [step_cons hh]
    cases a with
    | command w wc => exact runWord_continues w _
    | lend r => exact ⟨_, rfl⟩
    | reset => exact ⟨_, rfl⟩

/-- Settles O4: a legal word runs its command whatever the engine, a faulted one refusing either way (R272). -/
theorem stepRunsThePresentedCommand : Obligations.StepRunsThePresentedCommand := by
  intro s w wc rest i hh hd
  rw [step_cons hh]
  exact runWord_of_legal hd _

end Sys2Proof.Proofs.BufferInvariant
end

section
/-! Bytes of a compressed view that are not valid are never read (R52): each codec plans from the raw bytes alone, ENCODE
and COUNT read valid bytes alone, and every command relates two states that agree in all else. -/

namespace Sys2Proof.Proofs.InvalidBytes

open Sys2Proof.Machine Sys2Proof.Proofs.BufferInvariant

/-! ### Outcomes that correspond -/

/-- Two operations end alike: both complete, with related answers, or both raise the same fault. An access outside the
buffers is related to nothing. -/
inductive SameOutcome {α : Type} (R : α → α → Prop) : Except Abort α → Except Abort α → Prop
  | ok {a b : α} (h : R a b) : SameOutcome R (.ok a) (.ok b)
  | raise (c : FaultCode) : SameOutcome R (.error (.raise c)) (.error (.raise c))

theorem SameOutcome.bind {α β : Type} {R : α → α → Prop} {Q : β → β → Prop} {x y : Except Abort α}
    {f g : α → Except Abort β} (h : SameOutcome R x y) (hfg : ∀ a b, R a b → SameOutcome Q (f a) (g b)) :
    SameOutcome Q (x >>= f) (y >>= g) := by
  cases h with
  | ok hab => exact hfg _ _ hab
  | raise c => exact .raise c

/-- Two answers of a codec or of ENCODE on one payload: payloads no rule can tell apart, and the same flag. -/
structure SameCoded (a b : Payload × Bool) : Prop where
  payload : SameToRules a.1 b.1
  flag : a.2 = b.2

/-! ### What the rules read of a payload -/

section
variable {p q : Payload}

theorem wellFormed_congr (h : SameToRules p q) : p.wellFormed = q.wellFormed := by
  simp only [Payload.wellFormed, h.rawLen, h.length, h.half, h.isCompressed]

theorem readBytes_valid_congr (h : SameToRules p q) (hc : p.isCompressed = true) :
    Memory.readBytes p.compressedBytes 0 p.compressedLength.toNat =
      Memory.readBytes q.compressedBytes 0 q.compressedLength.toNat := by
  rw [← h.length]
  exact readBytes_congr fun a ha => by simpa using h.valid hc a ha

/-- COUNT sees the same stream (R222). -/
theorem streamBytes_congr (h : SameToRules p q) : streamBytes p = streamBytes q := by
  unfold streamBytes
  rw [← h.isCompressed, ← h.rawBytes]
  split
  · next hc => exact readBytes_valid_congr h hc
  · rfl

/-- ENCODE writes the same bytes (R231 to R233). -/
theorem ternaryOutput_congr (h : SameToRules p q) (hc : p.isCompressed = true) :
    ternaryOutput p = ternaryOutput q := by
  rw [ternaryOutput, ternaryInput, readBytes_valid_congr h hc, ternaryInBits, h.length, h.half]
  rfl

/-! The codecs read the raw bytes alone. -/

theorem blockWordBits_congr (h : p.rawBytes = q.rawBytes) : blockWordBits p = blockWordBits q := by
  rw [blockWordBits, blockWords_rawBytes h, blockWordBits]

theorem selection_congr (h : p.rawBytes = q.rawBytes) (k : Params) (enabled : Vector Bool 8) :
    selection k p enabled = selection k q enabled := by
  have hoffer : offerAttempt k p enabled = offerAttempt k q enabled := by
    funext sel m
    rw [offerAttempt, blockWords_rawBytes h, offerAttempt]
  rw [selection, hoffer, selection]

theorem trainedEngine_congr (h : p.rawBytes = q.rawBytes) (k : Params) (e : Engine) :
    trainedEngine k e p = trainedEngine k e q := by
  simp only [trainedEngine, countedFpc, countedBdi, countedSamples, blockWordBits_congr h, selection_congr h,
    blockWords_rawBytes h]

/-! ### What the rules write of a payload -/

/-- Bytes written from offset 0 up to the new length read the same in any two canonical buffers. -/
theorem read_written_congr {m m' : Memory} (hm : Memory.wf m = true) (hm' : Memory.wf m' = true) (bs : List Byte)
    {a : Nat} (ha : a < bs.length) :
    Memory.read (Memory.writeBytes m 0 bs) a = Memory.read (Memory.writeBytes m' 0 bs) a := by
  simp [read_writeBytes hm, read_writeBytes hm', ha]

theorem compressedBytes_wf (h : p.buffersWf = true) : Memory.wf p.compressedBytes = true :=
  ((payload_buffersWf_iff p).1 h).2.2.1

theorem reject_same (h : SameToRules p q) : SameToRules (reject p) (reject q) :=
  ⟨h.rawLen, h.rawBytes, rfl, h.length, rfl, by simp⟩

theorem packedPayload_same (h : SameToRules p q) (hp : p.buffersWf = true) (hq : q.buffersWf = true)
    (ys : List Symbol) : SameToRules (packedPayload p ys) (packedPayload q ys) := by
  refine ⟨h.rawLen, h.rawBytes, rfl, rfl, rfl, fun _ a ha => ?_⟩
  refine read_written_congr (compressedBytes_wf hp) (compressedBytes_wf hq) _ ?_
  rw [packNibbles_length]
  exact lt_of_lt_of_le ha (by simpa [packedPayload] using Nat.mod_le _ _)

theorem remapped_same (h : SameToRules p q) (hp : p.buffersWf = true) (hq : q.buffersWf = true)
    (hc : p.isCompressed = true) : SameToRules (remapped p) (remapped q) := by
  have hout := ternaryOutput_congr h hc
  refine ⟨h.rawLen, h.rawBytes, h.isCompressed, by simp only [remapped, hout], h.half, fun _ a ha => ?_⟩
  simp only [remapped, ← hout]
  refine read_written_congr (compressedBytes_wf hp) (compressedBytes_wf hq) _ ?_
  exact lt_of_lt_of_le ha (by simpa [remapped] using Nat.mod_le _ _)

/-! ### Codecs and ENCODE on one payload -/

/-- One plan applied to two payloads: rejected, packed or too large for the packer, and the same in both. -/
theorem applyPlan_same (h : SameToRules p q) (hp : p.buffersWf = true) (hq : q.buffersWf = true) (plan : Plan) :
    SameOutcome SameCoded (applyPlan p plan) (applyPlan q plan) := by
  match hs : plan.symbols with
  | none =>
    rw [applyPlan_none p hs, applyPlan_none q hs]
    exact .ok ⟨reject_same h, rfl⟩
  | some ys =>
    by_cases hys : Packable ys
    · rw [applyPlan_accepted p hs hys, applyPlan_accepted q hs hys]
      exact .ok ⟨packedPayload_same h hp hq ys, rfl⟩
    · simp only [applyPlan, hs, wordsToBytes_capacity _ _ hys]
      exact .raise .capacity

theorem ternaryEncode_same (h : SameToRules p q) (hp : p.buffersWf = true) (hq : q.buffersWf = true) :
    SameOutcome SameCoded (ternaryEncode p) (ternaryEncode q) := by
  rw [ternaryEncode_eq, ternaryEncode_eq, ← h.isCompressed, ← h.length]
  split
  · next hmap => exact .ok ⟨remapped_same h hp hq hmap.1, rfl⟩
  · exact .ok ⟨h, rfl⟩

end

/-- A codec that applies a plan it makes from the raw bytes alone. -/
def PlansFromRaw (codec : Payload → Except Abort (Payload × Bool)) : Prop :=
  ∃ plan : Payload → Plan, (∀ p q, p.rawBytes = q.rawBytes → plan p = plan q) ∧ ∀ p, codec p = applyPlan p (plan p)

theorem PlansFromRaw.same {codec : Payload → Except Abort (Payload × Bool)} (hcodec : PlansFromRaw codec)
    {p q : Payload} (h : SameToRules p q) (hp : p.buffersWf = true) (hq : q.buffersWf = true) :
    SameOutcome SameCoded (codec p) (codec q) := by
  obtain ⟨plan, hraw, happly⟩ := hcodec
  rw [happly, happly, hraw p q h.rawBytes]
  exact applyPlan_same h hp hq _

theorem staticFPC_plansFromRaw (k : Params) : PlansFromRaw (staticFPC k) :=
  ⟨_, fun _ _ h => by rw [blockWordBits_congr h], staticFPC_eq k⟩

theorem staticBDI_plansFromRaw (k : Params) : PlansFromRaw (staticBDI k) :=
  ⟨_, fun _ _ h => by rw [selection_congr h], staticBDI_eq k⟩

theorem staticBest_plansFromRaw (k : Params) : PlansFromRaw (staticBest k) :=
  ⟨_, fun _ _ h => by rw [blockWordBits_congr h, selection_congr h], staticBest_eq k⟩

theorem dynamicCompress_plansFromRaw (k : Params) (e : Engine) : PlansFromRaw (dynamicCompress k e) :=
  ⟨_, fun _ _ h => by rw [blockWordBits_congr h, blockWords_rawBytes h, selection_congr h], dynamicCompress_eq k e⟩

/-! ### Operations on two states -/

/-- Two states in hand of which the rules see the same, with canonical buffers: what an operation starts from. -/
structure Alike (s u : State) : Prop where
  same : StateSameToRules s u
  left : Canonical s
  right : Canonical u

section
variable {s u : State}

theorem Alike.new_wf (h : Alike s u) : s.request.new.buffersWf = true ∧ u.request.new.buffersWf = true :=
  ⟨((canonical_iff s).1 h.left).1, ((canonical_iff u).1 h.right).1⟩

theorem Alike.old_wf (h : Alike s u) : s.request.old.buffersWf = true ∧ u.request.old.buffersWf = true :=
  ⟨((canonical_iff s).1 h.left).2, ((canonical_iff u).1 h.right).2⟩

theorem Alike.withEngine (h : Alike s u) (e : Engine) : Alike { s with engine := e } { u with engine := e } :=
  ⟨⟨rfl, h.same.cfg, h.same.new, h.same.old, h.same.wc, h.same.result, h.same.host⟩, h.left, h.right⟩

theorem withResult_same (h : StateSameToRules s u) (r : Option Result) :
    StateSameToRules { s with result := r } { u with result := r } :=
  ⟨h.engine, h.cfg, h.new, h.old, h.wc, rfl, h.host⟩

/-- Records handed back with one RESULT. -/
theorem handedBack_same (h : StateSameToRules s u) {new new' old old' : Payload} (hnew : SameToRules new new')
    (hold : SameToRules old old') (r : Option Result) :
    StateSameToRules { s with request := { new := new, old := old }, result := r }
      { u with request := { new := new', old := old' }, result := r } :=
  ⟨h.engine, h.cfg, hnew, hold, h.wc, rfl, h.host⟩

theorem raiseFault_same (h : StateSameToRules s u) (c : FaultCode) :
    StateSameToRules (raiseFault c s) (raiseFault c u) :=
  ⟨by simp only [raiseFault, h.engine], h.cfg, h.new, h.old, h.wc, rfl, h.host⟩

theorem request_wellFormed_congr (h : StateSameToRules s u) : s.request.wellFormed = u.request.wellFormed := by
  rw [Request.wellFormed, wellFormed_congr h.new, wellFormed_congr h.old, Request.wellFormed]

theorem compressBoth_same (h : Alike s u) {codec : Payload → Except Abort (Payload × Bool)}
    (hcodec : PlansFromRaw codec) : SameOutcome StateSameToRules (compressBoth codec s) (compressBoth codec u) := by
  refine (hcodec.same h.same.old h.old_wf.1 h.old_wf.2).bind fun old old' hold => ?_
  refine (hcodec.same h.same.new h.new_wf.1 h.new_wf.2).bind fun new new' hnew => ?_
  simp only [hnew.flag]
  exact .ok (handedBack_same h.same hnew.payload hold.payload _)

theorem encode_same (h : Alike s u) :
    SameOutcome StateSameToRules (operationOf .encode s) (operationOf .encode u) := by
  refine (ternaryEncode_same h.same.new h.new_wf.1 h.new_wf.2).bind fun new new' hnew => ?_
  refine (ternaryEncode_same h.same.old h.old_wf.1 h.old_wf.2).bind fun old old' hold => ?_
  simp only [hnew.flag, hold.flag]
  exact .ok (handedBack_same h.same hnew.payload hold.payload _)

theorem dfpc_same (h : Alike s u) :
    SameOutcome StateSameToRules (operationOf .compressDfpc s) (operationOf .compressDfpc u) := by
  have htraining : inTraining s = inTraining u := by
    simp only [inTraining, h.same.engine, h.same.wc, h.same.cfg]
  have hparams : s.cfg.params = u.cfg.params := congrArg Knobs.params h.same.cfg
  simp only [operationOf, htraining]
  split
  · rw [dfpcTraining_eq, dfpcTraining_eq, hparams, h.same.engine, trainedEngine_congr h.same.new.rawBytes]
    exact compressBoth_same (h.withEngine _) (staticBest_plansFromRaw _)
  · have hextracted : extractOnce s.cfg s.engine = extractOnce u.cfg u.engine := by
      rw [h.same.cfg, h.same.engine]
    simp only [dfpcSteady, hparams, hextracted]
    exact compressBoth_same (h.withEngine _) (dynamicCompress_plansFromRaw _ _)

theorem countChanges_congr (h : StateSameToRules s u) (hw : s.request.wellFormed = true) (c : CellLevels)
    (cc : Bool) : countChanges s.request c cc = countChanges u.request c cc := by
  rw [countChanges_eq hw, countChanges_eq (request_wellFormed_congr h ▸ hw), streamBytes_congr h.new,
    streamBytes_congr h.old]

/-- A COUNT: the same number of bits, and nothing written but RESULT (R220). -/
theorem count_same (h : StateSameToRules s u) (hw : s.request.wellFormed = true) (c : CellLevels) (cc : Bool) :
    SameOutcome StateSameToRules
      (do return { s with result := some (.count (BitVec.ofNat 10 (← countChanges s.request c cc))) })
      (do return { u with result := some (.count (BitVec.ofNat 10 (← countChanges u.request c cc))) }) := by
  rw [← countChanges_congr h hw, countChanges_eq hw]
  exact .ok (withResult_same h _)

theorem operation_same (h : Alike s u) (hw : s.request.wellFormed = true) (i : Instr) :
    SameOutcome StateSameToRules (operationOf i s) (operationOf i u) := by
  cases i with
  | compressNone => exact .ok (withResult_same h.same _)
  | compressFpc =>
    simp only [operationOf, h.same.cfg]
    exact compressBoth_same h (staticFPC_plansFromRaw _)
  | compressBdi =>
    simp only [operationOf, h.same.cfg]
    exact compressBoth_same h (staticBDI_plansFromRaw _)
  | compressDfpc => exact dfpc_same h
  | encode => exact encode_same h
  | countRaw1 => exact count_same h.same hw _ _
  | countRaw2 => exact count_same h.same hw _ _
  | countRaw3 => exact count_same h.same hw _ _
  | countCells1 => exact count_same h.same hw _ _
  | countCells2 => exact count_same h.same hw _ _
  | countCells3 => exact count_same h.same hw _ _

/-! ### Commands on two states -/

theorem settle_same (h : StateSameToRules s u) {x y : Except Abort State} (hxy : SameOutcome StateSameToRules x y) :
    ∃ s' u', settle s x = .next s' ∧ settle u y = .next u' ∧ StateSameToRules s' u' := by
  cases hxy with
  | ok hab => exact ⟨_, _, settle_ok _ _, settle_ok _ _, hab⟩
  | raise c => exact ⟨_, _, settle_raise _ c, settle_raise _ c, raiseFault_same h c⟩

/-- The checks of R276 answer the same on both states, so the operations are left to compare. -/
theorem command_same (h : StateSameToRules s u) {op : State → Except Abort State}
    (hop : s.request.wellFormed = true → SameOutcome StateSameToRules (op s) (op u)) :
    ∃ s' u', command op s = .next s' ∧ command op u = .next u' ∧ StateSameToRules s' u' := by
  cases hf : s.engine.fault with
  | true => exact ⟨_, _, command_of_fault hf op, command_of_fault (h.engine ▸ hf) op, withResult_same h none⟩
  | false =>
    have hf' : u.engine.fault = false := h.engine ▸ hf
    cases hw : s.request.wellFormed with
    | false =>
      exact ⟨_, _, command_of_illFormed hf hw op,
        command_of_illFormed hf' (request_wellFormed_congr h ▸ hw) op, raiseFault_same h .badRequest⟩
    | true =>
      rw [command_of_ready hf hw, command_of_ready hf' (request_wellFormed_congr h ▸ hw)]
      exact settle_same h (hop hw)

end

/-- Settles O40: the relation is kept by the checks of a command (`command_same`) and by its operation
(`operation_same`). -/
theorem invalidBytesMakeNoDifference : Obligations.InvalidBytesMakeNoDifference := by
  intro i s u h hs hu
  rw [exec_eq_command, exec_eq_command]
  exact command_same h fun hw => operation_same ⟨h, hs, hu⟩ hw i

end Sys2Proof.Proofs.InvalidBytes
end

section
/-! The words of a block (R53, R54, R57): bytesToWords answers the sums of R53 within its contract and `BadSize` outside
it. -/

namespace Sys2Proof.Proofs.BlockWords

open Sys2Proof.Machine Sys2Proof.Proofs.TrainingCounts

theorem bytesToWords_eq_rawWords (p : Payload) {w : Nat} (h : w = 2 ∨ w = 4 ∨ w = 8) :
    bytesToWords p 64 w = .ok (rawWords p w) :=
  (bytesToWords_eq p h).trans (congrArg _ (blockWords_eq_rawWords p w))

@[simp] theorem rawWords_length (p : Payload) (w : Nat) : (rawWords p w).length = 64 / w := by
  simp [rawWords]

theorem rawWords_getD (p : Payload) {w i : Nat} (h : i < 64 / w) : (rawWords p w).getD i 0 = rawWord p w i := by
  rw [List.getD_eq_getElem _ _ (by simpa using h)]
  simp only [rawWords, List.getElem_map, List.getElem_range]

/-- Settles O41, with the block's words as R53 gives them. -/
theorem wordsAreLittleEndian : Obligations.WordsAreLittleEndian := by
  intro p step h
  exact ⟨rawWords p step, bytesToWords_eq_rawWords p h, rawWords_length p step, fun i hi => rawWords_getD p hi⟩

/-- A word of twice the width: its sum falls into the lower and the upper `w` bytes (R54). -/
theorem rawWord_double (p : Payload) (w k : Nat) :
    rawWord p (2 * w) k = rawWord p w (2 * k) + rawWord p w (2 * k + 1) * 256 ^ w := by
  simp only [rawWord]
  rw [two_mul w, List.range_add, List.map_append, List.sum_append, List.map_map, ← List.sum_map_mul_right]
  congr 1
  · refine congrArg List.sum (List.map_congr_left fun j _ => ?_)
    rw [show k * (w + w) = 2 * k * w by ring]
  · refine congrArg List.sum (List.map_congr_left fun j _ => ?_)
    rw [Function.comp_apply, show k * (w + w) + (w + j) = (2 * k + 1) * w + j by ring, pow_add]
    ring

/-- The double-width words of a block at an index, from the words of half the width. -/
theorem rawWords_double_getD (p : Payload) {w k : Nat} (h : k < 64 / (2 * w)) :
    (rawWords p (2 * w)).getD k 0 =
      (rawWords p w).getD (2 * k) 0 + (rawWords p w).getD (2 * k + 1) 0 * 256 ^ w := by
  have hpair : 2 * k + 1 < 64 / w := by
    rw [Nat.mul_comm, ← Nat.div_div_eq_div_mul] at h
    omega
  rw [rawWords_getD p h, rawWords_getD p hpair, rawWords_getD p (by omega), rawWord_double]

/-- Settles O43, by `rawWord_double` at both widths. -/
theorem wideWordsAreNarrowPairs : Obligations.WideWordsAreNarrowPairs := by
  intro p w2 w4 w8 h2 h4 h8
  rw [bytesToWords_eq_rawWords p (by simp), Except.ok.injEq] at h2 h4 h8
  subst h2 h4 h8
  exact ⟨fun k hk => rawWords_double_getD p (w := 2) hk, fun k hk => rawWords_double_getD p (w := 4) hk⟩

/-- The contract of bytesToWords (R90). -/
def WordsContract (size step : Nat) : Prop := (step = 2 ∨ step = 4 ∨ step = 8) ∧ size ≤ 64 ∧ step ∣ size

theorem bytesToWords_of_contract (p : Payload) {size step : Nat} (h : WordsContract size step) :
    bytesToWords p size step = .ok (groupWords step (size / step) (Memory.readBytes p.rawBytes 0 size)) := by
  obtain ⟨hstep, hsize, hdvd⟩ := h
  have hmeets : ¬(¬(step = 2 ∨ step = 4 ∨ step = 8) ∨ Config.block < size ∨ size % step ≠ 0) := by
    simp [hstep, Config.block, hsize, Nat.mod_eq_zero_of_dvd hdvd]
  have hread : 0 + size ≤ Config.block := by simpa [Config.block] using hsize
  rw [bytesToWords, if_neg hmeets, memReadRaw, if_pos hread]
  rfl

theorem bytesToWords_of_not_contract (p : Payload) {size step : Nat} (h : ¬WordsContract size step) :
    bytesToWords p size step = .error (.raise .badSize) := by
  refine if_pos ?_
  rw [WordsContract, not_and_or, not_and_or, Nat.not_le, Nat.dvd_iff_mod_eq_zero] at h
  exact h

/-- Settles O44: within its contract bytesToWords completes. -/
theorem bytesToWordsRaisesBadSize : Obligations.BytesToWordsRaisesBadSize := by
  intro p size step
  refine ⟨fun h hc => ?_, bytesToWords_of_not_contract p⟩
  rw [bytesToWords_of_contract p hc] at h
  cases h

end Sys2Proof.Proofs.BlockWords
end

section
/-! The decoder against the encoder (30_encoding.md): a word is put together again from its fields (R70, R72, R74), so
each operation's decoder answers a command only on the word of that command. -/

namespace Sys2Proof.Proofs.DecodeEncode

/-! ### A word and its fields -/

theorem toNat_eq_op_arg (w : CommandWord) : w.toNat = 32 * (opField w).toNat + (argField w).toNat := by
  simp only [opField, argField, BitVec.extractLsb'_toNat, Nat.shiftRight_eq_div_pow]
  omega

/-- `arg` of a COMPRESS word (R72). -/
theorem argField_toNat_compress (w : CommandWord) :
    (argField w).toNat = 4 * (compressZeroField w).toNat + (modeField w).toNat := by
  simp only [argField, compressZeroField, modeField, BitVec.extractLsb'_toNat, Nat.shiftRight_eq_div_pow]
  omega

/-- `arg` of a COUNT word (R74). -/
theorem argField_toNat_count (w : CommandWord) :
    (argField w).toNat = 8 * (countZeroField w).toNat + 4 * (ccField w).toNat + (levelsField w).toNat := by
  simp only [argField, countZeroField, ccField, levelsField, BitVec.extractLsb'_toNat, Nat.shiftRight_eq_div_pow]
  omega

/-- The values of `mode` and of `levels`. -/
theorem twoBits_toNat (b : BitVec 2) : b.toNat = 0 ∨ b.toNat = 1 ∨ b.toNat = 2 ∨ b.toNat = 3 := by
  omega

/-! ### The decoder of each operation answers a command only on that command's `arg` -/

theorem encode_toNat_of_decodeCompress {w : CommandWord} {i : Instr} (h : decodeCompress w = .ok i) :
    (encode i).toNat = (argField w).toNat := by
  rw [argField_toNat_compress]
  rw [decodeCompress] at h
  split at h
  case isTrue => cases h
  case isFalse hzero =>
    have hzero : compressZeroField w = 0#3 := by simpa using hzero
    rw [hzero]
    rcases twoBits_toNat (modeField w) with hmode | hmode | hmode | hmode <;> rw [hmode] at h ⊢ <;> cases h <;> rfl

theorem encode_toNat_of_decodeEncode {w : CommandWord} {i : Instr} (h : decodeEncode w = .ok i) :
    (encode i).toNat = 32 + (argField w).toNat := by
  rw [decodeEncode] at h
  split at h
  case isTrue => cases h
  case isFalse hzero =>
    have hzero : argField w = 0#5 := by simpa using hzero
    cases h
    rw [hzero]
    rfl

theorem encode_toNat_of_decodeCount {w : CommandWord} {i : Instr} (h : decodeCount w = .ok i) :
    (encode i).toNat = 64 + (argField w).toNat := by
  rw [argField_toNat_count]
  rw [decodeCount] at h
  split at h
  case isTrue => cases h
  case isFalse hzero =>
    have hzero : countZeroField w = 0#2 := by simpa using hzero
    have hcc : (ccField w).toNat = 0 ∨ (ccField w).toNat = 1 := by omega
    rw [hzero]
    -- a reserved `levels` of 0 is an error, so that `cases h` leaves the six commands
    rcases hcc with hcc | hcc <;> rcases twoBits_toNat (levelsField w) with hlevels | hlevels | hlevels | hlevels <;>
      rw [hcc, hlevels] at h ⊢ <;> cases h <;> rfl

/-! ### The whole decoder -/

theorem decode_encode (i : Instr) : decode (encode i) = .ok i := by
  cases i <;> rfl

theorem encode_of_decode {w : CommandWord} {i : Instr} (h : decode w = .ok i) : encode i = w := by
  apply BitVec.eq_of_toNat_eq
  rw [toNat_eq_op_arg w]
  rw [decode] at h
  split at h
  case h_1 hop => rw [encode_toNat_of_decodeCompress h, hop, Nat.mul_zero, Nat.zero_add]
  case h_2 hop => rw [encode_toNat_of_decodeEncode h, hop]
  case h_3 hop => rw [encode_toNat_of_decodeCount h, hop]
  case h_4 => cases h

theorem decode_eq_ok_iff {w : CommandWord} {i : Instr} : decode w = .ok i ↔ encode i = w :=
  ⟨encode_of_decode, fun h => h ▸ decode_encode i⟩

/-! ### The words R76 lists -/

/-- The eleven commands, in the order R76 lists their words. -/
def commands : List Instr :=
  [.compressNone, .compressFpc, .compressBdi, .compressDfpc, .encode, .countRaw1, .countRaw2, .countRaw3,
    .countCells1, .countCells2, .countCells3]

theorem mem_commands (i : Instr) : i ∈ commands := by
  cases i <;> decide

theorem legalWords_eq_map_encode : legalWords = commands.map encode := rfl

theorem mem_legalWords_iff {w : CommandWord} : w ∈ legalWords ↔ ∃ i, encode i = w := by
  simp only [legalWords_eq_map_encode, List.mem_map, mem_commands, true_and]

/-! ### The statements -/

/-- Settles O1: to decode and to be listed both mean to be the word of some command. -/
theorem legalWordsAreTheElevenListed : Obligations.LegalWordsAreTheElevenListed := by
  intro w
  rw [mem_legalWords_iff]
  exact exists_congr fun _ => decode_eq_ok_iff

/-- Settles O2. -/
theorem decodeAndEncodeAgree : Obligations.DecodeAndEncodeAgree :=
  ⟨decode_encode, fun _ _ => encode_of_decode⟩

/-- Settles O3: each of the five is the word `encode` gives its command. -/
theorem writtenOutWordsDecode : Obligations.WrittenOutWordsDecode :=
  ⟨decode_encode .compressNone, decode_encode .compressDfpc, decode_encode .encode, decode_encode .countRaw1,
    decode_encode .countCells3⟩

end Sys2Proof.Proofs.DecodeEncode
end

section
/-! The word packer (40_word_packer.md): the bytes of a word come back out of it (R92), and wordsToBytes completes
exactly on packable symbols (R93, R97), where it leaves the packed nibble stream (R94, R95) and the flags (R98). -/

namespace Sys2Proof.Proofs.WordPacker

open Sys2Proof.Machine Sys2Proof.Proofs.TrainingCounts Sys2Proof.Proofs.BlockWords

/-! ### Unpacking words -/

/-- A little-endian value has its bytes as its digits to base 256 (R53). -/
theorem littleEndian_digit (bs : List Byte) (j : Nat) : littleEndian bs / 256 ^ j % 256 = (bs.getD j 0).toNat := by
  induction bs generalizing j with
  | nil => simp [littleEndian]
  | cons b bs ih =>
    have hb := b.isLt
    cases j with
    | zero =>
      simp only [littleEndian, pow_zero, Nat.div_one, List.getD_cons_zero]
      omega
    | succ j =>
      have htail : littleEndian (b :: bs) / 256 = littleEndian bs := by
        simp only [littleEndian]
        omega
      rw [Nat.pow_succ', ← Nat.div_div_eq_div_mul, htail, ih, List.getD_cons_succ]

theorem readBytes_getD (m : Memory) (off : Nat) {n j : Nat} (h : j < n) :
    (Memory.readBytes m off n).getD j 0 = Memory.read m (off + j) := by
  rw [List.getD_eq_getElem _ _ (by simpa using h), readBytes_getElem]

/-- Word `k` of a run of bytes read from a buffer is the value of its own `step` bytes (R90). -/
theorem groupWords_readBytes_getD (m : Memory) (step : Nat) {count n k : Nat} (hfit : count * step ≤ n)
    (hk : k < count) :
    (groupWords step count (Memory.readBytes m 0 n)).getD k 0 =
      littleEndian (Memory.readBytes m (k * step) step) := by
  have hword : k * step + step ≤ n := by
    rw [← Nat.succ_mul]
    exact (Nat.mul_le_mul_right step hk).trans hfit
  rw [List.getD_eq_getElem _ _ (by simpa using hk), groupWords_getElem, take_drop_readBytes _ hword]

/-- Settles O42: byte `j` of a word is its digit at `256 ^ j`. -/
theorem unpackInvertsBytesToWords : Obligations.UnpackInvertsBytesToWords := by
  intro p size step hstep hsize hdvd
  have hcover : size / step * step = size := Nat.div_mul_cancel hdvd
  refine ⟨_, bytesToWords_of_contract p ⟨hstep, hsize, hdvd⟩, by rw [groupWords_length, hcover], fun k j hk hj => ?_⟩
  rw [groupWords_length] at hk
  rw [groupWords_readBytes_getD _ step hcover.le hk, littleEndian_digit, readBytes_getD _ _ hj]

/-! ### When wordsToBytes completes -/

theorem packable_iff {ys : List Symbol} : Packable ys ↔
    ys.length ≤ 35 ∧ (∀ y ∈ ys, y.nibbles ≤ 8 ∧ y.value < 2 ^ 32) ∧ (ys.map Symbol.nibbles).sum ≤ 128 := by
  rw [← nibbleStream_length]
  exact ⟨fun ⟨few, narrow, fits⟩ => ⟨few, narrow, fits⟩, fun ⟨few, narrow, fits⟩ => ⟨few, narrow, fits⟩⟩

theorem wordsToBytes_of_packable (p : Payload) (budget : Nat) {ys : List Symbol} (h : Packable ys) :
    wordsToBytes p budget ys = .ok (packedPayload p ys) :=
  wordsToBytes_ok p budget h

theorem wordsToBytes_eq_capacity_iff (p : Payload) (budget : Nat) (ys : List Symbol) :
    wordsToBytes p budget ys = .error (.raise .capacity) ↔ ¬Packable ys := by
  refine ⟨fun h hys => ?_, wordsToBytes_capacity p budget⟩
  rw [wordsToBytes_of_packable p budget hys] at h
  cases h

/-- Settles O47: the three clauses are those of `packable_iff`, negated; 64 bytes hold 128 nibbles. -/
theorem packerRaisesCapacityOutsideItsContract : Obligations.PackerRaisesCapacityOutsideItsContract := by
  intro p budget ys
  have hbytes : ¬(ys.map Symbol.nibbles).sum ≤ 128 ↔ 64 < ((ys.map Symbol.nibbles).sum + 1) / 2 := by omega
  rw [wordsToBytes_eq_capacity_iff, packable_iff, not_and_or, not_and_or, hbytes, Nat.not_le]
  simp only [not_forall, exists_prop, not_and_or, Nat.not_le, Nat.not_lt]

/-! ### What wordsToBytes leaves -/

/-- Byte `i` holds nibbles `2 * i` and `2 * i + 1`, with 0 past the end of the stream (R95). -/
theorem packNibbles_getD (ns : List Nibble) (i : Nat) :
    (packNibbles ns).getD i 0 = ns.getD (2 * i) 0 ++ ns.getD (2 * i + 1) 0 := by
  induction ns using packNibbles.induct generalizing i with
  | case1 => simp [packNibbles]
  | case2 hi => cases i <;> simp [packNibbles, Nat.mul_succ]
  | case3 hi lo rest ih =>
    cases i with
    | zero => rfl
    | succ i => simpa only [packNibbles, Nat.mul_succ, List.getD_cons_succ] using ih i

/-- A nibble of the packed bytes is the nibble of the stream, or the 0 that pads an odd stream (R95). -/
theorem storedNibble_packedPayload {p : Payload} (hp : Memory.wf p.compressedBytes = true) (ys : List Symbol) {j : Nat}
    (hj : j / 2 < ((nibbleStream ys).length + 1) / 2) :
    storedNibble (packedPayload p ys) j = (nibbleStream ys).getD j 0 := by
  have hbyte : Memory.read (packedPayload p ys).compressedBytes (j / 2) =
      (nibbleStream ys).getD (2 * (j / 2)) 0 ++ (nibbleStream ys).getD (2 * (j / 2) + 1) 0 := by
    rw [packedPayload, read_writeBytes hp, if_pos (by simpa using hj), Nat.sub_zero, packNibbles_getD]
  rw [storedNibble, hbyte]
  split
  · next heven => rw [BitVec.extractLsb'_append_eq_left, show 2 * (j / 2) = j by omega]
  · next hodd => rw [BitVec.extractLsb'_append_eq_right, show 2 * (j / 2) + 1 = j by omega]

theorem packed_packedPayload {p : Payload} (hp : Memory.wf p.compressedBytes = true) {ys : List Symbol}
    (h : Packable ys) : Packed p (packedPayload p ys) (nibbleStream ys) where
  rawLen := rfl
  rawBytes := rfl
  isCompressed := rfl
  length := by
    have hfits := h.fits
    simp only [packedPayload, BitVec.toNat_ofNat]
    omega
  half := rfl
  stored j hj := by
    rw [storedNibble_packedPayload hp ys (by omega), List.getD_eq_getElem _ _ hj]
  pad hodd := by
    rw [storedNibble_packedPayload hp ys (by omega), List.getD_eq_default _ _ le_rfl]
  rest a ha := by
    rw [packedPayload, read_writeBytes hp, if_neg (by rw [packNibbles_length]; omega)]

/-- Settles O45. -/
theorem packerWritesTheNibbleStream : Obligations.PackerWritesTheNibbleStream := by
  intro p budget ys hp hfew hnarrow hfits
  have hys : Packable ys := packable_iff.2 ⟨hfew, hnarrow, hfits⟩
  obtain ⟨-, -, hcompressed, -⟩ := (payload_buffersWf_iff p).1 hp
  exact ⟨_, wordsToBytes_of_packable p budget hys, packed_packedPayload hcompressed hys⟩

theorem packedPayload_of_no_nibbles (p : Payload) {ys : List Symbol} (h : nibbleStream ys = []) :
    packedPayload p ys = { p with isCompressed := true, compressedLength := 0, isHalfTerminated := false } := by
  rw [packedPayload, h]
  rfl

/-- Settles O46: a completed wordsToBytes leaves the packed payload, whose flags do not depend on those before. -/
theorem packerAlwaysMarksCompressed : Obligations.PackerAlwaysMarksCompressed := by
  intro p q budget ys h
  obtain ⟨-, rfl⟩ := wordsToBytes_eq h
  rw [← nibbleStream_length]
  refine ⟨rfl, decide_eq_true_iff, fun hnone => ?_⟩
  rw [packedPayload_of_no_nibbles p (List.eq_nil_of_length_eq_zero hnone)]
  exact ⟨rfl, rfl, rfl⟩

end Sys2Proof.Proofs.WordPacker
end

section
/-! The pattern classifiers (41_classifiers.md): the two predicates across granularities (R110, R111), and the
multi-base scan and the same-value attempt in closed form (R112 to R118). -/

namespace Sys2Proof.Proofs.Classifiers

open Sys2Proof.Machine Sys2Proof.Proofs.BlockWords

/-! ### The two predicates across granularities (R110, R111) -/

theorem mem_rawWords {p : Payload} {w x : Nat} : x ∈ rawWords p w ↔ ∃ i < 64 / w, rawWord p w i = x := by
  simp [rawWords]

theorem allZero_iff {ws : List Nat} : allZero ws = true ↔ ∀ x ∈ ws, x = 0 := by
  simp [allZero]

theorem allEqual_cons_iff {v : Nat} {vs : List Nat} : allEqual (v :: vs) = true ↔ ∀ y ∈ vs, y = v := by
  simp [allEqual]

/-- Words are all equal if one value is that of each; the empty sequence is no exception. -/
theorem allEqual_iff {ws : List Nat} : allEqual ws = true ↔ ∃ v, ∀ x ∈ ws, x = v := by
  cases ws with
  | nil => simp [allEqual]
  | cons v vs =>
    rw [allEqual_cons_iff]
    refine ⟨fun h => ⟨v, List.forall_mem_cons.2 ⟨rfl, h⟩⟩, fun ⟨u, h⟩ y hy => ?_⟩
    rw [h y (List.mem_cons_of_mem v hy), h v List.mem_cons_self]

/-- A property of each word, by the pairs that make a word of twice the width. -/
theorem forall_rawWords_iff_pairs {p : Payload} {w : Nat} (hw : 64 / w = 2 * (64 / (2 * w))) (P : Nat → Prop) :
    (∀ x ∈ rawWords p w, P x) ↔
      ∀ k < 64 / (2 * w), P (rawWord p w (2 * k)) ∧ P (rawWord p w (2 * k + 1)) := by
  simp only [mem_rawWords, forall_exists_index, and_imp, forall_apply_eq_imp_iff₂]
  refine ⟨fun h k hk => ⟨h _ (by omega), h _ (by omega)⟩, fun h i hi => ?_⟩
  obtain ⟨heven, hodd⟩ := h (i / 2) (by omega)
  rcases Nat.mod_two_eq_zero_or_one i with hi2 | hi2
  · rwa [show 2 * (i / 2) = i by omega] at heven
  · rwa [show 2 * (i / 2) + 1 = i by omega] at hodd

theorem forall_rawWords_double {p : Payload} {w : Nat} (P : Nat → Prop) :
    (∀ x ∈ rawWords p (2 * w), P x) ↔
      ∀ k < 64 / (2 * w), P (rawWord p w (2 * k) + rawWord p w (2 * k + 1) * 256 ^ w) := by
  simp only [mem_rawWords, forall_exists_index, and_imp, forall_apply_eq_imp_iff₂, rawWord_double]

/-- Pairs of equal words are equal (R111). -/
theorem allEqual_rawWords_double {p : Payload} {w : Nat} (hw : 64 / w = 2 * (64 / (2 * w)))
    (h : allEqual (rawWords p w) = true) : allEqual (rawWords p (2 * w)) = true := by
  obtain ⟨v, hv⟩ := allEqual_iff.1 h
  rw [forall_rawWords_iff_pairs hw] at hv
  refine allEqual_iff.2 ⟨v + v * 256 ^ w, (forall_rawWords_double _).2 fun k hk => ?_⟩
  obtain ⟨heven, hodd⟩ := hv k hk
  rw [heven, hodd]

/-- A pair of words is zero exactly if both are (R110). -/
theorem allZero_rawWords_double {p : Payload} {w : Nat} (hw : 64 / w = 2 * (64 / (2 * w))) :
    allZero (rawWords p w) = allZero (rawWords p (2 * w)) := by
  rw [Bool.eq_iff_iff, allZero_iff, allZero_iff, forall_rawWords_iff_pairs hw, forall_rawWords_double]
  simp

/-- Settles O50, at both doublings of the width. -/
theorem widerWordsStayEqualAndZero : Obligations.WiderWordsStayEqualAndZero :=
  fun _ => ⟨allEqual_rawWords_double (w := 2) rfl, allEqual_rawWords_double (w := 4) rfl,
    allZero_rawWords_double (w := 2) rfl, allZero_rawWords_double (w := 4) rfl⟩

/-! ### Symbols (R116, R117) -/

theorem literal_eq_literalSymbols (v w : Nat) : literal v w = literalSymbols v w := by
  rw [literal, literalSymbols, Nat.shiftRight_eq_div_pow]

/-- The difference modulo `2 ^ (8 * d)` over the integers, without a subtraction below 0. -/
theorem deltaSymbol_eq_deltaOf (d x base : Nat) : deltaSymbol d x base = deltaOf d x base := by
  have hpos : 0 < 2 ^ (8 * d) := Nat.two_pow_pos _
  have hbase : base % 2 ^ (8 * d) ≤ 2 ^ (8 * d) := (Nat.mod_lt base hpos).le
  have hmod : ((x : Int) - base) % (2 ^ (8 * d) : Int) =
      ((x + (2 ^ (8 * d) - base % 2 ^ (8 * d))) % 2 ^ (8 * d) : Nat) := by
    push_cast [Nat.cast_sub hbase]
    rw [← add_sub_assoc, add_sub_right_comm, Int.add_emod_right, Int.sub_emod_emod]
  rw [deltaSymbol, deltaOf, hmod, Int.toNat_natCast]

/-! ### The scan for two bases (R112 to R114) -/

@[simp] theorem distance_self (x : Nat) : distance x x = 0 := by
  simp [distance]

/-- A word is in range of base 0 or of base 1 (R113). -/
def fitsEither (range base0 base1 y : Nat) : Bool :=
  decide (distance y base0 ≤ range) || decide (distance y base1 ≤ range)

/-- The base of a word that fits one of two: base 0 where it is in range (R114). -/
def chosenBase (range base0 base1 y : Nat) : Nat := if distance y base0 ≤ range then base0 else base1

section
variable {range base0 base1 y : Nat}

theorem fitsEither_of_near (h : distance y base0 ≤ range) : fitsEither range base0 base1 y = true := by
  simp [fitsEither, h]

theorem fitsEither_of_far (h : ¬distance y base0 ≤ range) :
    fitsEither range base0 base1 y = decide (distance y base1 ≤ range) := by
  simp [fitsEither, h]

/-- With both bases chosen the scan fails at a misfit alone. -/
theorem assignBases_some (ws : List Nat) : assignBases range base0 (some base1) ws =
    if ws.all (fitsEither range base0 base1) then some (ws.map (chosenBase range base0 base1), some base1)
    else none := by
  induction ws with
  | nil => rfl
  | cons y ys ih =>
    rw [assignBases, ih, List.all_cons, List.map_cons, chosenBase]
    by_cases hnear : distance y base0 ≤ range
    · rw [if_pos hnear, if_pos hnear, fitsEither_of_near hnear, Bool.true_and]
      split <;> rfl
    · rw [if_neg hnear, if_neg hnear, fitsEither_of_far hnear]
      by_cases hfits : distance y base1 ≤ range
      · simp only [hfits, if_true, decide_true, Bool.true_and]
        split <;> rfl
      · simp [hfits]

/-- While every word is in range of base 0, no base 1 is chosen. -/
theorem assignBases_of_all_near {ws : List Nat} (h : ∀ y ∈ ws, distance y base0 ≤ range) :
    assignBases range base0 none ws = some (ws.map fun _ => base0, none) := by
  induction ws with
  | nil => rfl
  | cons y ys ih =>
    rw [assignBases, if_pos (h y List.mem_cons_self), ih fun z hz => h z (List.mem_cons_of_mem y hz)]
    rfl

/-- The first word out of range of base 0 becomes base 1. It could as well have been chosen before the scan, since the
words before it are in range of base 0. -/
theorem assignBases_of_find {ws : List Nat} (h : ws.find? (fun y => decide (range < distance y base0)) = some base1) :
    assignBases range base0 none ws = assignBases range base0 (some base1) ws := by
  induction ws with
  | nil => simp at h
  | cons y ys ih =>
    rw [assignBases, assignBases]
    by_cases hnear : distance y base0 ≤ range
    · rw [List.find?_cons_of_neg (by simpa using hnear)] at h
      rw [if_pos hnear, if_pos hnear, ih h]
    · rw [List.find?_cons_of_pos (by simpa using hnear), Option.some.injEq] at h
      subst h
      simp [hnear]

end

/-! ### The two attempts in closed form (R115 to R118) -/

/-- What a scan that gives word `y` the base `f y` makes of the attempt. -/
theorem multiBaseCompress_of_assignBases {k : Params} {x : Nat} {xs : List Nat} {d w : Nat} {f : Nat → Nat}
    {base1 : Option Nat} (h : assignBases (k.deltaRange d) x none (x :: xs) = some ((x :: xs).map f, base1)) :
    multiBaseCompress k (x :: xs) d w =
      acceptedBelow ((xs.length + 1) * w) (d * (xs.length + 1) + (1 + base1.toList.length) * w)
        (literalSymbols x w ++ base1.toList.flatMap (fun b => literalSymbols b w) ++
          (x :: xs).map fun y => deltaOf d y (f y)) := by
  simp only [multiBaseCompress, h, acceptedBelow, ← Nat.not_le, ite_not, List.length_cons, Nat.mul_comm w,
    literal_eq_literalSymbols, List.zipWith_map_right, List.zipWith_self, deltaSymbol_eq_deltaOf]
  rfl

theorem multiBaseCompress_misfit {k : Params} {x : Nat} {xs : List Nat} {d w : Nat}
    (h : assignBases (k.deltaRange d) x none (x :: xs) = none) :
    multiBaseCompress k (x :: xs) d w = ⟨(xs.length + 1) * w, none⟩ := by
  simp only [multiBaseCompress, h]
  rfl

section
variable {k : Params} {x : Nat} {xs : List Nat} {d w : Nat}

/-- With every word in range of the first there is one base (R112). -/
theorem multiBaseCompress_oneBase (h : ∀ y ∈ xs, distance y x ≤ k.deltaRange d) :
    multiBaseCompress k (x :: xs) d w =
      acceptedBelow ((xs.length + 1) * w) (d * (xs.length + 1) + w)
        (literalSymbols x w ++ (x :: xs).map fun y => deltaOf d y x) := by
  have hall : ∀ y ∈ x :: xs, distance y x ≤ k.deltaRange d := List.forall_mem_cons.2 ⟨by simp, h⟩
  simpa using multiBaseCompress_of_assignBases (assignBases_of_all_near hall)

/-- With a word out of range of the first, the first such word is the second base (R114). -/
theorem multiBaseCompress_twoBases {b : Nat}
    (h : xs.find? (fun y => decide (k.deltaRange d < distance y x)) = some b) :
    multiBaseCompress k (x :: xs) d w =
      if xs.all (fitsEither (k.deltaRange d) x b)
      then acceptedBelow ((xs.length + 1) * w) (d * (xs.length + 1) + 2 * w)
        (literalSymbols x w ++ literalSymbols b w ++
          (x :: xs).map fun y => deltaOf d y (chosenBase (k.deltaRange d) x b y))
      else ⟨(xs.length + 1) * w, none⟩ := by
  have hfind : (x :: xs).find? (fun y => decide (k.deltaRange d < distance y x)) = some b := by
    rw [List.find?_cons_of_neg (by simp), h]
  have hscan := (assignBases_of_find hfind).trans (assignBases_some (x :: xs))
  rw [List.all_cons, fitsEither_of_near (by simp), Bool.true_and] at hscan
  split
  · next hfits =>
    rw [if_pos hfits] at hscan
    simpa using multiBaseCompress_of_assignBases hscan
  · next hfits =>
    rw [if_neg hfits] at hscan
    exact multiBaseCompress_misfit hscan

end

/-- Settles O48, by whether some word is out of range of the first. -/
theorem multiBaseSizeFollowsTheTwoBases : Obligations.MultiBaseSizeFollowsTheTwoBases := by
  refine ⟨fun k x xs d w _ _ => ?_, ⟨rfl, rfl, rfl⟩, fun v vs w => ?_⟩
  · split
    · next hnone => exact multiBaseCompress_oneBase (by simpa using hnone)
    · next b hfind => exact multiBaseCompress_twoBases hfind
  · simp only [sameValue, allEqual_cons_iff, literal_eq_literalSymbols]
    rfl

end Sys2Proof.Proofs.Classifiers
end

section
/-! COMPRESS.BDI (R119, R136 to R139, R252): the loop of R137 in closed form, what a payload becomes by its winner, and
the command. -/

namespace Sys2Proof.Proofs.BdiCodec

open Sys2Proof.Machine Sys2Proof.Proofs.TrainingCounts Sys2Proof.Proofs.WordPacker
  Sys2Proof.Proofs.BufferInvariant Sys2Proof.Proofs.InvalidBytes

/-! ### The selection's best size -/

/-- One turn of the loop lowers the best to the method's size, if that is smaller and the method enabled (R137). -/
theorem best_offerAttempt {k : Params} {p : Payload} {enabled : Vector Bool 8} {sel : Selection} {m : BdiMethod}
    (hm : m ∈ bdiMethods) (hbest : sel.best ≤ 64) : (offerAttempt k p enabled sel m).best =
      if enabled[m.slot] then min sel.best (bdiSize k p m) else sel.best := by
  rcases offerAttempt_cases hm hbest with ⟨hsel, hkept⟩ | ⟨hactive, hlt, ys, hsel⟩
  · rw [hsel]
    split
    · next hactive => exact (min_eq_left (hkept hactive)).symm
    · rfl
  · rw [hsel, if_pos hactive, min_eq_right hlt.le]

theorem best_foldl {k : Params} {p : Payload} {enabled : Vector Bool 8} {ms : List BdiMethod} {sel : Selection}
    (hms : ∀ m ∈ ms, m ∈ bdiMethods) (hbest : sel.best ≤ 64) : (ms.foldl (offerAttempt k p enabled) sel).best =
      ((ms.filter fun m => enabled[m.slot]).map (bdiSize k p)).foldl min sel.best := by
  induction ms generalizing sel with
  | nil => rfl
  | cons m ms ih =>
    have hturn := best_offerAttempt (enabled := enabled) (k := k) (p := p) (hms m List.mem_cons_self) hbest
    rw [List.foldl_cons, ih (fun m' hm' => hms m' (List.mem_cons_of_mem m hm')) (by rw [hturn]; split <;> omega),
      hturn, List.filter_cons]
    split <;> rfl

section
variable {k : Params} {p : Payload} {enabled : Vector Bool 8}

theorem selection_best : (selection k p enabled).best = bdiBest k p enabled :=
  best_foldl (fun _ h => h) le_rfl

/-- The plan is accepted exactly if some enabled method's size is below the block's (R137, R138). -/
theorem isSome_selection_plan : (selection k p enabled).plan.symbols.isSome = decide (bdiBest k p enabled < 64) := by
  rw [← selection_best, Selection.plan]
  match hw : (selection k p enabled).winner with
  | none => simp [Plan.rejected, bestSoFar_selection.best_of_none hw]
  | some (m, ys) =>
    obtain ⟨-, -, -, -, hlt⟩ := selection_winner hw
    simp [hlt]

/-! ### What a payload becomes -/

/-- The tag before the symbols of a method is one nibble of the stream (R138). -/
theorem nibbleStream_tag (tag : Nat) (ys : List Symbol) :
    nibbleStream (⟨tag, 1⟩ :: ys) = BitVec.ofNat 4 tag :: nibbleStream ys := rfl

theorem bdiCoded_of_winner (hp : Memory.wf p.compressedBytes = true) {m : BdiMethod} {ys : List Symbol}
    (hw : (selection k p enabled).winner = some (m, ys)) :
    BdiCoded k enabled p (applied p (selection k p enabled).plan) := by
  obtain ⟨-, -, hys, -, -⟩ := selection_winner hw
  have hplan : (selection k p enabled).plan.symbols = some (⟨m.tag, 1⟩ :: ys) := by rw [Selection.plan, hw]
  refine .inl ⟨m, ys, bdiWinner_iff_selection.2 ⟨ys, hw⟩, blockWords_eq_rawWords p m.width ▸ hys, ?_⟩
  rw [applied, hplan, ← nibbleStream_tag]
  exact packed_packedPayload hp (selection_plan_packable hplan)

theorem bdiCoded_of_no_winner (hw : (selection k p enabled).winner = none) :
    BdiCoded k enabled p (applied p (selection k p enabled).plan) := by
  have hbest := bestSoFar_selection (k := k) (p := p) (enabled := enabled)
  refine .inr ⟨hbest.best_of_none hw ▸ hbest.least, ?_⟩
  rw [applied, Selection.plan, hw]
  rfl

/-- Applying the plan of a selection codes the payload as R138 and R139 say, whatever slots are enabled. -/
theorem bdiCoded_applied (hp : Memory.wf p.compressedBytes = true) :
    BdiCoded k enabled p (applied p (selection k p enabled).plan) := by
  match hw : (selection k p enabled).winner with
  | none => exact bdiCoded_of_no_winner hw
  | some (m, ys) => exact bdiCoded_of_winner hp hw

end

/-! ### The command (R252) -/

/-- Settles O26: static BDI completes on both payloads, so the command does. -/
theorem compressBdiCodesBothPayloads : Obligations.CompressBdiCodesBothPayloads := by
  rintro s ⟨hfault, hrecord⟩ hcanonical
  obtain ⟨hnew, hold⟩ := (canonical_iff s).1 hcanonical
  have hop : operationOf .compressBdi s = _ :=
    compressBoth_of_ok (staticBDI_completes s.cfg s.request.old) (staticBDI_completes s.cfg s.request.new)
  exact ⟨_, exec_of_ready hfault hrecord hop, bdiCoded_applied (compressedBytes_wf hold),
    bdiCoded_applied (compressedBytes_wf hnew),
    congrArg (fun shrunk => some (Result.compress shrunk)) isSome_selection_plan, rfl⟩

end Sys2Proof.Proofs.BdiCodec
end

section
/-! The ladder of static FPC (R130 to R132): each rung as a range of the unsigned word, and the nibbles of a word's
symbol. -/

namespace Sys2Proof.Proofs.FpcLadder

open Sys2Proof.Machine

/-! ### The rows' conditions on the unsigned word (R130) -/

/-- A signed magnitude is small if the unsigned value is near 0 or near the top of its width. -/
theorem natAbs_toInt_le_iff {n : Nat} (x : BitVec n) (m : Nat) :
    x.toInt.natAbs ≤ m ↔ x.toNat ≤ m ∨ 2 ^ n ≤ x.toNat + m := by
  have hx := x.isLt
  rw [BitVec.toInt_eq_toNat_cond]
  split <;> omega

theorem toNat_highHalf (u : Word32) : (u.extractLsb' 16 16).toNat = u.toNat / 2 ^ 16 := by
  have hu := u.isLt
  simp only [BitVec.extractLsb'_toNat, Nat.shiftRight_eq_div_pow]
  omega

theorem toNat_lowHalf (u : Word32) : (u.extractLsb' 0 16).toNat = u.toNat % 2 ^ 16 := by simp

/-- Byte `k` of an unsigned value. -/
def byteAt (n k : Nat) : Nat := n / 256 ^ k % 256

theorem toNat_byte (u : Word32) (k : Nat) : (u.extractLsb' (8 * k) 8).toNat = byteAt u.toNat k := by
  rw [BitVec.extractLsb'_toNat, Nat.shiftRight_eq_div_pow, byteAt, pow_mul]
  rfl

theorem eq_sum_bytes {n : Nat} (hn : n < 2 ^ 32) :
    n = byteAt n 0 + 256 * (byteAt n 1 + 256 * (byteAt n 2 + 256 * byteAt n 3)) := by
  have h2 : n / 256 ^ 2 = n / 256 / 256 := (Nat.div_div_eq_div_mul n 256 256).symm
  have h3 : n / 256 ^ 3 = n / 256 / 256 / 256 := by rw [← h2, Nat.div_div_eq_div_mul]; rfl
  simp only [byteAt, h2, h3]
  omega

/-- The four bytes of a multiple of `0x01010101` are the factor. -/
theorem byteAt_mul {b k : Nat} (hb : b ≤ 0xFF) (hk : k < 4) : byteAt (b * 0x01010101) k = b := by
  have hshift : b * 0x01010101 / 256 ^ k = b * (0x01010101 / 256 ^ k) := by interval_cases k <;> omega
  rw [byteAt, hshift]
  interval_cases k <;> simp only [Nat.reducePow, Nat.reduceDiv] <;> omega

/-- Four equal bytes make a multiple of `0x01010101` (R131, rung 6). -/
theorem bytesAgree_iff (u : Word32) : bytesAgree u = true ↔ 0x01010101 ∣ u.toNat := by
  have hu := u.isLt
  have hbytes : bytesAgree u = true ↔ (byteAt u.toNat 3 = byteAt u.toNat 2 ∧ byteAt u.toNat 2 = byteAt u.toNat 1) ∧
      byteAt u.toNat 1 = byteAt u.toNat 0 := by
    simp only [bytesAgree, Bool.and_eq_true, beq_iff_eq, ← BitVec.toNat_inj, ← toNat_byte]
  rw [hbytes]
  constructor
  · rintro ⟨⟨h32, h21⟩, h10⟩
    have hsum := eq_sum_bytes hu
    rw [h32, h21, h10] at hsum
    omega
  · rintro ⟨b, hb⟩
    rw [hb, Nat.mul_comm]
    simp only [byteAt_mul (show b ≤ 0xFF by omega), Nat.reduceLT, and_self]

/-- The ladder with each row's condition on the unsigned word (R131). -/
theorem fpcRung_eq (u : Word32) : fpcRung u =
    if u.toNat = 0 then .zero
    else if u.toNat ≤ 0xFF ∨ 2 ^ 32 ≤ u.toNat + 0xFF then .smallByte
    else if u.toNat ≤ 0xFFFF ∨ 2 ^ 32 ≤ u.toNat + 0xFFFF then .smallHalf
    else if u.toNat % 2 ^ 16 = 0 then .lowHalfZero
    else if (u.toNat / 2 ^ 16 ≤ 0xFF ∨ 2 ^ 16 ≤ u.toNat / 2 ^ 16 + 0xFF) ∧
      (u.toNat % 2 ^ 16 ≤ 0xFF ∨ 2 ^ 16 ≤ u.toNat % 2 ^ 16 + 0xFF) then .smallHalves
    else if 0x01010101 ∣ u.toNat then .equalBytes
    else .raw := by
  have hzero : u = 0 ↔ u.toNat = 0 := by simp [← BitVec.toNat_inj]
  have hlow : u.extractLsb' 0 16 = 0 ↔ u.toNat % 2 ^ 16 = 0 := by simp [← BitVec.toNat_inj]
  simp only [fpcRung, magnitude32, magnitude16, bytesAgree_iff, hzero, hlow,
    natAbs_toInt_le_iff, toNat_highHalf, toNat_lowHalf]

/-! ### The rungs as disjoint ranges (R131) -/

/-- The unsigned words of a rung. -/
def RungRange (n : Nat) : FpcRung → Prop
  | .zero => n = 0
  | .smallByte => n ≠ 0 ∧ (n ≤ 0xFF ∨ 0xFFFFFF01 ≤ n)
  | .smallHalf => (0x100 ≤ n ∧ n ≤ 0xFFFF) ∨ (0xFFFF0001 ≤ n ∧ n ≤ 0xFFFFFF00)
  | .lowHalfZero => n ≠ 0 ∧ n % 2 ^ 16 = 0
  | .smallHalves => 0x10000 ≤ n ∧ n ≤ 0xFFFF0000 ∧ n % 2 ^ 16 ≠ 0 ∧
      (n / 2 ^ 16 ≤ 0xFF ∨ 0xFF01 ≤ n / 2 ^ 16) ∧ (n % 2 ^ 16 ≤ 0xFF ∨ 0xFF01 ≤ n % 2 ^ 16)
  | .equalBytes => ∃ b, 1 ≤ b ∧ b ≤ 0xFE ∧ n = b * 0x01010101
  | .raw => 0x10000 ≤ n ∧ n ≤ 0xFFFF0000 ∧ n % 2 ^ 16 ≠ 0 ∧
      ((0x100 ≤ n / 2 ^ 16 ∧ n / 2 ^ 16 ≤ 0xFF00) ∨ (0x100 ≤ n % 2 ^ 16 ∧ n % 2 ^ 16 ≤ 0xFF00)) ∧
      ∀ b, n ≠ b * 0x01010101

theorem rungRange_fpcRung (u : Word32) : RungRange u.toNat (fpcRung u) := by
  have hu := u.isLt
  rw [fpcRung_eq]
  split
  · assumption
  split
  · simp only [RungRange]; omega
  split
  · simp only [RungRange]; omega
  split
  · simp only [RungRange]; omega
  split
  · simp only [RungRange]; omega
  split
  · next hdvd => exact ⟨u.toNat / 0x01010101, by omega, by omega, by omega⟩
  · simp only [RungRange]
    refine ⟨by omega, by omega, by omega, by omega, fun b hb => by omega⟩

theorem fpcRung_of_rungRange {u : Word32} {r : FpcRung} (h : RungRange u.toNat r) : fpcRung u = r := by
  have hu := u.isLt
  rw [fpcRung_eq]
  cases r with
  | zero => exact if_pos h
  | smallByte =>
    simp only [RungRange] at h
    rw [if_neg (by omega), if_pos (by omega)]
  | smallHalf =>
    simp only [RungRange] at h
    rw [if_neg (by omega), if_neg (by omega), if_pos (by omega)]
  | lowHalfZero =>
    simp only [RungRange] at h
    rw [if_neg (by omega), if_neg (by omega), if_neg (by omega), if_pos (by omega)]
  | smallHalves =>
    simp only [RungRange] at h
    rw [if_neg (by omega), if_neg (by omega), if_neg (by omega), if_neg (by omega), if_pos (by omega)]
  | equalBytes =>
    obtain ⟨b, hlow, hhigh, hb⟩ := h
    rw [if_neg (by omega), if_neg (by omega), if_neg (by omega), if_neg (by omega), if_neg (by omega),
      if_pos (by omega)]
  | raw =>
    obtain ⟨hlow, hhigh, hhalf, hwide, hbytes⟩ := h
    rw [if_neg (by omega), if_neg (by omega), if_neg (by omega), if_neg (by omega), if_neg (by omega),
      if_neg fun ⟨b, hb⟩ => hbytes b (by omega)]

theorem fpcRung_eq_iff {u : Word32} {r : FpcRung} : fpcRung u = r ↔ RungRange u.toNat r :=
  ⟨fun h => h ▸ rungRange_fpcRung u, fpcRung_of_rungRange⟩

/-- Settles O51: each clause is the range of its rung. -/
theorem ladderByUnsignedRanges : Obligations.LadderByUnsignedRanges := fun _ =>
  ⟨fpcRung_eq_iff, fpcRung_eq_iff, fpcRung_eq_iff, fpcRung_eq_iff, fpcRung_eq_iff, fpcRung_eq_iff, fpcRung_eq_iff⟩

/-! ### The nibbles of a symbol (R94, R132) -/

theorem nib_congr {v v' j j' : Nat} (h : ∀ i < 4, v.testBit (4 * j + i) = v'.testBit (4 * j' + i)) :
    nib v j = nib v' j' := by
  refine BitVec.eq_of_getLsbD_eq fun i hi => ?_
  simpa only [nib, BitVec.getLsbD_ofNat, hi, decide_true, Bool.true_and, Nat.testBit_shiftRight] using h i hi

/-- Two values side by side: the nibbles of the upper one, then those of the lower one. -/
theorem symbolNibbles_append {a b m : Nat} (n : Nat) (hb : b < 16 ^ m) :
    symbolNibbles ⟨16 ^ m * a + b, n + m⟩ = symbolNibbles ⟨a, n⟩ ++ symbolNibbles ⟨b, m⟩ := by
  rw [show 16 ^ m = 2 ^ (4 * m) by rw [pow_mul]; rfl] at hb ⊢
  simp only [symbolNibbles, Nat.add_comm n m, List.range_add, List.reverse_append, List.map_append, ← List.map_reverse,
    List.map_map]
  congr 1 <;> refine List.map_congr_left fun j hj => nib_congr fun i hi => ?_
  · rw [Nat.testBit_two_pow_mul_add a hb]
    beta_reduce
    rw [if_neg (by omega), show 4 * (m + j) + i - 4 * m = 4 * j + i by omega]
  · have hj : j < m := by simpa using hj
    rw [Nat.testBit_two_pow_mul_add a hb, if_pos (by omega)]

/-- The nibbles of a field of a word are the word's own. -/
theorem symbolNibbles_extractLsb' (u : Word32) (i n : Nat) :
    symbolNibbles ⟨(u.extractLsb' (4 * i) (4 * n)).toNat, n⟩ =
      (List.range n).reverse.map fun j => nib u.toNat (i + j) := by
  refine List.map_congr_left fun j hj => nib_congr fun k hk => ?_
  have hj : j < n := by simpa using hj
  rw [BitVec.extractLsb'_toNat, Nat.testBit_mod_two_pow, Nat.testBit_shiftRight, decide_eq_true (by omega),
    Bool.true_and, Nat.mul_add, Nat.add_assoc]

/-- The shape of R132: one nibble, then a field of the word. -/
theorem symbolNibbles_tagged (c : Nat) (u : Word32) (i n : Nat) :
    symbolNibbles ⟨16 ^ n * c + (u.extractLsb' (4 * i) (4 * n)).toNat, n + 1⟩ =
      BitVec.ofNat 4 c :: (List.range n).reverse.map fun j => nib u.toNat (i + j) := by
  have hfield : (u.extractLsb' (4 * i) (4 * n)).toNat < 16 ^ n :=
    (u.extractLsb' (4 * i) (4 * n)).isLt.trans_eq (pow_mul 2 4 n)
  rw [Nat.add_comm n 1, symbolNibbles_append 1 hfield, symbolNibbles_extractLsb']
  rfl

/-- The default symbol of a word at any rung but the last: the rung's number less one, then the nibbles it keeps. -/
theorem symbolNibbles_fpcSymbolDefault (u : Word32) {r : FpcRung} (hr : r ≠ .raw) :
    symbolNibbles (fpcSymbolDefault u r) =
      BitVec.ofNat 4 (rungNumber r - 1) :: (keptNibbles r).map fun j => nib u.toNat j := by
  cases r with
  | raw => exact absurd rfl hr
  | zero => rfl
  | smallByte => exact symbolNibbles_tagged 1 u 0 2
  | smallHalf => exact symbolNibbles_tagged 2 u 0 4
  | lowHalfZero => exact symbolNibbles_tagged 3 u 4 4
  | smallHalves =>
    have hvalue : 0x40000 + (u.extractLsb' 16 8).toNat * 0x100 + (u.extractLsb' 0 8).toNat =
        16 ^ 2 * (16 ^ 2 * 4 + (u.extractLsb' 16 8).toNat) + (u.extractLsb' 0 8).toNat := by ring
    rw [fpcSymbolDefault, hvalue, symbolNibbles_append 3 (u.extractLsb' 0 8).isLt]
    exact congrArg₂ (· ++ ·) (symbolNibbles_tagged 4 u 4 2) (symbolNibbles_extractLsb' u 0 2)
  | equalBytes => exact symbolNibbles_tagged 5 u 0 2

/-- A nibble lies in a byte. -/
theorem nib_byteAt (n j : Nat) : nib n j = nib (byteAt n (j / 2)) (j % 2) := by
  refine nib_congr fun i hi => ?_
  rw [byteAt, show 256 ^ (j / 2) = 2 ^ (8 * (j / 2)) by rw [pow_mul]; rfl, show 256 = 2 ^ 8 from rfl,
    Nat.testBit_mod_two_pow, Nat.testBit_div_two_pow, decide_eq_true (by omega), Bool.true_and]
  congr 1
  omega

theorem nib_mul {b j : Nat} (hb : b ≤ 0xFF) (hj : j < 8) : nib (b * 0x01010101) j = nib b (j % 2) := by
  rw [nib_byteAt, byteAt_mul hb (by omega)]

/-- The nibbles of four equal bytes repeat after two. -/
theorem nib_of_equalBytes {u : Word32} (h : fpcRung u = .equalBytes) {j : Nat} (hj : j < 8) :
    nib u.toNat j = nib u.toNat (j % 2) := by
  obtain ⟨b, -, hb, hu⟩ := fpcRung_eq_iff.1 h
  rw [hu, nib_mul (by omega) hj, nib_mul (by omega) (by omega), Nat.mod_mod]

theorem ladderSymbol_default_of_raw {u : Word32} (h : fpcRung u = .raw) :
    ladderSymbol defaultParams u = ⟨u.toNat, 8⟩ := by
  simp only [ladderSymbol, h, defaultParams, fpcSymbolDefault]

/-- Settles O52. -/
theorem ladderSymbolHasItsRungsCost : Obligations.LadderSymbolHasItsRungsCost := by
  refine ⟨fun cfg u => ⟨(ladderSymbol_cost cfg u).1, (ladderSymbol_narrow cfg u).2⟩, fun u =>
    ⟨symbolNibbles_fpcSymbolDefault u, fun hraw => ?_, fun hequal _ hj => nib_of_equalBytes hequal hj⟩⟩
  rw [ladderSymbol_default_of_raw hraw]
  exact ⟨rfl, rfl⟩

end Sys2Proof.Proofs.FpcLadder
end

section
/-! COMPRESS.FPC (R133 to R135, R251): the static plan by the costs of a block's sixteen rungs, what a payload becomes by
it, and the command. -/

namespace Sys2Proof.Proofs.FpcCodec

open Sys2Proof.Machine Sys2Proof.Proofs.TrainingCounts Sys2Proof.Proofs.WordPacker
  Sys2Proof.Proofs.BufferInvariant Sys2Proof.Proofs.InvalidBytes

/-! ### The costs of a list of rungs (R131, R135) -/

/-- Any rung but the last saves at least three nibbles. -/
theorem fpcCost_le_of_ne_raw {r : FpcRung} (h : r ≠ .raw) : fpcCost r ≤ 5 := by
  cases r with
  | raw => exact absurd rfl h
  | _ => decide

theorem sum_fpcCost_le (rs : List FpcRung) : (rs.map fpcCost).sum ≤ 8 * rs.length := by
  rw [Nat.mul_comm, ← smul_eq_mul, ← List.length_map (f := fpcCost)]
  refine List.sum_le_card_nsmul _ _ fun c hc => ?_
  obtain ⟨r, -, rfl⟩ := List.mem_map.1 hc
  exact fpcCost_le r

theorem sum_fpcCost_of_all_raw {rs : List FpcRung} (h : ∀ r ∈ rs, r = .raw) : (rs.map fpcCost).sum = 8 * rs.length := by
  rw [List.eq_replicate_of_mem h]
  simp [fpcCost, Nat.mul_comm]

theorem sum_fpcCost_of_ne_raw {rs : List FpcRung} {r : FpcRung} (hr : r ∈ rs) (h : r ≠ .raw) :
    (rs.map fpcCost).sum + 3 ≤ 8 * rs.length := by
  have hcost := fpcCost_le_of_ne_raw h
  obtain ⟨before, after, rfl⟩ := List.append_of_mem hr
  have hbefore := sum_fpcCost_le before
  have hafter := sum_fpcCost_le after
  simp only [List.map_append, List.map_cons, List.sum_append, List.sum_cons, List.length_append, List.length_cons]
  omega

/-! ### The plan of a block (R133) -/

/-- The rungs of a block's sixteen words. -/
def blockRungs (p : Payload) : List FpcRung := (List.range 16).map fun i => fpcRung (rawWord32 p i)

@[simp] theorem blockRungs_length (p : Payload) : (blockRungs p).length = 16 := by simp [blockRungs]

theorem mem_blockRungs {p : Payload} {r : FpcRung} : r ∈ blockRungs p ↔ ∃ i < 16, fpcRung (rawWord32 p i) = r := by
  simp [blockRungs]

theorem fpcSize_eq (p : Payload) : fpcSize p = (((blockRungs p).map fpcCost).sum + 1) / 2 := by
  rw [fpcSize, blockRungs, List.map_map]
  rfl

theorem fpcSize_le (p : Payload) : fpcSize p ≤ 64 := by
  have hsum := sum_fpcCost_le (blockRungs p)
  rw [blockRungs_length] at hsum
  rw [fpcSize_eq]
  omega

/-- One word below rung 7 is enough to make the block smaller (R135). -/
theorem fpcSize_lt_iff (p : Payload) : fpcSize p < 64 ↔ ¬∀ i < 16, fpcRung (rawWord32 p i) = .raw := by
  rw [fpcSize_eq]
  constructor
  · intro hlt hall
    have hsum := sum_fpcCost_of_all_raw (rs := blockRungs p) fun r hr => by
      obtain ⟨i, hi, rfl⟩ := mem_blockRungs.1 hr
      exact hall i hi
    rw [blockRungs_length] at hsum
    omega
  · intro hnot
    push Not at hnot
    obtain ⟨i, hi, hraw⟩ := hnot
    have hsum := sum_fpcCost_of_ne_raw (mem_blockRungs.2 ⟨i, hi, rfl⟩) hraw
    rw [blockRungs_length] at hsum
    omega

/-- The ladder symbols of a block's sixteen words. -/
def ladderSymbols (k : Params) (p : Payload) : List Symbol := (List.range 16).map fun i => ladderSymbol k (rawWord32 p i)

section
variable (cfg : Knobs) (p : Payload)

theorem sum_ladderSymbols : ((ladderSymbols cfg.params p).map Symbol.nibbles).sum = ((blockRungs p).map fpcCost).sum := by
  simp only [ladderSymbols, blockRungs, List.map_map, Function.comp_def, ladderSymbol_cost]

/-- The static FPC plan: the ladder symbols below 64 bytes, else a rejection. -/
theorem fpcPlanOf_eq : fpcPlanOf cfg p =
    if fpcSize p < 64 then ⟨fpcSize p, some (ladderSymbols cfg.params p)⟩ else Plan.rejected 64 := by
  have hsymbols : (blockWordBits p).map (ladderSymbol cfg.params) = ladderSymbols cfg.params p := by
    rw [blockWordBits_eq, List.map_map]
    rfl
  rw [fpcPlanOf, hsymbols, planOfSymbols, sum_ladderSymbols, ← fpcSize_eq]
  rfl

theorem isSome_fpcPlanOf : (fpcPlanOf cfg p).symbols.isSome = decide (fpcSize p < 64) := by
  rw [fpcPlanOf_eq]
  split <;> simp [*, Plan.rejected]

/-- The size a plan reports is half the costs, accepted or not: sixteen rung 7 words make 64 bytes. -/
theorem size_fpcPlanOf : (fpcPlanOf cfg p).size = fpcSize p := by
  have hle := fpcSize_le p
  rw [fpcPlanOf_eq]
  split
  · rfl
  · simp only [Plan.rejected]
    omega

end

/-- Settles O53. -/
theorem fpcRejectsOnlySixteenRawWords : Obligations.FpcRejectsOnlySixteenRawWords := by
  intro cfg p
  refine ⟨fpcPlanOf cfg p, staticFPCplan_eq cfg.params p, ?_⟩
  rw [← Option.not_isSome_iff_eq_none, isSome_fpcPlanOf, decide_eq_true_iff, fpcSize_lt_iff, not_not]

/-! ### What a payload becomes (R134) -/

theorem fpcCoded_applied (cfg : Knobs) {p : Payload} (hp : Memory.wf p.compressedBytes = true) :
    FpcCoded cfg.params p (applied p (fpcPlanOf cfg p)) := by
  have hplan := fpcPlanOf_eq cfg p
  rw [FpcCoded]
  split
  · next hlt =>
    have hys : (fpcPlanOf cfg p).symbols = some (ladderSymbols cfg.params p) := by rw [hplan, if_pos hlt]
    rw [applied, hys]
    exact packed_packedPayload hp (fpcPlanOf_fits cfg p _ hys)
  · next hge =>
    rw [hplan, if_neg hge]
    exact rfl

/-! ### The command (R251) -/

/-- Settles O25: static FPC completes on both payloads, so the command does. -/
theorem compressFpcCodesBothPayloads : Obligations.CompressFpcCodesBothPayloads := by
  rintro s ⟨hfault, hrecord⟩ hcanonical
  obtain ⟨hnew, hold⟩ := (canonical_iff s).1 hcanonical
  have hop : operationOf .compressFpc s = _ :=
    compressBoth_of_ok (staticFPC_completes s.cfg s.request.old) (staticFPC_completes s.cfg s.request.new)
  exact ⟨_, exec_of_ready hfault hrecord hop, fpcCoded_applied s.cfg (compressedBytes_wf hold),
    fpcCoded_applied s.cfg (compressedBytes_wf hnew),
    congrArg (fun shrunk => some (Result.compress shrunk)) (isSome_fpcPlanOf s.cfg s.request.new), rfl⟩

end Sys2Proof.Proofs.FpcCodec
end

section
/-! The sizes of base-delta-immediate (R115, R118, R136 to R139, R141): how far an attempt's size can lie from the
block's, what an accepted COMPRESS.BDI stores, and the block of one repeated word. -/

namespace Sys2Proof.Proofs.BdiSizes

open Sys2Proof.Machine Sys2Proof.Proofs.TrainingCounts Sys2Proof.Proofs.BlockWords Sys2Proof.Proofs.Classifiers
  Sys2Proof.Proofs.BdiCodec

/-! ### The size of an attempt (R115, R118) -/

/-- A multi-base attempt reports the size of the block, or that of its deltas and of one base or two. -/
theorem size_multiBaseCompress_cases (k : Params) (ws : List Nat) (d w : Nat) :
    (multiBaseCompress k ws d w).size = ws.length * w ∨ (multiBaseCompress k ws d w).size = d * ws.length + w ∨
      (multiBaseCompress k ws d w).size = d * ws.length + 2 * w := by
  match h : (multiBaseCompress k ws d w).symbols with
  | none => exact .inl (multiBaseCompress_rejected h)
  | some ys =>
    obtain ⟨base0, as, base1, -, -, hsize, -, -⟩ := multiBaseCompress_accepted h
    cases base1 with
    | none => exact .inr (.inl (by simpa using hsize))
    | some b => exact .inr (.inr (by simpa [Nat.mul_comm w] using hsize))

theorem size_sameValue {ws : List Nat} {w : Nat} (hne : ws ≠ []) :
    (sameValue ws w).size = if allEqual ws then w else ws.length * w := by
  cases ws with
  | nil => exact absurd rfl hne
  | cons v vs => rw [sameValue]; split <;> rfl

/-! ### The size of a method (R136, R137) -/

section
variable {k : Params} {p : Payload} {enabled : Vector Bool 8} {m : BdiMethod}

theorem bdiSize_sameValue (hm : m ∈ bdiMethods) (hkind : m.kind = .sameValue) :
    bdiSize k p m = if allEqual (rawWords p m.width) then m.width else 64 := by
  have hlength : (rawWords p m.width).length * m.width = 64 := by
    rcases bdiMethods_width hm with hw | hw | hw <;> simp [hw]
  have hne : rawWords p m.width ≠ [] := fun hnil => by simp [hnil] at hlength
  rw [bdiSize, BdiMethod.attempt, hkind]
  exact (size_sameValue hne).trans (by rw [hlength])

/-- A multi-base method takes at least 16 bytes, one base and the 1-byte deltas of 8-byte words, and below 64 at most 48,
two bases and the 4-byte deltas of 8-byte words. -/
theorem bdiSize_multiBase_bounds (hm : m ∈ bdiMethods) {d : Nat} (hkind : m.kind = .multiBase d)
    (hd : d = 1 ∨ d = 2 ∨ d = 4) : 16 ≤ bdiSize k p m ∧ (bdiSize k p m < 64 → bdiSize k p m ≤ 48) := by
  have hsize := size_multiBaseCompress_cases k (rawWords p m.width) d m.width
  rw [rawWords_length] at hsize
  rw [bdiSize, BdiMethod.attempt, hkind]
  dsimp only
  rcases bdiMethods_width hm with hw | hw | hw <;> rcases hd with rfl | rfl | rfl <;> rw [hw] at hsize ⊢ <;> omega

/-- No method reports a size between 48 and 64 bytes. -/
theorem bdiSize_le_of_lt (hm : m ∈ bdiMethods) (hlt : bdiSize k p m < 64) : bdiSize k p m ≤ 48 := by
  rcases attempt_kind hm with hkind | ⟨d, hkind, hd⟩
  · have hw := bdiMethods_width hm
    rw [bdiSize_sameValue hm hkind] at hlt ⊢
    split at hlt
    · next hequal => rw [if_pos hequal]; omega
    · omega
  · exact (bdiSize_multiBase_bounds hm hkind hd).2 hlt

/-! ### What an accepted COMPRESS.BDI stores (R138, R139) -/

theorem bdiBest_of_bdiWinner (h : BdiWinner k p enabled m) : bdiBest k p enabled = bdiSize k p m := by
  obtain ⟨ys, hw⟩ := bdiWinner_iff_selection.1 h
  obtain ⟨-, -, -, hsize, -⟩ := bestSoFar_selection.winner m ys hw
  rw [← selection_best, hsize]

/-- The tag is one nibble more than the winner's size holds, so the stream is odd. -/
theorem length_nibbleStream_winner {ys : List Symbol} (hw : (selection k p enabled).winner = some (m, ys)) :
    (nibbleStream (⟨m.tag, 1⟩ :: ys)).length = 2 * bdiBest k p enabled + 1 ∧ bdiBest k p enabled ≤ 48 := by
  obtain ⟨hm, -, hys, hbest, -⟩ := selection_winner hw
  obtain ⟨-, -, hnibbles, -⟩ := attempt_accepted hm hys
  rw [← hbest, selection_best] at hnibbles
  have hwinner : BdiWinner k p enabled m := bdiWinner_iff_selection.2 ⟨ys, hw⟩
  refine ⟨?_, (bdiBest_of_bdiWinner hwinner).trans_le (bdiSize_le_of_lt hm hwinner.accepted)⟩
  rw [nibbleStream_length, List.map_cons, List.sum_cons, hnibbles, Nat.add_comm]

/-- One byte more than the best size, half-terminated. -/
theorem stored_of_isCompressed (h : (applied p (selection k p enabled).plan).isCompressed = true) :
    (applied p (selection k p enabled).plan).compressedLength.toNat = bdiBest k p enabled + 1 ∧
      bdiBest k p enabled ≤ 48 ∧ (applied p (selection k p enabled).plan).isHalfTerminated = true := by
  match hw : (selection k p enabled).winner with
  | none =>
    rw [applied, Selection.plan, hw] at h
    exact absurd h Bool.false_ne_true
  | some (m, ys) =>
    obtain ⟨hlength, hbest⟩ := length_nibbleStream_winner hw
    rw [applied, Selection.plan, hw]
    simp only [packedPayload, hlength, BitVec.toNat_ofNat, decide_eq_true_eq]
    omega

end

/-- Settles O27. -/
theorem bdiStoresOneByteMoreThanItsSize : Obligations.BdiStoresOneByteMoreThanItsSize := by
  rintro s t ⟨hfault, hrecord⟩ hexec hcompressed
  have hop : operationOf .compressBdi s = _ :=
    compressBoth_of_ok (staticBDI_completes s.cfg s.request.old) (staticBDI_completes s.cfg s.request.new)
  cases (exec_of_ready hfault hrecord hop).symm.trans hexec
  obtain ⟨hlength, hbest, hhalf⟩ := stored_of_isCompressed hcompressed
  exact ⟨hlength, hlength.trans_le (Nat.succ_le_succ hbest), hhalf⟩

/-! ### A block of one repeated word (R141) -/

section
variable {p : Payload} {v : Nat}

theorem allEqual_of_repeated (h : ∀ i < 8, rawWord p 8 i = v) : allEqual (rawWords p 8) = true := by
  refine allEqual_iff.2 ⟨v, fun x hx => ?_⟩
  obtain ⟨i, hi, rfl⟩ := mem_rawWords.1 hx
  exact h i hi

theorem rawWord_lt (p : Payload) {w i : Nat} (hi : i < 64 / w) : rawWord p w i < 256 ^ w :=
  blockWords_lt (blockWords_eq_rawWords p w ▸ mem_rawWords.2 ⟨i, hi, rfl⟩)

/-- If all 4-byte words are equal, so are the halves of the first 8-byte word. -/
theorem halves_eq_of_allEqual (h : allEqual (rawWords p 4) = true) :
    rawWord p 8 0 % 2 ^ 32 = rawWord p 8 0 / 2 ^ 32 := by
  obtain ⟨x, hx⟩ := allEqual_iff.1 h
  have hlow : rawWord p 4 0 = x := hx _ (mem_rawWords.2 ⟨0, by decide, rfl⟩)
  have hhigh : rawWord p 4 1 = x := hx _ (mem_rawWords.2 ⟨1, by decide, rfl⟩)
  have hlt : x < 256 ^ 4 := hlow ▸ rawWord_lt p (by decide)
  have hword : rawWord p 8 0 = x + x * 256 ^ 4 := by
    rw [show (8 : Nat) = 2 * 4 from rfl, rawWord_double, hlow, hhigh]
  rw [hword]
  omega

/-- With unequal halves, words narrower than 8 bytes are not all equal (R111). -/
theorem not_allEqual_of_halves_ne (h : rawWord p 8 0 % 2 ^ 32 ≠ rawWord p 8 0 / 2 ^ 32) :
    ¬allEqual (rawWords p 4) = true ∧ ¬allEqual (rawWords p 2) = true := by
  have hfour : ¬allEqual (rawWords p 4) = true := fun hall => h (halves_eq_of_allEqual hall)
  obtain ⟨hwider, -⟩ := widerWordsStayEqualAndZero p
  exact ⟨hfour, fun htwo => hfour (hwider htwo)⟩

/-- The same-value method on 8-byte words (R136). -/
def sameWord : BdiMethod := ⟨3, .sameValue, 8, 7⟩

theorem eq_sameWord_of_tag : ∀ m ∈ bdiMethods, m.tag = 3 → m = sameWord := by decide

theorem width_of_other_sameValue : ∀ m ∈ bdiMethods, m.tag ≠ 3 → m.kind = .sameValue → m.width = 4 ∨ m.width = 2 := by
  decide

variable {k : Params}

theorem bdiSize_sameWord (h : allEqual (rawWords p 8) = true) : bdiSize k p sameWord = 8 := by
  rw [bdiSize_sameValue (by decide) rfl]
  exact if_pos h

/-- With unequal halves every other method reports at least 16 bytes. -/
theorem le_bdiSize_of_tag_ne (h : rawWord p 8 0 % 2 ^ 32 ≠ rawWord p 8 0 / 2 ^ 32) {m : BdiMethod}
    (hm : m ∈ bdiMethods) (htag : m.tag ≠ 3) : 16 ≤ bdiSize k p m := by
  obtain ⟨hfour, htwo⟩ := not_allEqual_of_halves_ne h
  rcases attempt_kind hm with hkind | ⟨d, hkind, hd⟩
  · rw [bdiSize_sameValue hm hkind]
    rcases width_of_other_sameValue m hm htag hkind with hw | hw <;> rw [hw]
    · rw [if_neg hfour]; decide
    · rw [if_neg htwo]; decide
  · exact (bdiSize_multiBase_bounds hm hkind hd).1

theorem bdiWinner_sameWord (hsame : bdiSize k p sameWord = 8)
    (hothers : ∀ m ∈ bdiMethods, m.tag ≠ 3 → 16 ≤ bdiSize k p m) : BdiWinner k p allSlots sameWord where
  listed := by decide
  active := by decide
  accepted := by omega
  smallest m hm _ := by
    by_cases htag : m.tag = 3
    · rw [eq_sameWord_of_tag m hm htag]
    · have := hothers m hm htag
      omega
  earliest m hm _ hlt := by
    have := hothers m hm hlt.ne
    omega

end

/-- Settles O49. -/
theorem repeatedWordIsWonBySameValue : Obligations.RepeatedWordIsWonBySameValue := by
  intro k p v hrepeated hhalves
  have hfirst : rawWord p 8 0 % 2 ^ 32 ≠ rawWord p 8 0 / 2 ^ 32 := by rwa [hrepeated 0 (by decide)]
  have hsame : bdiSize k p sameWord = 8 := bdiSize_sameWord (allEqual_of_repeated hrepeated)
  have hothers : ∀ m ∈ bdiMethods, m.tag ≠ 3 → 16 ≤ bdiSize k p m := fun _ => le_bdiSize_of_tag_ne hfirst
  have hwinner := bdiWinner_sameWord hsame hothers
  exact ⟨(bdiBest_of_bdiWinner hwinner).trans hsame, hwinner, hothers⟩

end Sys2Proof.Proofs.BdiSizes
end

section
/-! COMPRESS.DFPC in training (R140, R253, R254): what a payload becomes by the smaller static plan, and the command. -/

namespace Sys2Proof.Proofs.TrainingCodec

open Sys2Proof.Machine Sys2Proof.Proofs.TrainingCounts Sys2Proof.Proofs.BufferInvariant
  Sys2Proof.Proofs.InvalidBytes Sys2Proof.Proofs.BdiCodec Sys2Proof.Proofs.FpcCodec

/-- The size of a BDI plan is the best size, accepted or not (R137, R138). -/
theorem size_bdiPlanOf (cfg : Knobs) (p : Payload) (enabled : Vector Bool 8) :
    (bdiPlanOf cfg p enabled).size = bdiBest cfg.params p enabled := by
  rw [bdiPlanOf, ← selection_best, Selection.plan]
  match hw : (selection cfg.params p enabled).winner with
  | none => exact (bestSoFar_selection.best_of_none hw).symm
  | some (m, ys) => rfl

/-- The plan that a payload gets in training (R140). -/
def bestPlanOf (cfg : Knobs) (p : Payload) : Plan := smallerPlan (fpcPlanOf cfg p) (bdiPlanOf cfg p allSlots)

theorem bestPlanOf_eq (cfg : Knobs) (p : Payload) : bestPlanOf cfg p =
    if fpcSize p ≤ bdiBest cfg.params p allSlots then fpcPlanOf cfg p else bdiPlanOf cfg p allSlots := by
  rw [bestPlanOf, smallerPlan, size_fpcPlanOf, size_bdiPlanOf]

theorem bestCoded_applied (cfg : Knobs) {p : Payload} (hp : Memory.wf p.compressedBytes = true) :
    BestCoded cfg.params p (applied p (bestPlanOf cfg p)) := by
  rw [BestCoded, bestPlanOf_eq]
  split
  · exact fpcCoded_applied cfg hp
  · exact bdiCoded_applied hp

/-- A payload is left compressed exactly if its plan is accepted (R98, R99). -/
theorem isSome_eq_isCompressed_applied (p : Payload) (plan : Plan) :
    plan.symbols.isSome = (applied p plan).isCompressed := by
  rw [applied]
  split <;> simp [*, packedPayload]

/-- The next state of COMPRESS.DFPC on a ready engine in training. -/
def trainingNext (s : State) : State :=
  { s with
    engine := trainedEngine s.cfg.params s.engine s.request.new
    request := { new := applied s.request.new (bestPlanOf s.cfg s.request.new)
                 old := applied s.request.old (bestPlanOf s.cfg s.request.old) }
    result := some (.compress (bestPlanOf s.cfg s.request.new).symbols.isSome) }

theorem exec_dfpc_of_training {s : State} (hready : Ready s) (htraining : inTraining s = true) :
    exec .compressDfpc s = .next (trainingNext s) := by
  obtain ⟨hfault, hrecord⟩ := hready
  have hop : operationOf .compressDfpc s = dfpcTraining s := if_pos htraining
  have hboth := compressBoth_of_ok (s := { s with engine := trainedEngine s.cfg.params s.engine s.request.new })
    (staticBest_completes s.cfg s.request.old) (staticBest_completes s.cfg s.request.new)
  exact exec_of_ready hfault hrecord (hop.trans ((dfpcTraining_eq s).trans hboth))

/-- Settles O28. -/
theorem dfpcTrainingCodesBothPayloads : Obligations.DfpcTrainingCodesBothPayloads := by
  intro s hready hcanonical hextracted hwc
  obtain ⟨hnew, hold⟩ := (canonical_iff s).1 hcanonical
  have htraining : inTraining s = true := by simp [inTraining, hextracted, BitVec.lt_def, hwc]
  exact ⟨trainingNext s, exec_dfpc_of_training hready htraining,
    bestCoded_applied s.cfg (compressedBytes_wf hold), bestCoded_applied s.cfg (compressedBytes_wf hnew),
    congrArg (fun shrunk => some (Result.compress shrunk)) (isSome_eq_isCompressed_applied _ _), rfl⟩

end Sys2Proof.Proofs.TrainingCodec
end

section
/-! The groups of the pattern learner (R167 to R169, R172): the threshold that marks a position, the group values as
bits, the period found by halving, and the mask of a group value. -/

namespace Sys2Proof.Proofs.PatternGroups

open Sys2Proof.Machine Sys2Proof.Proofs.EngineInvariant

/-! ### The sample counters and their bounds (R167) -/

section
variable {e : Engine}

@[simp] theorem getD_sampleCounts (p : Fin 128) : (sampleCounts e).getD p.val 0 = e.samples[p].toNat := by
  simp [sampleCounts]

theorem mem_sampleCounts {n : Nat} : n ∈ sampleCounts e ↔ ∃ q : Fin 128, e.samples[q].toNat = n := by
  simp only [sampleCounts, List.mem_map, Vector.mem_toList_iff, Vector.mem_iff_getElem, Fin.exists_iff]
  constructor
  · rintro ⟨c, ⟨q, hq, rfl⟩, rfl⟩
    exact ⟨q, hq, rfl⟩
  · rintro ⟨q, hq, rfl⟩
    exact ⟨_, ⟨q, hq, rfl⟩, rfl⟩

/-- A least and a greatest counter are the bounds of the threshold. -/
theorem sampleBounds_eq {least greatest : Fin 128} (hleast : ∀ q : Fin 128, e.samples[least].toNat ≤ e.samples[q].toNat)
    (hgreatest : ∀ q : Fin 128, e.samples[q].toNat ≤ e.samples[greatest].toNat) :
    sampleBounds e = (e.samples[least].toNat, e.samples[greatest].toNat) := by
  have hmin : (sampleCounts e).min? = some e.samples[least].toNat :=
    List.min?_eq_some_iff.2 ⟨mem_sampleCounts.2 ⟨least, rfl⟩, fun n hn => by
      obtain ⟨q, rfl⟩ := mem_sampleCounts.1 hn
      exact hleast q⟩
  have hmax : (sampleCounts e).max? = some e.samples[greatest].toNat :=
    List.max?_eq_some_iff.2 ⟨mem_sampleCounts.2 ⟨greatest, rfl⟩, fun n hn => by
      obtain ⟨q, rfl⟩ := mem_sampleCounts.1 hn
      exact hgreatest q⟩
  rw [sampleBounds, hmin, hmax, Option.getD_some, Option.getD_some]

/-- The comparison of R167 at the least and the greatest counter. -/
theorem marked_iff (cfg : Knobs) {least greatest : Fin 128}
    (hleast : ∀ q : Fin 128, e.samples[least].toNat ≤ e.samples[q].toNat)
    (hgreatest : ∀ q : Fin 128, e.samples[q].toNat ≤ e.samples[greatest].toNat) (p : Fin 128) :
    marked cfg e p.val = true ↔ cfg.thrDen * (e.samples[p].toNat - e.samples[least].toNat) <
      cfg.thrNum * (e.samples[greatest].toNat - e.samples[least].toNat) := by
  rw [marked, decide_eq_true_iff, sampleBounds_eq hleast hgreatest, getD_sampleCounts]

theorem exists_least (e : Engine) : ∃ least : Fin 128, ∀ q : Fin 128, e.samples[least].toNat ≤ e.samples[q].toNat :=
  Finite.exists_min fun q : Fin 128 => e.samples[q].toNat

theorem exists_greatest (e : Engine) :
    ∃ greatest : Fin 128, ∀ q : Fin 128, e.samples[q].toNat ≤ e.samples[greatest].toNat :=
  Finite.exists_max fun q : Fin 128 => e.samples[q].toNat

theorem not_marked_of_greatest {cfg : Knobs} (hfactor : cfg.thrNum ≤ cfg.thrDen) {p : Fin 128}
    (hp : ∀ q : Fin 128, e.samples[q].toNat ≤ e.samples[p].toNat) : marked cfg e p.val = false := by
  obtain ⟨least, hleast⟩ := exists_least e
  rw [← Bool.not_eq_true, marked_iff cfg hleast hp]
  exact Nat.not_lt.2 (Nat.mul_le_mul_right _ hfactor)

theorem marked_of_least {cfg : Knobs} (hfactor : 0 < cfg.thrNum) {p q : Fin 128}
    (hp : ∀ q : Fin 128, e.samples[p].toNat ≤ e.samples[q].toNat) (hq : e.samples[p].toNat < e.samples[q].toNat) :
    marked cfg e p.val = true := by
  obtain ⟨greatest, hgreatest⟩ := exists_greatest e
  rw [marked_iff cfg hp hgreatest, Nat.sub_self, Nat.mul_zero]
  exact Nat.mul_pos hfactor (Nat.sub_pos_of_lt (hq.trans_le (hgreatest q)))

end

/-- Settles O54. -/
theorem greatestIsNeverMarkedLeastIs : Obligations.GreatestIsNeverMarkedLeastIs :=
  ⟨fun cfg _ _ _ p hbounds => marked_iff cfg (fun q => (hbounds q).1) (fun q => (hbounds q).2) p,
    fun _ _ _ hpos hle => ⟨not_marked_of_greatest hle, fun hp ⟨_, hq⟩ => marked_of_least hpos hp hq⟩⟩

/-! ### The group values as bits (R168) -/

/-- A sum of powers of two chosen by flags has the flags as its bits, and no others. -/
theorem testBit_sum_flags (flag : Nat → Bool) (n i : Nat) :
    (((List.range n).map fun j => if flag j then 2 ^ j else 0).sum).testBit i = (decide (i < n) && flag i) := by
  induction n generalizing i with
  | zero => simp
  | succ n ih =>
    have hlt : ((List.range n).map fun j => if flag j then 2 ^ j else 0).sum < 2 ^ n :=
      Nat.lt_pow_two_of_testBit _ fun i hi => by simp [ih, hi]
    rw [List.range_succ, List.map_append, List.sum_append, List.map_singleton, List.sum_singleton]
    by_cases hn : flag n = true
    · rw [if_pos hn, ← Nat.or_two_pow_eq_add_of_lt hlt, Nat.testBit_or, Nat.testBit_two_pow, ih]
      grind
    · rw [if_neg hn, Nat.add_zero, ih]
      grind

theorem groupValue_getLsbD (cfg : Knobs) (e : Engine) (g : Nat) {j : Nat} (hj : j < 8) :
    (groupValue cfg e g).getLsbD j = marked cfg e (8 * g + j) := by
  rw [groupValue, BitVec.getLsbD_ofNat, testBit_sum_flags (fun j => marked cfg e (8 * g + j))]
  simp [hj]

@[simp] theorem groupValues_length (cfg : Knobs) (e : Engine) : (groupValues cfg e).length = 16 := by
  simp [groupValues]

theorem groupValues_getD (cfg : Knobs) (e : Engine) {g : Nat} (hg : g < 16) :
    (groupValues cfg e).getD g 0 = groupValue cfg e g := by
  simp [groupValues, hg]

/-! ### The period of the groups (R169) -/

/-- The half-lengths of the halving loop over `2 ^ n` groups. -/
def halves : Nat → List Nat
  | 0 => []
  | n + 1 => 2 ^ n :: halves n

theorem patternNum_eq (groups : List (BitVec 8)) : patternNum groups = halvingLoop groups (halves 4) := rfl

theorem halvesAgree_iff {groups : List (BitVec 8)} {h : Nat} :
    halvesAgree groups h = true ↔ ∀ i < h, groups.getD i 0 = groups.getD (i + h) 0 := by
  simp [halvesAgree]

/-- `period` divides the groups' number into equal stretches, the shortest found by halving: the first `n` groups repeat
with it, and its own halves differ. -/
structure HalvingPeriod (groups : List (BitVec 8)) (n period : Nat) : Prop where
  power : ∃ k ≤ n, period = 2 ^ k
  repeats : ∀ g < 2 ^ n, groups.getD g 0 = groups.getD (g % period) 0
  least : period ≠ 1 → ∃ i < period / 2, groups.getD i 0 ≠ groups.getD (i + period / 2) 0

/-- The two halves of `2 ^ (n + 1)` groups agree: what repeats in the first half repeats in both. -/
theorem HalvingPeriod.double {groups : List (BitVec 8)} {n period : Nat} (h : HalvingPeriod groups n period)
    (hagree : halvesAgree groups (2 ^ n) = true) : HalvingPeriod groups (n + 1) period := by
  obtain ⟨k, hk, hpower⟩ := h.power
  refine ⟨⟨k, by omega, hpower⟩, fun g hg => ?_, h.least⟩
  by_cases hlow : g < 2 ^ n
  · exact h.repeats g hlow
  · obtain ⟨i, rfl⟩ := Nat.exists_eq_add_of_le' (Nat.not_lt.1 hlow)
    have hi : i < 2 ^ n := by rw [pow_succ] at hg; omega
    have hdvd : period ∣ 2 ^ n := hpower ▸ pow_dvd_pow 2 hk
    rw [← halvesAgree_iff.1 hagree i hi, h.repeats i hi, Nat.add_mod, Nat.mod_eq_zero_of_dvd hdvd, Nat.add_zero,
      Nat.mod_mod]

theorem halvingPeriod_halvingLoop (groups : List (BitVec 8)) (n : Nat) :
    HalvingPeriod groups n (halvingLoop groups (halves n)) := by
  induction n with
  | zero => exact ⟨⟨0, le_rfl, rfl⟩, fun g hg => by simp [Nat.lt_one_iff.1 hg], fun h => absurd rfl h⟩
  | succ n ih =>
    rw [halves, halvingLoop]
    split
    next hagree => exact ih.double hagree
    next hdiffer =>
      rw [← pow_succ']
      refine ⟨⟨n + 1, le_rfl, rfl⟩, fun g hg => by rw [Nat.mod_eq_of_lt hg], fun _ => ?_⟩
      rw [pow_succ, Nat.mul_div_cancel _ two_pos]
      simpa [halvesAgree_iff] using hdiffer

/-- Settles O55. -/
theorem patternNumIsTheHalvingPeriod : Obligations.PatternNumIsTheHalvingPeriod := by
  intro groups _
  rw [patternNum_eq]
  obtain ⟨⟨k, hk, hpower⟩, hrepeats, hleast⟩ := halvingPeriod_halvingLoop groups 4
  refine ⟨?_, hrepeats, hleast⟩
  rw [hpower]
  interval_cases k <;> decide

/-! ### The mask of a group value (R172) -/

/-- Settles O58. -/
theorem dcMaskExpandsEachBit : Obligations.DcMaskExpandsEachBit := fun v j => nib_dcMask v j.isLt

end Sys2Proof.Proofs.PatternGroups
end

section
/-! The candidates of extraction and their ranking (R165, R166, R170, R171, R173): the candidates as the spec lists
them, the default savings, and the kept four as the first of a ranking by savings and insertion. -/

namespace Sys2Proof.Proofs.PatternRanking

open Sys2Proof.Machine Sys2Proof.Proofs.EngineInvariant Sys2Proof.Proofs.PatternGroups

/-! ### The candidates (R170, R171) -/

/-- Group `g` becomes a candidate: its value may, and is not that of an earlier group (R170). -/
def joins (groups : List (BitVec 8)) (g : Nat) : Bool :=
  decide (groups.getD g 0 ∉ [0x00#8, 0xFF, 3, 15, 51, 240] ∧ ∀ g' < g, groups.getD g' 0 ≠ groups.getD g 0)

theorem joins_iff {groups : List (BitVec 8)} {g : Nat} : joins groups g = true ↔
    neverCandidate (groups.getD g 0) = false ∧ ∀ g' < g, groups.getD g' 0 ≠ groups.getD g 0 := by
  simp only [joins, decide_eq_true_iff, neverCandidate, Config.excluded]
  refine and_congr_left fun _ => ?_
  simp [and_assoc]

/-- The candidate of group `g` (R171). -/
def groupCandidate (k : Params) (e : Engine) (groups : List (BitVec 8)) (period g : Nat) : Candidate :=
  ⟨k.savingsSample e.samples g (groups.getD g 0) period, .sample (groups.getD g 0)⟩

theorem candidateGroups_eq (groups : List (BitVec 8)) (period : Nat) :
    candidateGroups groups period = (List.range period).filter (joins groups) := rfl

theorem listedCandidates_eq (cfg : Knobs) (e : Engine) : listedCandidates cfg e = structuralCandidates cfg.params e ++
    (candidateGroups (groupValues cfg e) (patternNum (groupValues cfg e))).map
      (groupCandidate cfg.params e (groupValues cfg e) (patternNum (groupValues cfg e))) := rfl

/-- The values recorded before group `a` are those of the earlier groups that may become candidates. -/
def RecordedBefore (groups : List (BitVec 8)) (a : Nat) (seen : List (BitVec 8)) : Prop :=
  ∀ v, neverCandidate v = false → (v ∈ seen ↔ ∃ g < a, groups.getD g 0 = v)

section
variable {groups : List (BitVec 8)} {a : Nat} {seen : List (BitVec 8)}

theorem RecordedBefore.joins_iff_recorded (h : RecordedBefore groups a seen) :
    joins groups a = true ↔ ¬(neverCandidate (groups.getD a 0) || seen.contains (groups.getD a 0)) = true := by
  rw [joins_iff]
  cases hv : neverCandidate (groups.getD a 0) with
  | true => simp
  | false => simp only [Bool.false_or, List.contains_iff_mem, h _ hv, not_exists, not_and, true_and, ne_eq]

theorem RecordedBefore.skip (h : RecordedBefore groups a seen) (hskip : ¬joins groups a = true) :
    RecordedBefore groups (a + 1) seen := by
  intro v hv
  rw [h.joins_iff_recorded, not_not, Bool.or_eq_true, List.contains_iff_mem] at hskip
  rw [h v hv, Nat.exists_lt_succ_right, iff_self_or]
  rintro rfl
  exact (h _ hv).1 (hskip.resolve_left (Bool.eq_false_iff.1 hv))

theorem RecordedBefore.record (h : RecordedBefore groups a seen) :
    RecordedBefore groups (a + 1) (seen ++ [groups.getD a 0]) := by
  intro v hv
  rw [List.mem_append, h v hv, Nat.exists_lt_succ_right, List.mem_singleton, eq_comm (a := v)]

/-- The loop of R170 from group `a` on records the groups that join. -/
theorem sampleCandidates_range' (k : Params) (e : Engine) (period n : Nat) (h : RecordedBefore groups a seen) :
    sampleCandidates k e groups period seen (List.range' a n) =
      ((List.range' a n).filter (joins groups)).map (groupCandidate k e groups period) := by
  induction n generalizing a seen with
  | zero => rfl
  | succ n ih =>
    rw [List.range'_succ, sampleCandidates, List.filter_cons]
    by_cases hjoins : joins groups a = true
    · rw [if_neg (h.joins_iff_recorded.1 hjoins), if_pos hjoins, ih h.record, List.map_cons, groupCandidate]
    · rw [if_pos (not_not.1 (mt h.joins_iff_recorded.2 hjoins)), if_neg hjoins, ih (h.skip hjoins)]

end

/-- The model's candidates are those the spec lists, in insertion order (R164, R173). -/
theorem candidates_eq_listedCandidates (cfg : Knobs) (e : Engine) : candidates cfg e = listedCandidates cfg e := by
  have hnone : RecordedBefore (groupValues cfg e) 0 [] := fun v _ => by simp
  rw [listedCandidates_eq, candidateGroups_eq, candidates, List.range_eq_range',
    sampleCandidates_range' _ _ _ _ hnone]

/-! ### The default savings (R165, R166, R171) -/

theorem two_mul_sub_bdiNominal :
    ∀ m : Fin 8, 2 * (64 - bdiNominal[m]) = [96, 80, 48, 88, 56, 0, 60, 112].getD m.val 0 := by
  decide

theorem savingsFPCDefault_eq (s : Fin 3) (hits : Nat) : savingsFPCDefault s hits = hits * [7, 5, 3].getD s.val 0 := by
  fin_cases s <;> rfl

theorem savingsBDIDefault_eq (m : Fin 8) (hits : Nat) :
    savingsBDIDefault m hits = hits * [96, 80, 48, 88, 56, 0, 60, 112].getD m.val 0 := by
  rw [savingsBDIDefault, Nat.mul_assoc, two_mul_sub_bdiNominal]

theorem leastUnmarked_eq {samples : Vector Counter 128} {g : Fin 16} {v : BitVec 8} {m : Nat}
    (h : IsLeastUnmarked samples g v m) : leastUnmarked samples g.val v = m := by
  have hsample (j : Fin 8) : (samples.toList.getD (8 * g.val + j.val) 0).toNat = samples[8 * g.val + j.val].toNat := by
    rw [List.getD_eq_getElem _ _ (by simp; omega), Vector.getElem_toList]
  obtain ⟨⟨j, hj, rfl⟩, hleast⟩ := h
  rw [leastUnmarked, List.min?_eq_some_iff.2 ⟨?_, ?_⟩, Option.getD_some]
  · exact List.mem_map.2 ⟨j.val, List.mem_filter.2 ⟨List.mem_range.2 j.isLt, by rw [hj]; rfl⟩, hsample j⟩
  · intro n hn
    obtain ⟨i, hi, rfl⟩ := List.mem_map.1 hn
    obtain ⟨hi, hunmarked⟩ := List.mem_filter.1 hi
    rw [hsample ⟨i, List.mem_range.1 hi⟩]
    exact hleast ⟨i, List.mem_range.1 hi⟩ (by simpa using hunmarked)

theorem savingsSampleDefault_eq {samples : Vector Counter 128} {g : Fin 16} {v : BitVec 8} {m : Nat} (period : Nat)
    (h : IsLeastUnmarked samples g v m) : savingsSampleDefault samples g.val v period =
      (7 - (List.range 8).countP fun j => v.getLsbD j) * m * (16 / period) := by
  rw [savingsSampleDefault, leastUnmarked_eq h, popcount]

/-! ### The ranking (R173) -/

/-- Of the candidates that `f` numbers in insertion order, `i` ranks before `j`. -/
def Precedes (f : Nat → Candidate) (i j : Nat) : Prop :=
  (f j).savings < (f i).savings ∨ ((f i).savings = (f j).savings ∧ i < j)

/-- `idx` ranks the first `n` candidates. -/
structure Ranking (f : Nat → Candidate) (n : Nat) (idx : List Nat) : Prop where
  perm : idx.Perm (List.range n)
  ordered : idx.Pairwise (Precedes f)

/-- The latest candidate placed into ranked earlier ones keeps them ranked. -/
theorem insertRanked_map {f : Nat → Candidate} {n : Nat} {idx : List Nat} (hlt : ∀ i ∈ idx, i < n)
    (hidx : idx.Pairwise (Precedes f)) :
    ∃ idx' : List Nat, insertRanked (f n) (idx.map f) = idx'.map f ∧ idx'.Perm (n :: idx) ∧
      idx'.Pairwise (Precedes f) := by
  induction idx with
  | nil => exact ⟨[n], rfl, .refl _, List.pairwise_singleton ..⟩
  | cons i is ih =>
    obtain ⟨hi, his⟩ := List.pairwise_cons.1 hidx
    rw [List.map_cons, insertRanked]
    by_cases hless : (f i).savings < (f n).savings
    · refine ⟨n :: i :: is, by simp [hless], .refl _, List.pairwise_cons.2 ⟨fun j hj => .inl ?_, hidx⟩⟩
      rcases List.mem_cons.1 hj with rfl | hj
      · exact hless
      · rcases hi j hj with h | h <;> omega
    · obtain ⟨idx', hmap, hperm, hordered⟩ := ih (fun j hj => hlt j (List.mem_cons_of_mem _ hj)) his
      refine ⟨i :: idx', by simp [hless, hmap], (hperm.cons i).trans (.swap n i is),
        List.pairwise_cons.2 ⟨fun j hj => ?_, hordered⟩⟩
      rcases List.mem_cons.1 (hperm.subset hj) with rfl | hj
      · have := hlt i List.mem_cons_self
        unfold Precedes
        omega
      · exact hi j hj

theorem exists_ranking (f : Nat → Candidate) (n : Nat) :
    ∃ idx : List Nat, rank ((List.range n).map f) = idx.map f ∧ Ranking f n idx := by
  induction n with
  | zero => exact ⟨[], rfl, .refl _, .nil⟩
  | succ n ih =>
    obtain ⟨idx, hrank, hperm, hordered⟩ := ih
    obtain ⟨idx', hmap, hperm', hordered'⟩ :=
      insertRanked_map (fun i hi => List.mem_range.1 (hperm.subset hi)) hordered
    refine ⟨idx', ?_, ?_, hordered'⟩
    · rw [List.range_succ, List.map_append, rank, List.foldl_append, ← rank, hrank]
      exact hmap
    · exact hperm'.trans ((hperm.cons n).trans (List.range_succ ▸ (List.perm_append_singleton n _).symm))

/-! ### The kept four (R173) -/

/-- The candidates by number, with some candidate past their end. -/
def candidateAt (cs : List Candidate) (i : Nat) : Candidate := cs.getD i ⟨0, .fpc 0⟩

theorem map_candidateAt (cs : List Candidate) : (List.range cs.length).map (candidateAt cs) = cs := by
  refine List.ext_getElem (by simp) fun i _ hi => ?_
  simp [candidateAt, hi]

theorem ranksBefore_of_precedes {cs : List Candidate} {i j : Nat} (hi : i < cs.length) (hj : j < cs.length)
    (h : Precedes (candidateAt cs) i j) : RanksBefore cs i j :=
  ⟨hi, hj, by simpa [Precedes, candidateAt, hi, hj] using h⟩

theorem rank_take_four {cs : List Candidate} (hlength : 4 ≤ cs.length) :
    ∃ idx : List Nat, idx.length = 4 ∧ (rank cs).take 4 = idx.filterMap (fun i => cs[i]?) ∧
      idx.Pairwise (RanksBefore cs) ∧ ∀ j < cs.length, j ∉ idx → ∀ i ∈ idx, RanksBefore cs i j := by
  obtain ⟨order, hrank, hperm, hordered⟩ := exists_ranking (candidateAt cs) cs.length
  have hlt : ∀ i ∈ order, i < cs.length := fun i hi => List.mem_range.1 (hperm.subset hi)
  rw [map_candidateAt] at hrank
  have hranks : order.Pairwise (RanksBefore cs) :=
    hordered.imp_of_mem fun hi hj => ranksBefore_of_precedes (hlt _ hi) (hlt _ hj)
  refine ⟨order.take 4, ?_, ?_, hranks.sublist (List.take_sublist 4 order), fun j hj hmem i hi => ?_⟩
  · rw [List.length_take, hperm.length_eq, List.length_range]
    omega
  · rw [hrank, ← List.map_take, ← List.filterMap_eq_map]
    refine List.filterMap_congr fun i hi => ?_
    simp [candidateAt, hlt i (List.mem_of_mem_take hi)]
  · have hj : j ∈ order := hperm.mem_iff.2 (List.mem_range.2 hj)
    rw [← List.take_append_drop 4 order] at hranks hj
    exact (List.pairwise_append.1 hranks).2.2 i hi j ((List.mem_append.1 hj).resolve_left hmem)

theorem four_le_length_listedCandidates (cfg : Knobs) (e : Engine) : 4 ≤ (listedCandidates cfg e).length := by
  simp only [listedCandidates, List.length_append, List.length_map, List.length_finRange]
  omega

/-- Settles O56. -/
theorem keptFourRankBeforeTheRest : Obligations.KeptFourRankBeforeTheRest := by
  refine ⟨fun cfg e => ⟨groupValues_length cfg e, fun g hg j hj => ?_, ?_⟩,
    fun s m hits => ⟨savingsFPCDefault_eq s hits, savingsBDIDefault_eq m hits⟩,
    fun _ _ _ period _ h => savingsSampleDefault_eq period h⟩
  · rw [groupValues_getD cfg e hg, groupValue_getLsbD cfg e g hj]
  · obtain ⟨idx, hlength, htake, hordered, hrest⟩ := rank_take_four (four_le_length_listedCandidates cfg e)
    rw [← candidates_eq_listedCandidates] at htake hordered hrest ⊢
    exact ⟨idx, hlength, htake, (keptFour_spec cfg e).1, hordered, hrest⟩

/-! ### Extraction with no training (R255) -/

theorem insertRanked_of_le {c : Candidate} {cs : List Candidate} (h : ∀ d ∈ cs, c.savings ≤ d.savings) :
    insertRanked c cs = cs ++ [c] := by
  induction cs with
  | nil => rfl
  | cons d ds ih =>
    rw [insertRanked, if_neg (Nat.not_lt.2 (h d List.mem_cons_self)), ih fun x hx => h x (List.mem_cons_of_mem _ hx),
      List.cons_append]

/-- Candidates of equal savings rank in insertion order. -/
theorem rank_of_equal_savings {n : Nat} {cs : List Candidate} (h : ∀ c ∈ cs, c.savings = n) : rank cs = cs := by
  induction cs using List.reverseRecOn with
  | nil => rfl
  | append_singleton cs c ih =>
    have hc : c.savings = n := h c (by simp)
    have hcs : ∀ d ∈ cs, d.savings = n := fun d hd => h d (List.mem_append_left _ hd)
    rw [rank, List.foldl_append, ← rank, ih hcs]
    exact insertRanked_of_le fun d hd => (hc.trans (hcs d hd).symm).le

section
variable {cfg : Knobs} {e : Engine}

theorem not_marked_of_no_samples (hsamples : ∀ i : Fin 128, e.samples[i] = 0) (p : Fin 128) :
    marked cfg e p.val = false := by
  rw [← Bool.not_eq_true, marked_iff cfg (least := 0) (greatest := 0) (by simp [hsamples]) (by simp [hsamples])]
  simp [hsamples]

theorem groupValue_of_no_samples (hsamples : ∀ i : Fin 128, e.samples[i] = 0) {g : Nat} (hg : g < 16) :
    groupValue cfg e g = 0x00 :=
  BitVec.eq_of_getLsbD_eq fun j hj => by
    rw [groupValue_getLsbD cfg e g hj, not_marked_of_no_samples hsamples ⟨8 * g + j, by omega⟩,
      BitVec.ofNat_eq_ofNat, BitVec.getLsbD_zero]

/-- Without samples no group becomes a candidate, and the eleven slots are all there is to rank. -/
theorem candidates_of_no_samples (hsamples : ∀ i : Fin 128, e.samples[i] = 0) :
    candidates cfg e = structuralCandidates cfg.params e := by
  have hnone : ∀ g, joins (groupValues cfg e) g = false := by
    intro g
    have hzero : (groupValues cfg e).getD g 0 = 0x00 := by
      by_cases hg : g < 16
      · rw [groupValues_getD cfg e hg, groupValue_of_no_samples hsamples hg]
      · exact List.getD_eq_default _ _ (by simpa using hg)
    rw [← Bool.not_eq_true, joins_iff, hzero]
    simp [neverCandidate]
  rw [candidates_eq_listedCandidates, listedCandidates_eq, candidateGroups_eq,
    List.filter_eq_nil_iff.2 fun g _ => Bool.eq_false_iff.1 (hnone g), List.map_nil, List.append_nil]

/-- Without training the ranking is insertion order, which begins with these four. -/
theorem keptFour_of_untrained (hfpc : ∀ i : Fin 3, cfg.params.savingsFPC i 0 = 0)
    (hbdi : ∀ i : Fin 8, cfg.params.savingsBDI i 0 = 0) (hfpcHits : ∀ i : Fin 3, e.fpcHits[i] = 0)
    (hbdiHits : ∀ i : Fin 8, e.bdiHits[i] = 0) (hsamples : ∀ i : Fin 128, e.samples[i] = 0) :
    (keptFour cfg e).map Candidate.kind = [.fpc 0, .fpc 1, .fpc 2, .bdi 0] := by
  have hsavings : ∀ c ∈ structuralCandidates cfg.params e, c.savings = 0 := by
    intro c hc
    rcases List.mem_append.1 hc with hc | hc
    · obtain ⟨s, -, rfl⟩ := List.mem_map.1 hc
      simp [hfpcHits, hfpc]
    · obtain ⟨m, -, rfl⟩ := List.mem_map.1 hc
      simp [hbdiHits, hbdi]
  rw [keptFour, candidates_of_no_samples hsamples, rank_of_equal_savings hsavings]
  rfl

end

/-- Settles O57. -/
theorem untrainedExtractionKeepsTheFirstFour : Obligations.UntrainedExtractionKeepsTheFirstFour := by
  intro cfg e hfpc hbdi hfpcHits hbdiHits hsamples
  have hkept := keptFour_of_untrained hfpc hbdi hfpcHits hbdiHits hsamples
  refine ⟨?_, fun i => ?_, fun i => ?_⟩
  · refine List.eq_nil_of_length_eq_zero ?_
    rw [length_table_extractPattern, hkept]
    decide
  · rw [extractPattern_fpcEnable, hkept]
    revert i
    decide
  · rw [extractPattern_bdiEnable, hkept]
    revert i
    decide

end Sys2Proof.Proofs.PatternRanking
end

section
/-! What COMPRESS.DFPC does to the engine (R161 to R163, R174 to R176, R253, R254): it completes on every sound table,
the first steady write extracts, and of the record the learner sees the new payload's raw bytes alone. -/

namespace Sys2Proof.Proofs.LearnerCommand

open Sys2Proof.Machine Sys2Proof.Proofs.EngineInvariant Sys2Proof.Proofs.InvalidBytes
  Sys2Proof.Proofs.TrainingCodec

/-! ### The command in steady state (R206, R254) -/

/-- A sound table (R29) fits the packer. -/
theorem tableFits_of_tableOk {table : List PatternEntry} (h : TableOk table) : TableFits table := by
  refine ⟨h.short, fun t ht => ⟨(h.entries t ht).high, (h.entries t ht).count.trans ?_⟩⟩
  rw [List.countP_eq_length_filter, ← List.length_reverse, ← List.filter_reverse]
  rfl

theorem tableOk_extractOnce (cfg : Knobs) {e : Engine} (h : e.extracted = true → TableOk e.table) :
    TableOk (extractOnce cfg e).table := by
  rw [extractOnce]
  split
  next hx => exact h hx
  next => exact tableOk_extractPattern cfg e

/-- The next state of COMPRESS.DFPC on a ready engine in steady state. -/
def steadyNext (s : State) : State :=
  let e := extractOnce s.cfg s.engine
  { s with
    engine := e
    request := { new := applied s.request.new (dynamicPlanOf s.cfg e s.request.new)
                 old := applied s.request.old (dynamicPlanOf s.cfg e s.request.old) }
    result := some (.compress (dynamicPlanOf s.cfg e s.request.new).symbols.isSome) }

theorem exec_dfpc_of_steady {s : State} (hready : Ready s) (hsteady : inTraining s = false)
    (htable : s.engine.extracted = true → TableOk s.engine.table) :
    exec .compressDfpc s = .next (steadyNext s) := by
  obtain ⟨hfault, hrecord⟩ := hready
  have hfits := tableFits_of_tableOk (tableOk_extractOnce s.cfg htable)
  have hop : operationOf .compressDfpc s = dfpcSteady s := if_neg (Bool.eq_false_iff.1 hsteady)
  have hboth := compressBoth_of_ok (s := { s with engine := extractOnce s.cfg s.engine })
    (dynamicCompress_completes s.cfg hfits s.request.old) (dynamicCompress_completes s.cfg hfits s.request.new)
  exact exec_of_ready hfault hrecord (hop.trans hboth)

/-- On a ready engine whose table is sound if extracted COMPRESS.DFPC completes, and leaves the engine of its mode. -/
theorem exec_dfpc_engine {s : State} (hready : Ready s)
    (htable : s.engine.extracted = true → TableOk s.engine.table) :
    ∃ t, exec .compressDfpc s = .next t ∧ t.engine = dfpcEngine s := by
  rw [dfpcEngine]
  cases htraining : inTraining s with
  | true => exact ⟨trainingNext s, exec_dfpc_of_training hready htraining, rfl⟩
  | false => exact ⟨steadyNext s, exec_dfpc_of_steady hready htraining htable, rfl⟩

/-! ### The first steady write (R174, R175) -/

theorem dfpcEngine_of_first_steady {s : State} (hx : s.engine.extracted = false)
    (hwc : s.cfg.horizon.toNat ≤ s.wc.toNat) : dfpcEngine s = extractPattern s.cfg s.engine := by
  have hsteady : inTraining s = false := by simp [inTraining, BitVec.lt_def, hwc]
  simp [dfpcEngine, hsteady, extractOnce, hx]

/-- Settles O31. -/
theorem firstSteadyWriteExtracts : Obligations.FirstSteadyWriteExtracts := by
  intro s hready hx hwc
  obtain ⟨t, hexec, hengine⟩ := exec_dfpc_engine hready fun h => absurd h (by simp [hx])
  rw [dfpcEngine_of_first_steady hx hwc] at hengine
  refine ⟨t, hexec, ?_⟩
  rw [hengine]
  refine ⟨extractPattern_extracted .., extractPattern_table .., fun i => ?_, fun i => ?_, fun i => ?_, fun i => ?_,
    extractPattern_samples .., (extractPattern_fault ..).trans hready.1, extractPattern_faultCode ..⟩
  · rw [extractPattern_fpcEnable, List.contains_iff_mem, List.mem_map]
  · rw [extractPattern_bdiEnable, List.contains_iff_mem, List.mem_map]
  · simp
  · simp

/-! ### What the learner sees of the record (R161 to R163, R176) -/

theorem dfpcEngine_congr {s u : State} (hengine : s.engine = u.engine) (hcfg : s.cfg = u.cfg) (hwc : s.wc = u.wc)
    (hraw : s.request.new.rawBytes = u.request.new.rawBytes) : dfpcEngine s = dfpcEngine u := by
  have htraining : inTraining s = inTraining u := by rw [inTraining, hengine, hcfg, hwc, inTraining]
  rw [dfpcEngine, htraining, hengine, hcfg, trainedEngine_congr hraw, dfpcEngine]

/-- Settles O33: of the record the collectors read the new raw bytes, and extraction nothing. -/
theorem learnerSeesOnlyTheNewRawBytes : Obligations.LearnerSeesOnlyTheNewRawBytes := by
  intro s u hs hu hengine hcfg hwc hraw htable
  obtain ⟨s', hs', hsEngine⟩ := exec_dfpc_engine hs htable
  obtain ⟨u', hu', huEngine⟩ := exec_dfpc_engine hu (hengine ▸ htable)
  exact ⟨s', u', hs', hu', hsEngine.trans ((dfpcEngine_congr hengine hcfg hwc hraw).trans huEngine.symm)⟩

end Sys2Proof.Proofs.LearnerCommand
end

section
/-! The symbols of dynamic FPC (R201 to R203): which words an entry takes, which entry codes a word, and the nibbles of a
table symbol. -/

namespace Sys2Proof.Proofs.DynamicSymbols

open Sys2Proof.Machine Sys2Proof.Proofs.FpcLadder Sys2Proof.Proofs.LearnerCommand

/-! ### The words an entry takes (R201) -/

/-- A nibble of a word is a field of its bits. -/
theorem nib_toNat (u : Word32) (j : Nat) : nib u.toNat j = u.extractLsb' (4 * j) 4 := rfl

theorem eq_zero_iff_nib {u : Word32} : u = 0 ↔ ∀ j < 8, nib u.toNat j = 0 := by
  refine ⟨fun h j _ => by simp [h, nib], fun h => BitVec.eq_of_getLsbD_eq fun i hi => ?_⟩
  have hbit := congrArg (fun n : Nibble => n.getLsbD (i % 4)) (h (i / 4) (by omega))
  simpa [nib_toNat, Nat.mod_lt, Nat.div_add_mod] using hbit

theorem nib_and_not (u mask : Word32) {j : Nat} (hj : j < 8) :
    nib (u &&& ~~~mask).toNat j = nib u.toNat j &&& ~~~nib mask.toNat j := by
  refine BitVec.eq_of_getLsbD_eq fun i hi => ?_
  rw [nib_toNat, nib_toNat, nib_toNat]
  simp [hi, show 4 * j + i < 32 by omega]

/-- On an unmarked position the mask keeps the word's nibble, on a marked one it clears it. -/
theorem masked_nibble_eq_zero_iff {x m : Nibble} (hm : m = 0x0 ∨ m = 0xF) :
    x &&& ~~~m = 0 ↔ (m = 0x0 → x = 0x0) := by
  rcases hm with rfl | rfl
  · rw [show ~~~(0x0 : Nibble) = BitVec.allOnes 4 from rfl, BitVec.and_allOnes]
    simp
  · simp

theorem takes_iff {t : PatternEntry} (ht : EntryOk t) (u : Word32) :
    t.takes u = true ↔ ∀ j < 8, nib t.dcMask.toNat j = 0x0 → nib u.toNat j = 0x0 := by
  rw [PatternEntry.takes, beq_iff_eq, eq_zero_iff_nib]
  refine forall₂_congr fun j hj => ?_
  rw [nib_and_not u t.dcMask hj, masked_nibble_eq_zero_iff (ht.nibbles j hj)]

/-! ### The symbol of a word (R201, R203) -/

section
variable {table : List PatternEntry} {u : Word32}

theorem firstMatch_of_first {i : Nat} (h : i < table.length) (htakes : table[i].takes u = true)
    (hfirst : ∀ j (hj : j < i), table[j].takes u = false) : firstMatch u 0 table = some (i, table[i]) := by
  match hmatch : firstMatch u 0 table with
  | none => exact absurd (firstMatch_none.1 hmatch _ (List.getElem_mem h)) (by simp [htakes])
  | some (n, t) =>
    obtain ⟨j, hj, rfl, rfl, hjtakes, hjfirst⟩ := firstMatch_spec hmatch
    rcases lt_trichotomy j i with hlt | rfl | hgt
    · exact absurd (hfirst j hlt) (by simp [hjtakes])
    · simp
    · exact absurd (hjfirst i hgt) (by simp [htakes])

theorem dynamicSymbol_of_first (k : Params) (hu : u ≠ 0) {i : Nat} (h : i < table.length)
    (htakes : table[i].takes u = true) (hfirst : ∀ j (hj : j < i), table[j].takes u = false) :
    dynamicSymbol k table u = tableSymbol i table[i] u := by
  rw [dynamicSymbol, if_neg hu, firstMatch_of_first h htakes hfirst]

theorem dynamicSymbol_of_not_coded (k : Params) (h : u = 0 ∨ ∀ t ∈ table, t.takes u = false) :
    dynamicSymbol k table u = ladderSymbol k u := by
  rw [dynamicSymbol]
  split
  · rfl
  · next hu => rw [firstMatch_none.2 (h.resolve_left hu)]

end

/-- Settles O59. -/
theorem firstMatchingEntryCodesTheWord : Obligations.FirstMatchingEntryCodesTheWord :=
  ⟨fun _ u ht => takes_iff ht u, fun k _ _ _ h hu => dynamicSymbol_of_first k hu h,
    fun k _ _ => dynamicSymbol_of_not_coded k⟩

/-! ### The nibbles of a table symbol (R202) -/

/-- The number that nibbles spell, the first the most significant. -/
def spelled (ns : List Nibble) : Nat := ns.foldl (fun acc n => acc * 16 + n.toNat) 0

theorem symbolNibbles_spelled (ns : List Nibble) : symbolNibbles ⟨spelled ns, ns.length⟩ = ns := by
  induction ns using List.reverseRecOn with
  | nil => rfl
  | append_singleton ns n ih =>
    have hvalue : spelled (ns ++ [n]) = 16 ^ 1 * spelled ns + n.toNat := by
      rw [spelled, List.foldl_concat, ← spelled, Nat.mul_comm, pow_one]
    have hlast : symbolNibbles ⟨n.toNat, 1⟩ = [n] := by simp [symbolNibbles, nib]
    rw [hvalue, List.length_append, List.length_singleton, symbolNibbles_append _ n.isLt, ih, hlast]

/-- The nibbles of a word at the marked positions of a mask, from the most significant down. -/
def markedNibbles (u mask : Word32) : List Nibble :=
  ([7, 6, 5, 4, 3, 2, 1, 0].filter fun j => nib mask.toNat j == 0xF).map fun j => nib u.toNat j

theorem compact_eq_spelled (u mask : Word32) : compact u mask = spelled (markedNibbles u mask) := by
  rw [spelled, markedNibbles, List.foldl_map, List.foldl_filter]
  simp only [beq_iff_eq]
  rfl

/-- What a table of this one entry needs to fit the packer. -/
theorem count_eq_length_filter {t : PatternEntry} (ht : EntryOk t) :
    t.count = ([7, 6, 5, 4, 3, 2, 1, 0].filter fun j => decide (nib t.dcMask.toNat j = 0xF)).length := by
  have htable : TableOk [t] := ⟨by simp, List.forall_mem_singleton.2 ht⟩
  exact ((tableFits_of_tableOk htable).entries t (List.mem_singleton_self t)).2

theorem count_eq_length_markedNibbles {t : PatternEntry} (ht : EntryOk t) (u : Word32) :
    t.count = (markedNibbles u t.dcMask).length :=
  (count_eq_length_filter ht).trans (List.length_map _).symm

theorem symbolNibbles_tableSymbol {t : PatternEntry} (ht : EntryOk t) (i : Nat) (u : Word32) :
    symbolNibbles (tableSymbol i t u) = BitVec.ofNat 4 (8 + i) :: markedNibbles u t.dcMask := by
  have hcount := count_eq_length_filter ht
  have hlow : compact u t.dcMask < 16 ^ t.count := hcount ▸ compact_lt u t.dcMask
  have hsymbol : tableSymbol i t u = ⟨16 ^ t.count * (8 + i) + compact u t.dcMask, 1 + t.count⟩ := by
    rw [Nat.mul_comm, ← tableSymbol_value u hcount]
    rfl
  rw [hsymbol, symbolNibbles_append 1 hlow, compact_eq_spelled, count_eq_length_markedNibbles ht u,
    symbolNibbles_spelled]
  rfl

/-- Settles O60. -/
theorem tableSymbolIsIndexThenMarkedNibbles : Obligations.TableSymbolIsIndexThenMarkedNibbles := fun i _ u hi ht =>
  ⟨rfl, (tableSymbol_narrow u hi ht.high (count_eq_length_filter ht)).2, symbolNibbles_tableSymbol ht i u⟩

end Sys2Proof.Proofs.DynamicSymbols
end

section
/-! COMPRESS.DFPC in steady state (R200, R204 to R206, R254): what a payload becomes by the smaller dynamic plan, and the
command. -/

namespace Sys2Proof.Proofs.SteadyCodec

open Sys2Proof.Machine Sys2Proof.Proofs.TrainingCounts Sys2Proof.Proofs.BufferInvariant
  Sys2Proof.Proofs.InvalidBytes Sys2Proof.Proofs.WordPacker Sys2Proof.Proofs.Classifiers Sys2Proof.Proofs.BdiCodec
  Sys2Proof.Proofs.TrainingCodec Sys2Proof.Proofs.LearnerCommand

/-! ### The zero block (R200) -/

/-- Every 4-byte word of the block is 0. -/
def zeroBlock (p : Payload) : Bool := (List.range 16).all fun i => rawWord32 p i == 0

theorem allZero_blockWordBits (p : Payload) : allZero ((blockWordBits p).map BitVec.toNat) = zeroBlock p := by
  have hword : ∀ u : Word32, (u.toNat == 0) = (u == 0) := fun u => by
    rw [Bool.eq_iff_iff, beq_iff_eq, beq_iff_eq, ← BitVec.toNat_inj]
    rfl
  simp only [allZero, blockWordBits_eq, List.map_map, List.all_map, zeroBlock, Function.comp_def, hword]

theorem map_toNat_blockWordBits (p : Payload) : (blockWordBits p).map BitVec.toNat = rawWords p 4 := by
  rw [blockWordBits, List.map_map, blockWords_eq_rawWords]
  refine (List.map_congr_left fun x hx => ?_).trans (List.map_id _)
  exact Nat.mod_eq_of_lt (blockWords_lt (blockWords_eq_rawWords p 4 ▸ hx))

/-- An 8-byte word is zero exactly if both its halves are (R110), so both codecs see the same zero blocks. -/
theorem allZero_blockWords_eight (p : Payload) : allZero (blockWords p 8) = zeroBlock p := by
  rw [← allZero_blockWordBits, map_toNat_blockWordBits, blockWords_eq_rawWords]
  exact (allZero_rawWords_double (w := 4) rfl).symm

/-! ### The plan of a payload (R204 to R206) -/

theorem planOfSymbols_of_lt {ys : List Symbol} (h : ((ys.map Symbol.nibbles).sum + 1) / 2 < 64) :
    planOfSymbols ys = ⟨((ys.map Symbol.nibbles).sum + 1) / 2, some ys⟩ := if_pos h

theorem planOfSymbols_of_ge {ys : List Symbol} (h : 64 ≤ ((ys.map Symbol.nibbles).sum + 1) / 2) :
    planOfSymbols ys = Plan.rejected 64 := if_neg (Nat.not_lt.2 h)

/-- The size a plan of symbols reports, accepted or not (R204). -/
theorem size_planOfSymbols (ys : List Symbol) :
    (planOfSymbols ys).size = min 64 (((ys.map Symbol.nibbles).sum + 1) / 2) := by
  rcases lt_or_ge (((ys.map Symbol.nibbles).sum + 1) / 2) 64 with hlt | hge
  · rw [planOfSymbols_of_lt hlt, min_eq_right hlt.le]
  · rw [planOfSymbols_of_ge hge, min_eq_left hge, Plan.rejected]

/-- A plan of symbols is accepted exactly below 64 bytes (R204). -/
theorem symbols_planOfSymbols (ys : List Symbol) :
    (planOfSymbols ys).symbols = if (planOfSymbols ys).size < 64 then some ys else none := by
  rcases lt_or_ge (((ys.map Symbol.nibbles).sum + 1) / 2) 64 with hlt | hge
  · rw [planOfSymbols_of_lt hlt, if_pos hlt]
  · rw [planOfSymbols_of_ge hge, Plan.rejected, if_neg (lt_irrefl 64)]

section
variable (cfg : Knobs) (table : List PatternEntry) (enabled : Vector Bool 8) (e : Engine) {p : Payload}

theorem dynFpcPlanOf_eq : dynFpcPlanOf cfg table p =
    if zeroBlock p then zeroBlockPlan else planOfSymbols (dynamicSymbols cfg.params table p) := by
  have hsymbols : (blockWordBits p).map (dynamicSymbol cfg.params table) = dynamicSymbols cfg.params table p := by
    rw [blockWordBits_eq, List.map_map]
    rfl
  rw [dynFpcPlanOf, allZero_blockWordBits, hsymbols]

theorem dynBdiPlanOf_eq : dynBdiPlanOf cfg enabled p =
    if zeroBlock p then zeroBlockPlan else bdiPlanOf cfg p enabled := by
  rw [dynBdiPlanOf, allZero_blockWords_eight]

theorem dynamicPlanOf_of_zeroBlock (hzero : zeroBlock p = true) : dynamicPlanOf cfg e p = zeroBlockPlan := by
  rw [dynamicPlanOf, dynFpcPlanOf_eq, dynBdiPlanOf_eq, if_pos hzero, if_pos hzero, smallerPlan, if_pos le_rfl]

theorem dynamicPlanOf_of_not_zeroBlock (hzero : ¬zeroBlock p = true) : dynamicPlanOf cfg e p =
    if dynamicSize cfg.params e.table p ≤ bdiBest cfg.params p e.bdiEnable then
      planOfSymbols (dynamicSymbols cfg.params e.table p)
    else bdiPlanOf cfg p e.bdiEnable := by
  rw [dynamicPlanOf, dynFpcPlanOf_eq, dynBdiPlanOf_eq, if_neg hzero, if_neg hzero, smallerPlan, size_planOfSymbols,
    size_bdiPlanOf, dynamicSize]

/-! ### What a payload becomes -/

theorem packed_applied {plan : Plan} {ys : List Symbol} (hp : Memory.wf p.compressedBytes = true) (hfits : plan.Fits)
    (hys : plan.symbols = some ys) : Packed p (applied p plan) (nibbleStream ys) := by
  rw [applied, hys]
  exact packed_packedPayload hp (hfits ys hys)

theorem planOfSymbols_applied {ys : List Symbol} (hp : Memory.wf p.compressedBytes = true)
    (hfits : (planOfSymbols ys).Fits) : if (planOfSymbols ys).size < 64
      then Packed p (applied p (planOfSymbols ys)) (nibbleStream ys) else Rejected p (applied p (planOfSymbols ys)) := by
  have hsymbols := symbols_planOfSymbols ys
  split
  · next hlt => exact packed_applied hp hfits (by rw [hsymbols, if_pos hlt])
  · next hge =>
    rw [applied, hsymbols, if_neg hge]
    exact rfl

theorem dynamicCoded_applied (htable : TableFits e.table) (hp : Memory.wf p.compressedBytes = true) :
    DynamicCoded cfg.params e p (applied p (dynamicPlanOf cfg e p)) := by
  have hfits := dynamicPlanOf_fits cfg htable p
  rw [DynamicCoded, ← zeroBlock]
  by_cases hzero : zeroBlock p = true
  · rw [dynamicPlanOf_of_zeroBlock cfg e hzero] at hfits ⊢
    rw [if_pos hzero]
    exact packed_applied hp hfits rfl
  · rw [dynamicPlanOf_of_not_zeroBlock cfg e hzero] at hfits ⊢
    rw [if_neg hzero]
    split
    · next hle =>
      rw [if_pos hle] at hfits
      rw [dynamicSize, ← size_planOfSymbols]
      exact planOfSymbols_applied hp hfits
    · exact bdiCoded_applied hp

end

/-! ### The command (R253, R254) -/

/-- Settles O30: on a sound table the dynamic codecs complete on both payloads, so the command does. -/
theorem dfpcSteadyCodesBothPayloads : Obligations.DfpcSteadyCodesBothPayloads := by
  intro s hready hcanonical hmode htable
  obtain ⟨hnew, hold⟩ := (canonical_iff s).1 hcanonical
  have hsteady : inTraining s = false := by
    rcases hmode with hx | hwc
    · simp [inTraining, hx]
    · simp [inTraining, BitVec.lt_def, hwc]
  have hfits := tableFits_of_tableOk (tableOk_extractOnce s.cfg htable)
  exact ⟨steadyNext s, exec_dfpc_of_steady hready hsteady htable,
    dynamicCoded_applied s.cfg _ hfits (compressedBytes_wf hold),
    dynamicCoded_applied s.cfg _ hfits (compressedBytes_wf hnew),
    congrArg (fun shrunk => some (Result.compress shrunk)) (isSome_eq_isCompressed_applied _ _),
    fun hx => if_pos hx, rfl⟩

end Sys2Proof.Proofs.SteadyCodec
end

section
/-! ENCODE (R228 to R233): the ternary map cell by cell, the bits of packed bytes, what a remapped payload holds, and
the command. -/

namespace Sys2Proof.Proofs.TernaryEncoder

open Sys2Proof.Machine Sys2Proof.Proofs.BufferInvariant Sys2Proof.Proofs.InvalidBytes Sys2Proof.Proofs.WordPacker

/-! ### The ternary map (R232) -/

theorem ternaryCode_eq (a b : Bool) : ternaryCode a b = [a, a, b] := by
  cases a <;> cases b <;> rfl

theorem ternaryBits_cons_cons (a b : Bool) (rest : List Bool) :
    ternaryBits (a :: b :: rest) = a :: a :: b :: ternaryBits rest := by
  rw [ternaryBits, ternaryCode_eq]
  rfl

theorem ternaryBits_getD_cell {bits : List Bool} {i : Nat} (hi : i < bits.length / 2) :
    (ternaryBits bits).getD (3 * i) false = bits.getD (2 * i) false ∧
    (ternaryBits bits).getD (3 * i + 1) false = bits.getD (2 * i) false ∧
    (ternaryBits bits).getD (3 * i + 2) false = bits.getD (2 * i + 1) false := by
  induction bits using ternaryBits.induct generalizing i with
  | case1 a b rest ih =>
    rw [ternaryBits_cons_cons]
    cases i with
    | zero => exact ⟨rfl, rfl, rfl⟩
    | succ i =>
      have hrest : i < rest.length / 2 := by
        simp only [List.length_cons] at hi
        omega
      exact ih hrest
  | case2 bits hshort =>
    match bits, hshort with
    | [], _ => simp at hi
    | [_], _ => simp at hi
    | a :: b :: rest, hshort => exact absurd rfl (hshort a b rest)

/-- Settles O39. -/
theorem ternaryMapDoublesTheFirstBit : Obligations.TernaryMapDoublesTheFirstBit :=
  fun bits => ⟨ternaryBits_length bits, fun _ hi => ternaryBits_getD_cell hi⟩

/-! ### When it applies (R230) -/

theorem ternaryEncode_of_remappable {p : Payload} (h : Remappable p) : ternaryEncode p = .ok (remapped p, true) := by
  rw [ternaryEncode_eq, if_pos h]

theorem ternaryEncode_of_not_remappable {p : Payload} (h : ¬Remappable p) : ternaryEncode p = .ok (p, false) := by
  rw [ternaryEncode_eq, if_neg h]

/-- Settles O38. -/
theorem ternaryEncoderAppliesUpToFortyEightBytes : Obligations.TernaryEncoderAppliesUpToFortyEightBytes := by
  refine fun p => ⟨fun h => ⟨_, ternaryEncode_of_remappable h⟩, fun h => ternaryEncode_of_not_remappable ?_⟩
  rintro ⟨hcompressed, hlength⟩
  rcases h with hraw | hlong
  · simp [hcompressed] at hraw
  · exact absurd hlength (Nat.not_le.2 hlong)

/-! ### Bits and bytes (R56) -/

theorem getLsbD_shiftIn_succ (acc : Byte) (x : Bool) {j : Nat} (hj : j + 1 < 8) :
    ((acc <<< 1) ||| (BitVec.ofBool x).zeroExtend 8).getLsbD (j + 1) = acc.getLsbD j := by
  have hlow : j < 8 := by omega
  simp [hj, hlow]

/-- Shifting bits in at the bottom leaves the last of them at bit 0. -/
theorem getLsbD_foldl_shiftIn (bit : Nat → Bool) (n : Nat) {j : Nat} (hj : j < 8) :
    ((List.range n).foldl (fun (acc : Byte) k => (acc <<< 1) ||| (BitVec.ofBool (bit k)).zeroExtend 8)
      0#8).getLsbD j =
        (decide (j < n) && bit (n - 1 - j)) := by
  induction n generalizing j with
  | zero => simp
  | succ n ih =>
    rw [List.range_succ, List.foldl_append, List.foldl_cons, List.foldl_nil]
    cases j with
    | zero => simp
    | succ j =>
      have hindex : n + 1 - 1 - (j + 1) = n - 1 - j := by omega
      rw [getLsbD_shiftIn_succ _ _ hj, ih (by omega), hindex]
      simp only [Nat.add_lt_add_iff_right]

theorem getLsbD_byteOfBits (bits : List Bool) (i : Nat) {k : Nat} (hk : k < 8) :
    (byteOfBits bits i).getLsbD (7 - k) = bits.getD (i + k) false := by
  have hlow : 7 - k < 8 := by omega
  have hindex : 8 - 1 - (7 - k) = k := by omega
  rw [byteOfBits, getLsbD_foldl_shiftIn (fun k => bits.getD (i + k) false) 8 hlow, hindex, decide_eq_true hlow,
    Bool.true_and]

theorem byteBits_getD (v : Byte) {k : Nat} (hk : k < 8) : (byteBits v).getD k false = v.getLsbD (7 - k) := by
  interval_cases k <;> rfl

theorem flatMap_byteBits_getD (bs : List Byte) (b : Nat) :
    (bs.flatMap byteBits).getD b false = (bs.getD (b / 8) 0).getLsbD (7 - b % 8) := by
  induction bs generalizing b with
  | nil => simp
  | cons v bs ih =>
    have hlength : (byteBits v).length = 8 := rfl
    rw [List.flatMap_cons]
    rcases lt_or_ge b 8 with hlt | hge
    · rw [List.getD_append _ _ _ _ (hlength ▸ hlt), byteBits_getD v hlt, Nat.div_eq_of_lt hlt, Nat.mod_eq_of_lt hlt,
        List.getD_cons_zero]
    · rw [List.getD_append_right _ _ _ _ (hlength ▸ hge), hlength, ih, Nat.div_eq_sub_div (by omega) hge,
        Nat.mod_eq_sub_mod hge, List.getD_cons_succ]

theorem packBits_getD (bits : List Bool) {j : Nat} (hj : j < (packBits bits).length) :
    (packBits bits).getD j 0 = byteOfBits bits (8 * j) := by
  rw [List.getD_eq_getElem _ _ hj]
  simp [packBits]

/-! ### What a remapped payload holds (R231 to R233) -/

/-- Whole bytes, or a last one with half its bits unused, make a whole number of cells (R231). -/
theorem ternaryInBits_even (p : Payload) : ternaryInBits p % 2 = 0 := by
  rw [ternaryInBits]
  split <;> omega

theorem ternaryInput_getD {p : Payload} {b : Nat} (hb : b < ternaryInBits p) :
    (ternaryInput p).getD b false = storedBit p b := by
  have hbyte : b / 8 < p.compressedLength.toNat := by
    have : ternaryInBits p ≤ 8 * p.compressedLength.toNat := Nat.sub_le _ _
    omega
  rw [ternaryInput, List.getD_eq_getElem?_getD, List.getElem?_take_of_lt hb, ← List.getD_eq_getElem?_getD,
    flatMap_byteBits_getD, readBytes_getD _ _ hbyte, Nat.zero_add, storedBit]

theorem ternaryOutput_length_eq (p : Payload) : (ternaryOutput p).length = (3 * ternaryInBits p + 15) / 16 := by
  have := ternaryInBits_even p
  rw [ternaryOutput_length]
  omega

section
variable {p : Payload}

theorem remapped_length (h : Remappable p) :
    (remapped p).compressedLength.toNat = (ternaryOutput p).length := by
  have := ternaryOutput_fits h.2
  simp only [remapped, BitVec.toNat_ofNat]
  omega

/-- The bytes of a remapped payload hold the bits of the map, and 0 past them. -/
theorem storedBit_remapped (hp : Memory.wf p.compressedBytes = true) {b : Nat}
    (hb : b < 8 * (ternaryOutput p).length) :
    storedBit (remapped p) b = (ternaryBits (ternaryInput p)).getD b false := by
  have hbyte : b / 8 < (ternaryOutput p).length := by omega
  have hread : Memory.read (remapped p).compressedBytes (b / 8) =
      byteOfBits (ternaryBits (ternaryInput p)) (8 * (b / 8)) := by
    rw [remapped, read_writeBytes hp, if_pos (by omega), Nat.sub_zero]
    exact packBits_getD _ hbyte
  rw [storedBit, hread, getLsbD_byteOfBits _ _ (Nat.mod_lt b (by decide)), Nat.div_add_mod]

theorem remapped_cell (hp : Memory.wf p.compressedBytes = true) {i : Nat} (hi : i < ternaryInBits p / 2) :
    storedBit (remapped p) (3 * i) = storedBit p (2 * i) ∧
    storedBit (remapped p) (3 * i + 1) = storedBit p (2 * i) ∧
    storedBit (remapped p) (3 * i + 2) = storedBit p (2 * i + 1) := by
  have hlength := ternaryOutput_length_eq p
  have hcell : i < (ternaryInput p).length / 2 := by rwa [ternaryInput_length]
  rw [storedBit_remapped hp (by omega), storedBit_remapped hp (by omega), storedBit_remapped hp (by omega),
    ← ternaryInput_getD (b := 2 * i) (by omega), ← ternaryInput_getD (b := 2 * i + 1) (by omega)]
  exact ternaryBits_getD_cell hcell

theorem remapped_pad (hp : Memory.wf p.compressedBytes = true) {b : Nat} (hlow : 3 * ternaryInBits p / 2 ≤ b)
    (hhigh : b < 8 * (ternaryOutput p).length) : storedBit (remapped p) b = false := by
  have := ternaryInBits_even p
  rw [storedBit_remapped hp hhigh, List.getD_eq_default]
  rw [ternaryBits_length, ternaryInput_length]
  omega

theorem remapped_remapped (hp : Memory.wf p.compressedBytes = true) (h : Remappable p) :
    Remapped p (remapped p) where
  rawLen := rfl
  rawBytes := rfl
  isCompressed := rfl
  half := rfl
  length := (remapped_length h).trans (ternaryOutput_length_eq p)
  code _ hi := remapped_cell hp hi
  pad _ hlow hhigh := remapped_pad hp hlow (remapped_length h ▸ hhigh)
  rest a ha := by
    rw [remapped_length h] at ha
    rw [remapped, read_writeBytes hp, if_neg (by omega)]

end

/-! ### The command (R228) -/

/-- What ENCODE leaves of a payload. -/
def encodedPayload (p : Payload) : Payload := if Remappable p then remapped p else p

/-- RESULT says which payloads were remapped, the new one in its upper bit. -/
theorem encodeResult_decide (newDone oldDone : Prop) [Decidable newDone] [Decidable oldDone] :
    encodeResult (decide newDone) (decide oldDone) =
      BitVec.ofNat 2 (2 * (if newDone then 1 else 0) + (if oldDone then 1 else 0)) := by
  have hbits : ∀ n o : Bool, encodeResult n o = BitVec.ofNat 2 (2 * cond n 1 0 + cond o 1 0) := by decide
  rw [hbits, Bool.cond_decide, Bool.cond_decide]

theorem ternaryEncode_eq_encodedPayload (p : Payload) :
    ternaryEncode p = .ok (encodedPayload p, decide (Remappable p)) := by
  by_cases h : Remappable p
  · rw [ternaryEncode_of_remappable h, encodedPayload, if_pos h, decide_eq_true h]
  · rw [ternaryEncode_of_not_remappable h, encodedPayload, if_neg h, decide_eq_false h]

theorem exec_encode {s : State} (hready : Ready s) : exec .encode s = .next { s with
    request := ⟨encodedPayload s.request.new, encodedPayload s.request.old⟩
    result := some (.encode
      (encodeResult (decide (Remappable s.request.new)) (decide (Remappable s.request.old)))) } := by
  refine exec_of_ready hready.1 hready.2 ?_
  simp only [operationOf, ternaryEncode_eq_encodedPayload, bind, Except.bind, pure, Except.pure]

theorem remapped_encodedPayload {p : Payload} (hp : p.buffersWf = true) :
    (Remappable p → Remapped p (encodedPayload p)) ∧ (¬Remappable p → encodedPayload p = p) := by
  refine ⟨fun h => ?_, fun h => if_neg h⟩
  rw [encodedPayload, if_pos h]
  exact remapped_remapped (compressedBytes_wf hp) h

/-- Settles O37. -/
theorem encodeRemapsCompressedPayloads : Obligations.EncodeRemapsCompressedPayloads := by
  intro s hready hcanonical
  obtain ⟨hnew, hold⟩ := (canonical_iff s).1 hcanonical
  obtain ⟨newRemapped, newKept⟩ := remapped_encodedPayload hnew
  obtain ⟨oldRemapped, oldKept⟩ := remapped_encodedPayload hold
  exact ⟨_, exec_encode hready, newRemapped, newKept, oldRemapped, oldKept,
    congrArg (fun done => some (Result.encode done)) (encodeResult_decide _ _), rfl⟩

end Sys2Proof.Proofs.TernaryEncoder
end

section
/-! COUNT (R220 to R227): the stream of a payload by its bytes, the cost of two streams index by index, when it is 0,
and the six commands. -/

namespace Sys2Proof.Proofs.WriteCost

open Sys2Proof.Machine

/-! ### The stream of a payload (R222) -/

theorem streamBytes_length (p : Payload) : (streamBytes p).length = streamLength p := by
  rw [streamBytes, streamLength]
  split <;> rw [readBytes_length]

theorem readBytes_getElem? (m : Memory) (n i : Nat) :
    (Memory.readBytes m 0 n)[i]? = if i < n then some (Memory.read m i) else none := by
  split
  · next hi => rw [List.getElem?_eq_getElem (by simpa using hi), readBytes_getElem, Nat.zero_add]
  · next hi => rw [List.getElem?_eq_none (by simpa using hi)]

theorem streamBytes_getElem? (p : Payload) (i : Nat) : (streamBytes p)[i]? = streamByte p i := by
  rw [streamBytes, streamByte]
  split <;> rw [readBytes_getElem?]

theorem streamByte_of_length_le {p : Payload} {i : Nat} (h : streamLength p ≤ i) : streamByte p i = none := by
  rw [← streamBytes_getElem?, List.getElem?_eq_none (streamBytes_length p ▸ h)]

/-! ### The cost of a byte (R224, R225) -/

theorem cellCost_eq_changedBits (a b : Byte) (hi lo : Nat) : cellCost a b (hi, lo) = changedBits a b hi lo := by
  simp only [cellCost, changedBits, ne_eq, ite_not]

/-- The model lists a byte's cells from the most significant, the statement from the least. -/
theorem byteCost_eq_cellsCost (levels : CellLevels) (a b : Byte) : byteCost levels a b = cellsCost levels a b := by
  cases levels with
  | one =>
    have hcells : cells .one = ((List.range 8).map fun i => (i, i)).reverse := rfl
    rw [byteCost, hcells, List.map_reverse, List.sum_reverse, List.map_map]
    simp only [cellsCost, Function.comp_def, cellCost_eq_changedBits]
  | two =>
    have hcells : cells .two = ((List.range 4).map fun i => (2 * i + 1, 2 * i)).reverse := rfl
    rw [byteCost, hcells, List.map_reverse, List.sum_reverse, List.map_map]
    simp only [cellsCost, Function.comp_def, cellCost_eq_changedBits]
  | three => simp [byteCost, cells, cellsCost, cellCost_eq_changedBits, Nat.add_assoc]

@[simp] theorem changedBits_self (a : Byte) (hi lo : Nat) : changedBits a a hi lo = 0 := if_pos rfl

theorem changedBits_eq_zero_iff (a b : Byte) (hi lo : Nat) :
    changedBits a b hi lo = 0 ↔ a.extractLsb hi lo = b.extractLsb hi lo := by
  rw [changedBits]
  split <;> simp [*]

theorem getLsbD_eq_of_changedBits {a b : Byte} {hi lo j : Nat} (h : changedBits a b hi lo = 0) (hlo : lo ≤ j)
    (hhi : j ≤ hi) : a.getLsbD j = b.getLsbD j := by
  have hbit := congrArg (BitVec.getLsbD · (j - lo)) ((changedBits_eq_zero_iff a b hi lo).1 h)
  have hinside : j - lo < hi - lo + 1 := by omega
  simpa [BitVec.getLsbD_extract, hinside, Nat.add_sub_cancel' hlo, Nat.sub_le_sub_right hhi] using hbit

theorem cellsCost_self (levels : CellLevels) (a : Byte) : cellsCost levels a a = 0 := by
  cases levels <;> simp [cellsCost]

/-- Every bit of a byte lies in some cell, so a byte with no changed cell has no changed bit. -/
theorem getLsbD_eq_of_cellsCost {levels : CellLevels} {a b : Byte} (h : cellsCost levels a b = 0) {j : Nat}
    (hj : j < 8) : a.getLsbD j = b.getLsbD j := by
  cases levels with
  | one =>
    have hcell := List.sum_eq_zero_iff.1 h _ (List.mem_map_of_mem (List.mem_range.2 hj))
    exact getLsbD_eq_of_changedBits hcell le_rfl le_rfl
  | two =>
    have hcell := List.sum_eq_zero_iff.1 h _ (List.mem_map_of_mem (List.mem_range.2 (show j / 2 < 4 by omega)))
    exact getLsbD_eq_of_changedBits hcell (by omega) (by omega)
  | three =>
    obtain ⟨⟨htop, hmiddle⟩, hbottom⟩ : (changedBits a b 7 5 = 0 ∧ changedBits a b 4 2 = 0) ∧
        changedBits a b 1 0 = 0 := by
      simpa only [cellsCost, Nat.add_eq_zero_iff] using h
    rcases (by omega : j ≤ 1 ∨ (2 ≤ j ∧ j ≤ 4) ∨ 5 ≤ j) with hlow | ⟨hlo, hhi⟩ | hhigh
    · exact getLsbD_eq_of_changedBits hbottom (by omega) hlow
    · exact getLsbD_eq_of_changedBits hmiddle hlo hhi
    · exact getLsbD_eq_of_changedBits htop hhigh (by omega)

theorem cellsCost_eq_zero_iff {levels : CellLevels} {a b : Byte} : cellsCost levels a b = 0 ↔ a = b :=
  ⟨fun h => BitVec.eq_of_getLsbD_eq fun _ hj => getLsbD_eq_of_cellsCost h hj,
    fun h => h ▸ cellsCost_self levels a⟩

/-! ### The cost of two streams, index by index (R221, R226) -/

/-- The cost of one index: the bytes that the two streams have there, if any. -/
def optionCost (levels : CellLevels) : Option Byte → Option Byte → Nat
  | some a, some b => cellsCost levels a b
  | none, none => 0
  | _, _ => 8

theorem indexCost_eq_optionCost (levels : CellLevels) (p q : Payload) (i : Nat) :
    indexCost levels p q i = optionCost levels (streamByte p i) (streamByte q i) := by
  rw [indexCost]
  cases streamByte p i <;> cases streamByte q i <;> rfl

theorem optionCost_eq_zero_iff (levels : CellLevels) (x y : Option Byte) : optionCost levels x y = 0 ↔ x = y := by
  cases x <;> cases y <;> simp [optionCost, cellsCost_eq_zero_iff]

/-- Where one stream has ended, each byte left of the other costs 8 (R226). -/
theorem sum_of_all_eight {cost : Nat → Nat} {n : Nat} (h : ∀ i < n, cost i = 8) :
    ((List.range n).map cost).sum = 8 * n := by
  rw [List.map_congr_left fun i hi => h i (List.mem_range.1 hi), List.map_const', List.sum_replicate, smul_eq_mul,
    List.length_range, mul_comm]

theorem streamCost_eq_sum (levels : CellLevels) (as bs : List Byte) : streamCost levels as bs =
    ((List.range (max as.length bs.length)).map fun i => optionCost levels as[i]? bs[i]?).sum := by
  induction as, bs using streamCost.induct with
  | case1 bs =>
    rw [streamCost, List.length_nil, Nat.zero_max, sum_of_all_eight]
    intro i hi
    rw [List.getElem?_nil, List.getElem?_eq_getElem hi]
    rfl
  | case2 as hne =>
    rw [streamCost, List.length_nil, Nat.max_zero, sum_of_all_eight]
    · intro i hi
      rw [List.getElem?_nil, List.getElem?_eq_getElem hi]
      rfl
    · exact hne
  | case3 a as b bs ih =>
    rw [streamCost, ih, List.length_cons, List.length_cons, Nat.add_max_add_right, List.range_succ_eq_map,
      List.map_cons, List.sum_cons, List.map_map, byteCost_eq_cellsCost]
    rfl

theorem streamCost_streamBytes (levels : CellLevels) (p q : Payload) :
    streamCost levels (streamBytes p) (streamBytes q) =
      ((List.range (max (streamLength p) (streamLength q))).map (indexCost levels p q)).sum := by
  simp only [streamCost_eq_sum, streamBytes_length, streamBytes_getElem?, ← indexCost_eq_optionCost]

/-- Two streams cost nothing exactly if they are the same bytes: past both their ends they agree anyway. -/
theorem streamCost_eq_zero_iff (levels : CellLevels) (p q : Payload) :
    streamCost levels (streamBytes p) (streamBytes q) = 0 ↔ ∀ i, streamByte p i = streamByte q i := by
  simp only [streamCost_streamBytes, List.sum_eq_zero_iff, List.forall_mem_map, List.mem_range,
    indexCost_eq_optionCost, optionCost_eq_zero_iff]
  refine ⟨fun h i => ?_, fun h i _ => h i⟩
  rcases lt_or_ge i (max (streamLength p) (streamLength q)) with hi | hi
  · exact h i hi
  · obtain ⟨hp, hq⟩ := max_le_iff.1 hi
    rw [streamByte_of_length_le hp, streamByte_of_length_le hq]

/-! ### The commands (R220, R223, R227) -/

theorem count_of_ready {s : State} (hready : Ready s) (levels : CellLevels) (cc : Bool) :
    count levels cc s = .next { s with result := some (.count (BitVec.ofNat 10
      (min (if cc then streamCost levels (streamBytes s.request.new) (streamBytes s.request.old)
        else 8 * (streamBytes s.request.new).length) 512))) } := by
  rw [count, command_of_ready hready.1 hready.2, countChanges_eq hready.2]
  rfl

theorem exec_countRaw {i : Instr} (hi : i ∈ [Instr.countRaw1, .countRaw2, .countRaw3]) :
    ∃ levels, ∀ s, exec i s = count levels false s := by
  simp only [List.mem_cons, List.not_mem_nil, or_false] at hi
  rcases hi with rfl | rfl | rfl
  · exact ⟨.one, fun _ => rfl⟩
  · exact ⟨.two, fun _ => rfl⟩
  · exact ⟨.three, fun _ => rfl⟩

/-- The commands that count cells, each with its bits per cell (R74). -/
def cellCommands : List (Instr × CellLevels) := [(.countCells1, .one), (.countCells2, .two), (.countCells3, .three)]

theorem exec_countCells {i : Instr} {levels : CellLevels} (hi : (i, levels) ∈ cellCommands) (s : State) :
    exec i s = count levels true s := by
  simp only [cellCommands, List.mem_cons, List.not_mem_nil, or_false, Prod.mk.injEq] at hi
  rcases hi with ⟨rfl, rfl⟩ | ⟨rfl, rfl⟩ | ⟨rfl, rfl⟩ <;> rfl

/-- Settles O34. -/
theorem countRawGivesTheStreamWidth : Obligations.CountRawGivesTheStreamWidth := by
  intro i s hi hready
  obtain ⟨levels, hexec⟩ := exec_countRaw hi
  rw [hexec, count_of_ready hready, streamBytes_length]
  rfl

/-- Settles O35: the recursion over both streams is the sum over their indices (`streamCost_streamBytes`). -/
theorem countCellsWeighsChangedCells : Obligations.CountCellsWeighsChangedCells := by
  intro i levels s hi hready
  rw [exec_countCells hi, count_of_ready hready, if_pos rfl, streamCost_streamBytes]

/-- Settles O36: the clamp at 512 keeps a cost of 0 apart from all others (`streamCost_eq_zero_iff`). -/
theorem countCellsIsZeroIffStreamsAgree : Obligations.CountCellsIsZeroIffStreamsAgree := by
  intro i s hi hready
  obtain ⟨levels, hlevels⟩ : ∃ levels, (i, levels) ∈ cellCommands := by
    obtain ⟨⟨_, levels⟩, hmem, rfl⟩ := List.mem_map.1 (show i ∈ cellCommands.map Prod.fst from hi)
    exact ⟨levels, hmem⟩
  refine ⟨_, (exec_countCells hlevels s).trans (count_of_ready hready levels true), ?_⟩
  rw [if_pos rfl, ← streamCost_eq_zero_iff levels]
  generalize streamCost levels (streamBytes s.request.new) (streamBytes s.request.old) = cost
  have hcount : (BitVec.ofNat 10 (min cost 512)).toNat = min cost 512 := by
    rw [BitVec.toNat_ofNat]
    omega
  have hzero : (0 : BitVec 10).toNat = 0 := rfl
  rw [← BitVec.toNat_inj, hcount, hzero]
  omega

end Sys2Proof.Proofs.WriteCost
end

section
/-! COMPRESS.NONE, which only hands a RESULT back (R250), and COMPRESS.DFPC after extraction, which no longer reads the
write counter: the mode decision alone compares it, and finds the engine extracted first (R253, R255). -/

namespace Sys2Proof.Proofs.CompressModes

open Sys2Proof.Machine

/-- Settles O24: the operation always completes, so the checks alone stand before it (R276). -/
theorem compressNoneReturnsZero : Obligations.CompressNoneReturnsZero :=
  fun _ ⟨hfault, hrecord⟩ => exec_of_ready hfault hrecord rfl

/-! ### Another write counter presented (R35) -/

/-- The state with the write counter `c` presented in place of its own (R35). -/
def withCounter (c : Counter) (s : State) : State := { s with wc := c }

theorem compressBoth_withCounter (codec : Payload → Except Abort (Payload × Bool)) (c : Counter) (s : State) :
    compressBoth codec (withCounter c s) = (compressBoth codec s).map (withCounter c) := by
  simp only [compressBoth, withCounter, bind, Except.bind]
  cases codec s.request.old with
  | error e => rfl
  | ok old =>
    cases codec s.request.new with
    | error e => rfl
    | ok new => rfl

/-- A command whose operation only hands the write counter on does so itself: its checks read the engine and the
record (R276). -/
theorem command_withCounter {op : State → Except Abort State} {s t : State} (c : Counter)
    (hop : op (withCounter c s) = (op s).map (withCounter c)) (h : command op s = .next t) :
    command op (withCounter c s) = .next (withCounter c t) := by
  rcases command_next h with ⟨hfault, rfl⟩ | ⟨hfault, hrecord, rfl⟩ | ⟨hfault, hrecord, hok⟩ |
    ⟨hfault, hrecord, code, herror, rfl⟩
  · exact command_of_fault (s := withCounter c s) hfault op
  · exact command_of_illFormed (s := withCounter c s) hfault hrecord op
  · rw [command_of_ready (s := withCounter c s) hfault hrecord, hop, hok]
    rfl
  · rw [command_of_ready (s := withCounter c s) hfault hrecord, hop, herror]
    rfl

/-! ### COMPRESS.DFPC after extraction (R253, R255) -/

theorem inTraining_of_extracted {s : State} (h : s.engine.extracted = true) : inTraining s = false := by
  simp [inTraining, h]

/-- The steady path reads no counter: extraction takes the configuration and the engine alone (R254). -/
theorem dfpcSteady_withCounter (c : Counter) (s : State) :
    dfpcSteady (withCounter c s) = (dfpcSteady s).map (withCounter c) :=
  compressBoth_withCounter _ c { s with engine := extractOnce s.cfg s.engine }

theorem operationOf_dfpc_of_extracted {s : State} (h : s.engine.extracted = true) :
    operationOf .compressDfpc s = dfpcSteady s :=
  if_neg (Bool.eq_false_iff.1 (inTraining_of_extracted h))

/-- An extracted engine is in steady state whatever the counter (`inTraining_of_extracted`). -/
theorem exec_dfpc_withCounter {s t : State} (hextracted : s.engine.extracted = true) (c : Counter)
    (h : exec .compressDfpc s = .next t) : exec .compressDfpc (withCounter c s) = .next (withCounter c t) := by
  have hop : operationOf .compressDfpc (withCounter c s) = (operationOf .compressDfpc s).map (withCounter c) := by
    rw [operationOf_dfpc_of_extracted hextracted, operationOf_dfpc_of_extracted (s := withCounter c s) hextracted]
    exact dfpcSteady_withCounter c s
  rw [exec_eq_command] at h ⊢
  exact command_withCounter c hop h

/-- Settles O32. -/
theorem counterGoingBackDoesNotRetrain : Obligations.CounterGoingBackDoesNotRetrain := by
  intro s t a b hextracted h
  exact exec_dfpc_withCounter (s := withCounter a s) hextracted b h

end Sys2Proof.Proofs.CompressModes
end

section
/-! The exceptions of a step: a word on a faulted engine is refused before it is decoded (R272), an illegal one raises
`IllegalCommand` (R275), and a command that raises a fault leaves nothing behind but the fault (R271). -/

namespace Sys2Proof.Proofs.Exceptions

open Sys2Proof.Machine Sys2Proof.Proofs.EngineInvariant

/-! ### Presented words (R272, R275) -/

/-- Settles O6: the refusal stands before decoding (R276), so the word does not matter. -/
theorem faultedEngineRefusesEveryWord : Obligations.FaultedEngineRefusesEveryWord := by
  intro s w wc rest hhost hfault
  rw [step_cons hhost]
  exact runWord_of_fault (s := { s with host := rest, wc := wc }) hfault w

/-- Settles O5. -/
theorem illegalWordRaisesIllegalCommand : Obligations.IllegalWordRaisesIllegalCommand := by
  intro s w wc rest e hhost hfault hdecode
  rw [step_cons hhost]
  exact runWord_of_illegal (s := { s with host := rest, wc := wc }) hfault hdecode

/-! ### Commands (R270, R271) -/

/-- A command that finds no fault and leaves one has raised it: a completed operation writes no fault field, so it was
the check of the record or the operation that raised (R276). -/
theorem exec_raised {i : Instr} {s t : State} (h : exec i s = .next t) (hbefore : s.engine.fault = false)
    (hafter : t.engine.fault = true) : ∃ c, t = raiseFault c s := by
  rcases exec_next h with ⟨hfault, -⟩ | ⟨-, raised⟩ | ⟨-, -, hop⟩
  · simp [hbefore] at hfault
  · exact raised
  · simp [(operation_fault hop).1, hbefore] at hafter

/-- No fault is raised with code 0, None, or with a reserved code, 5 to 7 (R270). -/
theorem one_le_number_le_four (c : FaultCode) : 1 ≤ c.number.toNat ∧ c.number.toNat ≤ 4 := by
  obtain ⟨hle, hne⟩ := faultCode_number_bounds c
  exact ⟨Nat.pos_of_ne_zero fun h => hne (BitVec.eq_of_toNat_eq h), hle⟩

/-- Settles O20. -/
theorem faultingCommandDiscardsItsWrites : Obligations.FaultingCommandDiscardsItsWrites := by
  intro i s t h hbefore hafter
  obtain ⟨c, rfl⟩ := exec_raised h hbefore hafter
  exact ⟨rfl, one_le_number_le_four c⟩

end Sys2Proof.Proofs.Exceptions
end

section
/-! The steps no command takes part in: an idle one and a lent record (log 2, log 3), and the state the buffer invariant
starts from. -/

namespace Sys2Proof.Proofs.HostTurns

open Sys2Proof.Machine Sys2Proof.Proofs.BufferInvariant

/-! ### An idle step and a lent record (log 2, log 3) -/

theorem step_lend {s : State} {r : Request} {rest : List HostAction} (h : s.host = .lend r :: rest) :
    step s = .next (lendRequest r { s with host := rest }) := step_cons h

/-- Settles O10. -/
theorem hostTurnsWithoutACommand : Obligations.HostTurnsWithoutACommand :=
  ⟨fun _ => step_nil, fun _ _ _ => step_lend⟩

/-! ### The buffer invariant at reset (log 6) -/

/-- The record in hand after construction is the fresh one, whatever the configuration. -/
theorem constructed_canonical (cfg : Knobs) : Canonical (State.constructed cfg) :=
  (canonical_iff _).2 ⟨fresh_buffersWf.1, fresh_buffersWf.1⟩

/-- Settles O14: the host's list starts empty, so no record is still to be lent. -/
theorem buffersInvHoldsAfterReset : Obligations.BuffersInvHoldsAfterReset := by
  intro cfg
  have nothing_lent : ∀ r, HostAction.lend r ∉ (State.constructed cfg).host := by simp
  exact ⟨constructed_canonical cfg, fun r hr => absurd hr (nothing_lent r)⟩

end Sys2Proof.Proofs.HostTurns
end
